-- ==== Sys2Proof/Word.lean ====
section
/-! DEFINITION. The basic types of the block: bytes, words, codes (00_scope.md R9).
No arithmetic stands here: the block's only arithmetic is on natural numbers (R16). -/

namespace Sys2Proof

/-- A byte: eight bits, no byte value special (R9, R53). -/
abbrev Byte := BitVec 8

/-- A word: a finite sequence of bytes, a dictionary entry or a match buffer (R9).
Equality is equality of length and content. -/
abbrev Word := List Byte

/-- A byte sequence that is a stream (R9), with the same representation as a word. -/
abbrev ByteSeq := List Byte

/-! A code is a natural number, unbounded inside the block (R9, R25), written `Nat` throughout; its width on the wire is a
matter of the token codec (R170). -/

/-- A finite sequence of codes (R9). -/
abbrev CodeSeq := List Nat

/-- A collaborator's own error value, which the block passes on and never looks into (R176). -/
abbrev ErrVal := Nat

end Sys2Proof
end

