-- ==== Sys2Proof/Config.lean ====
section
/-! DEFINITION. The parameters of the block (00_scope.md R6, 92_eei_decisions.md "Open parameters") and the one free
value of the model. Every shared operation takes the parameters as an argument; the meanings take `Config.hw`. -/

namespace Sys2Proof

/-- Order of the bytes of a code on the wire (R54, D2). -/
inductive ByteOrder where
  | le   -- least significant byte at offset 0
  | be   -- most significant byte at offset 0
deriving DecidableEq, Repr

/-- The parameters of R6. `CODE_BITS` and `CODE_LIMIT`, which follow from `W`, are `Config.codeBits` and
`Config.codeLimit`. -/
structure Config where
  /-- `ALPHABET`: number of preloaded single-byte entries. -/
  alphabet : Nat
  /-- `FIRST_CODE`: the first code given out by `Add`. -/
  firstCode : Nat
  /-- `W` (`CODE_BYTES`): width of one code on the wire, in bytes. -/
  codeBytes : Nat
  /-- `BYTE_ORDER`. -/
  byteOrder : ByteOrder
  /-- `CAPACITY`: largest number of table entries, the preloaded ones included; `none` is unbounded. -/
  capacity : Option Nat
  /-- `MAX_WORD_LEN`: `none` is unbounded; no rule of the spec uses a finite value (D4, U9). -/
  maxWordLen : Option Nat
  /-- `LOOKAHEAD`: codes the decoder may hold unread ahead of the one it resolves (R227). -/
  lookahead : Nat
deriving DecidableEq, Repr

/-- The values this hardware takes (R6, third column; assumption 2). -/
def Config.hw : Config :=
  { alphabet := 256, firstCode := 256, codeBytes := 4, byteOrder := .le, capacity := none, maxWordLen := none,
    lookahead := 1 }

/-- `CODE_BITS = 8 * W` (R6). -/
def Config.codeBits (cfg : Config) : Nat := 8 * cfg.codeBytes

/-- `CODE_LIMIT = 2^CODE_BITS`, the first value `Pack` cannot hold (R6). -/
def Config.codeLimit (cfg : Config) : Nat := 2 ^ cfg.codeBits

/-- The values a parameter may take: `ALPHABET`, `FIRST_CODE` and `LOOKAHEAD` are fixed by the source (R6), the others lie
in the ranges of 92_eei_decisions.md, "Open parameters a model must take". -/
def Config.valid (cfg : Config) : Bool :=
  decide (cfg.alphabet = 256) && decide (cfg.firstCode = 256) && decide (cfg.lookahead = 1) &&
  decide (1 ≤ cfg.codeBytes) &&
  (match cfg.capacity with | none => true | some c => decide (cfg.alphabet ≤ c)) &&
  (match cfg.maxWordLen with | none => true | some m => decide (1 ≤ m))

/-- FREE VALUE (assumption 3). What the sink holds of a failed run's output: "callers should treat a failed
compress/decompress call's output stream contents as undefined" (R203, U2, U3).
It is applied to a counter of State, so every failure has its own value. -/
opaque Config.failedOutput : Nat → List (BitVec 8)

end Sys2Proof
end

