-- ==== Sys2Proof/Syntax.lean ====
section
/-! DEFINITION. The operations of the block: one constructor per row of spec/opcode_table.json, in the table's order.
Rows without bits (R89) are constructors all the same; an operation that the table gives to either unit, or to no unit,
and that acts on one unit's table or stream, carries the unit it acts on (assumption 5). -/

namespace Sys2Proof

/-- The two units of the block (R2, R20). -/
inductive UnitId where
  | enc
  | dec
deriving DecidableEq, Repr

/-- The 28 operations. The comment of each names its row and its rule. -/
inductive Instr where
  | tInit (u : UnitId)                    -- T.INIT           R100
  | tContains (w : Word)                  -- T.CONTAINS       R101
  | tLookupW (w : Word)                   -- T.LOOKUPW        R102
  | tLookupC (k : Nat)                   -- T.LOOKUPC        R103
  | tAddW (w : Word)                      -- T.ADDW           R104
  | tAddC (w : Word)                      -- T.ADDC           R105
  | eStart                                -- E.START          R120
  | eByte (c : Byte)                      -- E.BYTE           R121
  | eByteHit (c : Byte)                   -- E.BYTE.HIT       R122
  | eByteMiss (c : Byte)                  -- E.BYTE.MISS      R123
  | eEos                                  -- E.EOS            R124
  | dStart                                -- D.START          R140
  | dCode (k : Nat)                      -- D.CODE           R141
  | dCodeFirst (k : Nat)                 -- D.CODE.FIRST     R142
  | dCodeRes (k : Nat)                   -- D.CODE.RES       R144
  | dCodeKwk (k : Nat)                   -- D.CODE.KWK       R145
  | dCodeBad (k : Nat)                   -- D.CODE.BAD       R146
  | dEos                                  -- D.EOS            R147
  | dShort (n : Nat)                      -- D.SHORT          R148
  | pack (k : Nat)                       -- PACK             R170
  | unpack (f : ByteSeq)                  -- UNPACK           R171
  | readByte (u : UnitId)                 -- READBYTE         R172
  | writeBytes (u : UnitId) (bs : ByteSeq)  -- WRITEBYTES     R173
  | readCode                              -- READCODE         R175
  | compress (b : ByteSeq)                -- COMPRESS         R126
  | decompress (ks : CodeSeq)             -- DECOMPRESS       R150
  | decompressBytes (bs : ByteSeq)        -- DECOMPRESSBYTES  R177
  | compressBytes (b : ByteSeq)           -- COMPRESSBYTES    R177
deriving DecidableEq, Repr

/-- The formats of R80 and R89. -/
inductive Format where
  | byte8
  | code
  | event
  | tableOp
  | codec
  | host
  | composite
deriving DecidableEq, Repr

/-- The format the opcode table gives each row. -/
def Instr.format : Instr → Format
  | .tInit _ => .tableOp
  | .tContains _ => .tableOp
  | .tLookupW _ => .tableOp
  | .tLookupC _ => .tableOp
  | .tAddW _ => .tableOp
  | .tAddC _ => .tableOp
  | .eStart => .event
  | .eByte _ => .byte8
  | .eByteHit _ => .byte8
  | .eByteMiss _ => .byte8
  | .eEos => .event
  | .dStart => .event
  | .dCode _ => .code
  | .dCodeFirst _ => .code
  | .dCodeRes _ => .code
  | .dCodeKwk _ => .code
  | .dCodeBad _ => .code
  | .dEos => .event
  | .dShort _ => .event
  | .pack _ => .codec
  | .unpack _ => .codec
  | .readByte _ => .host
  | .writeBytes _ _ => .host
  | .readCode => .host
  | .compress _ => .composite
  | .decompress _ => .composite
  | .decompressBytes _ => .composite
  | .compressBytes _ => .composite

/-- The input event a row's bits select. The sub-case rows repeat the pattern of their format and are chosen by state
(R89), so their bits select `E.BYTE` (R81) or `D.CODE` (R82). -/
def Instr.event : Instr → Instr
  | .eByteHit c => .eByte c
  | .eByteMiss c => .eByte c
  | .dCodeFirst k => .dCode k
  | .dCodeRes k => .dCode k
  | .dCodeKwk k => .dCode k
  | .dCodeBad k => .dCode k
  | .tInit u => .tInit u
  | .tContains w => .tContains w
  | .tLookupW w => .tLookupW w
  | .tLookupC k => .tLookupC k
  | .tAddW w => .tAddW w
  | .tAddC w => .tAddC w
  | .eStart => .eStart
  | .eByte c => .eByte c
  | .eEos => .eEos
  | .dStart => .dStart
  | .dCode k => .dCode k
  | .dEos => .dEos
  | .dShort n => .dShort n
  | .pack k => .pack k
  | .unpack f => .unpack f
  | .readByte u => .readByte u
  | .writeBytes u bs => .writeBytes u bs
  | .readCode => .readCode
  | .compress b => .compress b
  | .decompress ks => .decompress ks
  | .decompressBytes bs => .decompressBytes bs
  | .compressBytes b => .compressBytes b

end Sys2Proof
end

