-- ==== Sys2Proof/WellFormed.lean ====
section
/-! DEFINITION. Which operand values an operation's rule admits. A meaning refuses an ill-formed operation; the check
says which operations those are. -/

namespace Sys2Proof

/-- A code that a wire field can hold: `0 ≤ k < CODE_LIMIT` (R82, R141). -/
def Config.fits (cfg : Config) (k : Nat) : Bool := decide (k < cfg.codeLimit)

/-- The operand domains: `D.CODE` takes a code `Unpack` can give (R141); `D.SHORT` takes 1 to `W - 1` (R148);
`Unpack` takes exactly `W` bytes (R171); `WriteBytes` takes a non-empty sequence (R173); `Add` is given no meaning
on the empty word (R108). Every other operand is admitted. -/
def Instr.wellFormedFor (cfg : Config) : Instr → Bool
  | .tInit _ => true
  | .tContains _ => true
  | .tLookupW _ => true
  | .tLookupC _ => true
  | .tAddW w => decide (w ≠ [])
  | .tAddC w => decide (w ≠ [])
  | .eStart => true
  | .eByte _ => true
  | .eByteHit _ => true
  | .eByteMiss _ => true
  | .eEos => true
  | .dStart => true
  | .dCode k => cfg.fits k
  | .dCodeFirst k => cfg.fits k
  | .dCodeRes k => cfg.fits k
  | .dCodeKwk k => cfg.fits k
  | .dCodeBad k => cfg.fits k
  | .dEos => true
  | .dShort n => decide (1 ≤ n) && decide (n < cfg.codeBytes)
  | .pack _ => true
  | .unpack f => decide (f.length = cfg.codeBytes)
  | .readByte _ => true
  | .writeBytes _ bs => decide (bs ≠ [])
  | .readCode => true
  | .compress _ => true
  | .decompress ks => ks.all cfg.fits
  | .decompressBytes _ => true
  | .compressBytes _ => true

/-- Well-formed for this hardware. -/
def Instr.wellFormed (i : Instr) : Bool := i.wellFormedFor Config.hw

end Sys2Proof
end

