-- ==== Sys2Proof/Decode.lean ====
section
/-! DEFINITION. Bits to operations and back (30_encoding.md R80 to R87; the token codec R170, R171).
The format of a field is known from the stream it stands in, never from its value (R80, R87), so `decode` takes it as
an argument. Decoding is total: every byte and every `W`-byte field has one meaning, and a field of another length is
rejected by name. -/

namespace Sys2Proof

/-- The `n` lowest bytes of `k`, lane 0 first (R10): element `i` is `k[8i+7 : 8i]`. -/
def lanes : Nat → Nat → ByteSeq
  | 0, _ => []
  | n + 1, k => BitVec.ofNat 8 k :: lanes n (k / 256)

/-- The number whose lanes are `f`, lane 0 first: the sum of `f[i] * 256^i` (R83). -/
def ofLanes : ByteSeq → Nat
  | [] => 0
  | b :: r => b.toNat + 256 * ofLanes r

/-- The bytes of a field in the order they are written, given its lanes (R10): offset `i` holds lane `i` under `le`
and lane `W-1-i` under `be`. The map is its own inverse. -/
def Config.ordered (cfg : Config) (f : ByteSeq) : ByteSeq :=
  match cfg.byteOrder with
  | .le => f
  | .be => f.reverse

/-- `Pack` (R170): the `W` bytes of a code, or `none` where the code does not fit (the fault `CodeRange`). -/
def packField (cfg : Config) (k : Nat) : Option ByteSeq :=
  if k < cfg.codeLimit then some (cfg.ordered (lanes cfg.codeBytes k)) else none

/-- `Unpack` (R171), on the `W` bytes of a field. -/
def unpackField (cfg : Config) (f : ByteSeq) : Nat := ofLanes (cfg.ordered f)

/-- Why a byte sequence is no field of its format. -/
inductive DecodeReject where
  /-- `got` bytes are not the length of this format's field (R56, R86): no such field exists in a stream. -/
  | wrongLength (fmt : Format) (got : Nat)
  /-- The format has no bits (R89). -/
  | noBits (fmt : Format)
deriving DecidableEq, Repr

/-- The operation that a field's bytes select (R81, R82, R86). -/
def decodeFor (cfg : Config) (fmt : Format) (bs : ByteSeq) : Except DecodeReject Instr :=
  match fmt with
  | .byte8 =>
    match bs with
    | [c] => .ok (.eByte c)
    | bs => .error (.wrongLength .byte8 bs.length)
  | .code =>
    if bs.length = cfg.codeBytes then .ok (.dCode (unpackField cfg bs)) else .error (.wrongLength .code bs.length)
  | .event => .error (.noBits .event)
  | .tableOp => .error (.noBits .tableOp)
  | .codec => .error (.noBits .codec)
  | .host => .error (.noBits .host)
  | .composite => .error (.noBits .composite)

/-- Decoding with this hardware's parameters. -/
def decode (fmt : Format) (bs : ByteSeq) : Except DecodeReject Instr := decodeFor Config.hw fmt bs

/-- The field of an operation (R81, R83, R89): `none` where it has no bits, or where its code fits no field. -/
def encodeFor (cfg : Config) : Instr → Option ByteSeq
  | .eByte c => some [c]
  | .eByteHit c => some [c]
  | .eByteMiss c => some [c]
  | .dCode k => packField cfg k
  | .dCodeFirst k => packField cfg k
  | .dCodeRes k => packField cfg k
  | .dCodeKwk k => packField cfg k
  | .dCodeBad k => packField cfg k
  | .tInit _ => none
  | .tContains _ => none
  | .tLookupW _ => none
  | .tLookupC _ => none
  | .tAddW _ => none
  | .tAddC _ => none
  | .eStart => none
  | .eEos => none
  | .dStart => none
  | .dEos => none
  | .dShort _ => none
  | .pack _ => none
  | .unpack _ => none
  | .readByte _ => none
  | .writeBytes _ _ => none
  | .readCode => none
  | .compress _ => none
  | .decompress _ => none
  | .decompressBytes _ => none
  | .compressBytes _ => none

/-- Encoding with this hardware's parameters. -/
def encode (i : Instr) : Option ByteSeq := encodeFor Config.hw i

/-- The bytes of a table row's bits as the hardware stores them: one byte for `BYTE8`, the packed field for `CODE`.
`nbits` is 8 or 32 on this hardware; no other length is a format (R80). -/
def tableWordBytes (nbits w : Nat) : Option (Format × ByteSeq) :=
  if nbits = 8 then some (.byte8, [BitVec.ofNat 8 w])
  else if nbits = Config.hw.codeBits then some (.code, Config.hw.ordered (lanes Config.hw.codeBytes w))
  else none

/-- The operation the decoder reads from a table row's word. -/
def decodeTableWord (nbits w : Nat) : Option Instr :=
  match tableWordBytes nbits w with
  | some (fmt, bs) =>
    match decode fmt bs with
    | .ok i => some i
    | .error _ => none
  | none => none

end Sys2Proof
end

