-- ==== Sys2Proof/Machine/State.lean ====
section
/-! DEFINITION. The state of the block and of the host's side of its boundary, the reasons a step can stop, and the state
at power-on (10_state.md R20 to R41). -/

namespace Sys2Proof.Machine

/-- `e_phase` (R29). -/
inductive EPhase where
  | idle | run | done | fault
deriving DecidableEq, Repr

/-- `d_phase` (R29). -/
inductive DPhase where
  | idle | first | run | done | fault
deriving DecidableEq, Repr

/-- The key a lookup did not find (R190, information of cause 1). -/
inductive Key where
  | code (k : Nat)
  | word (w : Word)
deriving DecidableEq, Repr

/-- Contents of a fault register: `NONE` or a cause with its information value (R30, R190). -/
inductive Cause where
  | none                       -- 0
  | decodeError (info : Key)   -- 1, also the table's LookupError (R191)
  | ioError (e : ErrVal)       -- 2
  | codeRange (k : Nat)       -- 3
  | tableFull (n : Nat)        -- 4
  | duplicateAdd (w : Word)    -- 5
deriving DecidableEq, Repr

/-- Encode table `ET` with its counter `e_next` (R21, R25): a finite partial map from words to codes, one row per entry
in the order `Add` appended them. -/
structure EncTable where
  entries : List (Word × Nat)
  next    : Nat
deriving DecidableEq, Repr

/-- Decode table `DT` with its counter `d_next` (R22, R25): a finite partial map from codes to words. -/
structure DecTable where
  entries : List (Nat × Word)
  next    : Nat
deriving DecidableEq, Repr

/-- Unit `ENC` (R20). -/
structure Enc where
  tbl      : EncTable   -- ET, e_next
  ready    : Bool       -- TblInit has run since power-on: the table is not unspecified (R35, R197)
  cur      : Word       -- R26
  phase    : EPhase     -- e_phase
  fault    : Cause      -- e_fault
  bytesIn  : Nat        -- e_in  (R31, observational; assumption 14)
  codesOut : Nat        -- e_out (R31, observational)
deriving DecidableEq, Repr

/-- Unit `DEC` (R20). -/
structure Dec where
  tbl      : DecTable      -- DT, d_next
  ready    : Bool          -- as for ENC
  cw       : Word          -- R27
  la       : Option Nat   -- R28: the lookahead code with its valid bit; holds nothing between steps (assumption 18)
  phase    : DPhase        -- d_phase
  fault    : Cause         -- d_fault
  codesIn  : Nat           -- d_in  (R31, observational)
  bytesOut : Nat           -- d_out (R31, observational)
deriving DecidableEq, Repr

/-- What becomes of one collaborator call (the oracle of R172, R176 and 92_eei_decisions.md "Open parameters"). -/
inductive CallAnswer where
  | returns              -- the call succeeds
  | fails (e : ErrVal)   -- the call fails with the collaborator's own value (R176)
  | blocks               -- the call never returns (R181, U17)
deriving DecidableEq, Repr

/-- The host's side of one unit's streams (R172, R173): the input cursor and the output sink. The host opens and closes
both (R7, R174); no operation of the block closes either. -/
structure Port where
  inOpen  : Bool              -- an input is open: the unit's symbols come from its cursor (assumption 23)
  outOpen : Bool              -- an output is open
  input   : ByteSeq           -- the input bytes the cursor has not returned yet
  ended   : Bool              -- the cursor has answered EndOfStream (R172: it is not asked again)
  reads   : List CallAnswer   -- what becomes of the next reads; past the end of the list every read returns
  past    : ByteSeq           -- what earlier streams of the unit left in the sink
  sent    : ByteSeq           -- what this stream has written to the sink
  writes  : List CallAnswer   -- what becomes of the next writes; past the end of the list every write succeeds
deriving DecidableEq, Repr

/-- One output symbol of a step (R8): a code, a byte, or the answer a table operation or a host primitive returns. -/
inductive Output where
  | flag (b : Bool)
  | code (k : Nat)
  | byte (b : Byte)
  | endOfStream
  | short (n : Nat)
  | success
deriving DecidableEq, Repr

/-- What the host does next (R7, R178, R223 to R225). -/
inductive HostMove where
  | issue (i : Instr)                           -- issues an operation or offers an input event
  | openStream (u : UnitId) (input : ByteSeq)   -- opens an input and an output for `u`
  | openOutput (u : UnitId)                     -- opens an output for `u`, whose symbols the host issues itself
  | startStream (u : UnitId) (input : ByteSeq)  -- opens an input and an output for `u` and issues its start
  | poll (u : UnitId)                           -- lets `u` take its next input symbol from its cursor
  | close (u : UnitId)                          -- closes the input and the output of `u`
deriving DecidableEq, Repr

/-- The whole state: the two units (R20), the host's side of each one's streams, the host's coming moves (oldest first),
the output symbols of the last step (R8, R40; assumption 15), and the model's own counter of free values (assumption 3). -/
structure State where
  enc     : Enc
  dec     : Dec
  encPort : Port
  decPort : Port
  moves   : List HostMove
  outputs : List Output
  freeIdx : Nat
deriving DecidableEq, Repr

/-- Reasons the machine stops with a fault. The causes of R190 are NOT here: their entry is described (R202), so a step
that raises one takes a next state with the fault register written. -/
inductive Fault where
  /-- Raised by every step that calls `ReadByte` or `WriteBytes` for `u` when the call never returns: the unit is stuck
  (R181, U17). Safe: no next state is claimed. -/
  | blocked (u : UnitId)
deriving DecidableEq, Repr

/-- Reasons a step is refused: the spec gives the operation no meaning in the state it was issued in (R8, R197).
All are safe: no next state is claimed. -/
inductive Refusal where
  /-- Raised by an arm of `exec` whose instruction has no meaning yet. -/
  | notModelled (mnemonic : String)
  /-- Raised by an input event, a host primitive or a table operation in a phase of `u` that does not accept it, and by a
  cause raised for `u` outside a stream, where no fault can be taken (R29, R35, R130, R131, R157, R158, R172, R204, R222). -/
  | wrongPhase (u : UnitId)
  /-- Raised by a table operation on a table of `u` that was never initialised (R197: phase `IDLE`). -/
  | uninitialised (u : UnitId)
  /-- Raised by `T.ADDW`, `T.ADDC` on the empty word (R108), and where a rule needs the first byte of an empty word. -/
  | emptyWord
  /-- Raised by an operand outside the domain its rule gives: a code no field holds (R141), a fragment length that is not
  1 to `W - 1` (R148), an empty write (R173). -/
  | operandDomain
  /-- Raised by `UNPACK` of other than `W` bytes (R171). -/
  | fieldLength
  /-- Raised by a sub-case row issued in a state that selects another sub-case (opcode_table.json, "condition"). -/
  | otherCase
  /-- Raised by a read after the cursor of `u` has answered EndOfStream (R172, U19). -/
  | readAfterEnd (u : UnitId)
  /-- Raised by a read for `u` when no input is open for its stream (R178: "must open the input and the output first"). -/
  | notOpened (u : UnitId)
  /-- Raised by `step` when the host's next move is one that R178 and R223 exclude while a stream of `u` is in progress. -/
  | hostContract (u : UnitId)
  /-- Raised by `step` when the host makes no move and no unit has a stream with an input to read: there is no event. -/
  | noEvent
deriving DecidableEq, Repr

/-- A unit's port with nothing opened. -/
def Port.closed : Port :=
  { inOpen := false, outOpen := false, input := [], ended := false, reads := [], past := [], sent := [], writes := [] }

/-- `ENC` at power-on (R35): phase `IDLE`, fault `NONE`; the rest is unspecified and never read (assumption 1). -/
def Enc.powerOn : Enc :=
  { tbl := { entries := [], next := 0 }, ready := false, cur := [], phase := .idle, fault := .none,
    bytesIn := 0, codesOut := 0 }

/-- `DEC` at power-on (R35): phase `IDLE`, fault `NONE`; the rest is unspecified and never read (assumption 1). -/
def Dec.powerOn : Dec :=
  { tbl := { entries := [], next := 0 }, ready := false, cw := [], la := none, phase := .idle, fault := .none,
    codesIn := 0, bytesOut := 0 }

/-- The power-on state (R35, R221). The start of a stream, the reset the source defines (R220), is `E.START`, `D.START`. -/
def State.reset : State :=
  { enc := Enc.powerOn, dec := Dec.powerOn, encPort := Port.closed, decPort := Port.closed,
    moves := [], outputs := [], freeIdx := 0 }

end Sys2Proof.Machine
end

