-- ==== Sys2Proof/Machine/Ops.lean ====
section
/-! DEFINITION. The shared operations every meaning is written in: named updates of State, the symbol tables as maps
(40_symbol_table.md), the collaborator calls (43_codec_and_io.md), taking a fault (60_exceptions.md R202), and the start
of a stream, the only way out of one (R204). -/

namespace Sys2Proof.Machine

/-! ### Named updates of State -/

def State.setEnc (s : State) (e : Enc) : State := { s with enc := e }

def State.setDec (s : State) (d : Dec) : State := { s with dec := d }

def State.setMoves (s : State) (m : List HostMove) : State := { s with moves := m }

def State.setOutputs (s : State) (o : List Output) : State := { s with outputs := o }

/-- The host's side of the streams of `u`. -/
def State.port (s : State) : UnitId → Port
  | .enc => s.encPort
  | .dec => s.decPort

def State.setPort (s : State) (u : UnitId) (p : Port) : State :=
  match u with
  | .enc => { s with encPort := p }
  | .dec => { s with decPort := p }

/-! ### The result of an operation inside a step (R8, R12) -/

/-- What an operation ends in: a value and the state reached; a raised cause, with the state reached when it was raised;
a collaborator call that never returns; or no meaning. -/
inductive Res (α : Type) where
  | ok (a : α) (s : State)
  | raise (c : Cause) (s : State)
  | stuck (f : Fault)
  | refuse (r : Refusal)
deriving DecidableEq, Repr

/-- One statement after another: after a raise no statement runs (R12). -/
def Res.bind {α β : Type} (r : Res α) (k : α → State → Res β) : Res β :=
  match r with
  | .ok a s => k a s
  | .raise c s => .raise c s
  | .stuck f => .stuck f
  | .refuse r => .refuse r

/-- The outcome of a step. -/
abbrev Out := Host.Outcome State Fault Refusal

/-! ### Phases -/

/-- `u` has a stream in progress: phase `RUN`, or `FIRST` (R29). -/
def State.streaming (s : State) : UnitId → Bool
  | .enc => decide (s.enc.phase = .run)
  | .dec => decide (s.dec.phase = .first) || decide (s.dec.phase = .run)

/-- `u` has a stream in progress whose symbols come from the cursor. -/
def State.fed (s : State) (u : UnitId) : Bool := s.streaming u && (s.port u).inOpen

/-- The table of `u` is that of a stream in progress or just ended: the phases that R36 and R37 speak of, which are all but
`IDLE` and `FAULT`. In those two the unit executes nothing but a start (R35, R204, R221). -/
def State.tableLive (s : State) : UnitId → Bool
  | .enc => decide (s.enc.phase = .run) || decide (s.enc.phase = .done)
  | .dec => decide (s.dec.phase = .first) || decide (s.dec.phase = .run) || decide (s.dec.phase = .done)

/-- `u` is in phase `FAULT`. -/
def State.faulted (s : State) : UnitId → Bool
  | .enc => decide (s.enc.phase = .fault)
  | .dec => decide (s.dec.phase = .fault)

/-! ### The tables as finite partial maps (R11) -/

/-- The value of key `k` in a map held as a list of pairs. -/
def assocGet {α β : Type} [DecidableEq α] (k : α) : List (α × β) → Option β
  | [] => none
  | (a, b) :: rest => if a = k then some b else assocGet k rest

/-- `ET` after `TblInit`: exactly the `ALPHABET` entries `[b] -> b`, the counter at `FIRST_CODE` (R23, R100). -/
def EncTable.literals (cfg : Config) : EncTable :=
  { entries := (List.range cfg.alphabet).map fun b => ([BitVec.ofNat 8 b], b), next := cfg.firstCode }

/-- `DT` after `TblInit`: exactly the `ALPHABET` entries `b -> [b]`, the counter at `FIRST_CODE` (R23, R100). -/
def DecTable.literals (cfg : Config) : DecTable :=
  { entries := (List.range cfg.alphabet).map fun b => (b, [BitVec.ofNat 8 b]), next := cfg.firstCode }

/-- `ET[w]`. -/
def EncTable.get (t : EncTable) (w : Word) : Option Nat := assocGet w t.entries

/-- `w in dom(ET)`. -/
def EncTable.has (t : EncTable) (w : Word) : Bool := (t.get w).isSome

/-- `DT[k]`. -/
def DecTable.get (t : DecTable) (k : Nat) : Option Word := assocGet k t.entries

/-- The new row and the counter, as one indivisible update (R58, R104). -/
def EncTable.append (t : EncTable) (w : Word) : EncTable :=
  { entries := t.entries ++ [(w, t.next)], next := t.next + 1 }

/-- The new row and the counter, as one indivisible update (R58, R105). -/
def DecTable.append (t : DecTable) (w : Word) : DecTable :=
  { entries := t.entries ++ [(t.next, w)], next := t.next + 1 }

/-- Canonical form of `ET`: codes strictly rising and below the counter, no word twice; equal maps are then equal lists. -/
abbrev EncTable.wf (t : EncTable) : Prop :=
  (t.entries.map (·.2)).Pairwise (· < ·) ∧ (∀ k ∈ t.entries.map (·.2), k < t.next) ∧ (t.entries.map (·.1)).Nodup

/-- Canonical form of `DT`: codes strictly rising and below the counter; equal maps are then equal lists. -/
abbrev DecTable.wf (t : DecTable) : Prop :=
  (t.entries.map (·.1)).Pairwise (· < ·) ∧ (∀ k ∈ t.entries.map (·.1), k < t.next)

/-- The block's memories, its two tables (R50), are in canonical form. -/
abbrev Memory.wf (s : State) : Prop := s.enc.tbl.wf ∧ s.dec.tbl.wf

/-- A table that holds `n` entries is full (R109). -/
def tableIsFull (cfg : Config) (n : Nat) : Bool :=
  match cfg.capacity with
  | none => false
  | some c => decide (c ≤ n)

/-! ### The symbol-table operations (R100 to R109) -/

/-- `TblInit` for `ENC` (R100). -/
def tblInitEnc (cfg : Config) (s : State) : State := s.setEnc { s.enc with tbl := EncTable.literals cfg, ready := true }

/-- `TblInit` for `DEC` (R100). -/
def tblInitDec (cfg : Config) (s : State) : State := s.setDec { s.dec with tbl := DecTable.literals cfg, ready := true }

/-- `TblContains(ET, w)` (R101). -/
def tblContains (w : Word) (s : State) : Bool := s.enc.tbl.has w

/-- `TblLookupW(ET, w)` (R102). -/
def tblLookupW (w : Word) (s : State) : Res Nat :=
  match s.enc.tbl.get w with
  | some k => .ok k s
  | none => .raise (.decodeError (.word w)) s

/-- `TblLookupC(DT, k)` (R103). -/
def tblLookupC (k : Nat) (s : State) : Res Word :=
  if k < s.dec.tbl.next then
    match s.dec.tbl.get k with
    | some w => .ok w s
    | none => .raise (.decodeError (.code k)) s
  else .raise (.decodeError (.code k)) s

/-- `TblAddW(w)` (R104): the guards in the rule's order, then the update. -/
def tblAddW (cfg : Config) (w : Word) (s : State) : Res Unit :=
  if w = [] then .refuse .emptyWord
  else if s.enc.tbl.has w then .raise (.duplicateAdd w) s
  else if tableIsFull cfg s.enc.tbl.next then .raise (.tableFull s.enc.tbl.next) s
  else .ok () (s.setEnc { s.enc with tbl := s.enc.tbl.append w })

/-- `TblAddC(w)` (R105): the guards in the rule's order, then the update. -/
def tblAddC (cfg : Config) (w : Word) (s : State) : Res Unit :=
  if w = [] then .refuse .emptyWord
  else if tableIsFull cfg s.dec.tbl.next then .raise (.tableFull s.dec.tbl.next) s
  else .ok () (s.setDec { s.dec with tbl := s.dec.tbl.append w })

/-! ### Collaborator calls (R172, R173, R175, R176) -/

/-- The fate of the next call, and of the calls after it (assumption 17). -/
def nextAnswer : List CallAnswer → CallAnswer × List CallAnswer
  | [] => (.returns, [])
  | a :: rest => (a, rest)

/-- What the cursor answers (R172). -/
inductive ReadResult where
  | byte (c : Byte)
  | endOfStream
deriving DecidableEq, Repr

/-- `ReadByte()` for unit `u` (R172, R176). With no input open there is no cursor to ask (R178; assumption 23). -/
def callReadByte (u : UnitId) (s : State) : Res ReadResult :=
  if (s.port u).inOpen = false then .refuse (.notOpened u)
  else if (s.port u).ended then .refuse (.readAfterEnd u)
  else
    match nextAnswer (s.port u).reads with
    | (.blocks, _) => .stuck (.blocked u)
    | (.fails e, rest) => .raise (.ioError e) (s.setPort u { s.port u with reads := rest })
    | (.returns, rest) =>
      match (s.port u).input with
      | [] => .ok .endOfStream (s.setPort u { s.port u with reads := rest, ended := true })
      | c :: more => .ok (.byte c) (s.setPort u { s.port u with reads := rest, input := more })

/-- `WriteBytes(bs)` for unit `u` (R173, R176). -/
def callWriteBytes (u : UnitId) (bs : ByteSeq) (s : State) : Res Unit :=
  if bs = [] then .refuse .operandDomain
  else
    match nextAnswer (s.port u).writes with
    | (.blocks, _) => .stuck (.blocked u)
    | (.fails e, rest) => .raise (.ioError e) (s.setPort u { s.port u with writes := rest })
    | (.returns, rest) => .ok () (s.setPort u { s.port u with writes := rest, sent := (s.port u).sent ++ bs })

/-- What `ReadCode` answers (R175). -/
inductive CodeResult where
  | code (k : Nat)
  | endOfStream
  | short (n : Nat)
deriving DecidableEq, Repr

/-- The loop of `ReadCode` (R175), for `DEC`: `missing` bytes are still to be read, `f` are held. -/
def readField (cfg : Config) : Nat → ByteSeq → State → Res CodeResult
  | 0, f, s => .ok (.code (unpackField cfg f)) s
  | missing + 1, f, s =>
    (callReadByte .dec s).bind fun r s =>
      match r with
      | .endOfStream => if f = [] then .ok .endOfStream s else .ok (.short f.length) s
      | .byte c => readField cfg missing (f ++ [c]) s

/-- `ReadCode()` (R175). -/
def callReadCode (cfg : Config) (s : State) : Res CodeResult := readField cfg cfg.codeBytes [] s

/-- `emit_code(k)` (R125): `Pack`, then one `WriteBytes`. -/
def emitCode (cfg : Config) (k : Nat) (s : State) : Res Unit :=
  match packField cfg k with
  | none => .raise (.codeRange k) s
  | some bs =>
    (callWriteBytes .enc bs s).bind fun _ s => .ok () (s.setEnc { s.enc with codesOut := s.enc.codesOut + 1 })

/-- `emit_word(w)` (R149): one `WriteBytes`. -/
def emitWord (w : Word) (s : State) : Res Unit :=
  (callWriteBytes .dec w s).bind fun _ s => .ok () (s.setDec { s.dec with bytesOut := s.dec.bytesOut + w.length })

/-! ### Taking a fault, and the start that alone leaves it (R202, R204) -/

/-- The sink of a run that failed: what the run wrote is a free value (R203, U2, U3; assumption 3). -/
def Port.spoiled (p : Port) (n : Nat) : Port := { p with sent := Config.failedOutput n }

/-- `raise C in unit u` (R202): the fault register holds the cause, the phase is `FAULT`, every other register write of
the step is dropped (`s0` is the state before the step) and no output symbol is attached (R203). The host's side of the
streams stays as the step left it (`s`): a byte read is read. What the failed run wrote is a free value (assumptions 3,
12). -/
def enterFault (u : UnitId) (c : Cause) (s0 s : State) : State :=
  let t := (({ s0 with freeIdx := s.freeIdx + 1 } : State).setPort u ((s.port u).spoiled s.freeIdx)).setOutputs []
  match u with
  | .enc => t.setEnc { s0.enc with phase := .fault, fault := c }
  | .dec => t.setDec { s0.dec with phase := .fault, fault := c }

/-- How a step of unit `u` begun in `s0` ends. A raise takes the fault (R202) where the unit has a stream that it aborts;
the only way out of `IDLE`, `DONE` and `FAULT` is a start (R29, R130, R157, R204). -/
def finish (u : UnitId) (s0 : State) : Res (List Output) → Out
  | .ok o s => .next (s.setOutputs o)
  | .raise c s => if s0.streaming u then .next (enterFault u c s0 s) else .refused (.wrongPhase u)
  | .stuck f => .fault f
  | .refuse r => .refused r

/-- The host's side at the start of a stream: what the unit's earlier streams wrote stays in the sink (R120; assumption 16).
The cursor is not moved (R204), and nothing is closed (R174). -/
def Port.newOutput (p : Port) : Port := { p with past := p.past ++ p.sent, sent := [] }

/-- The host opens an input and an output (R178, R223): the cursor stands at the first byte of `bs`. -/
def openStream (u : UnitId) (bs : ByteSeq) (s : State) : State :=
  s.setPort u { s.port u with inOpen := true, outOpen := true, input := bs, ended := false }

/-- The host opens an output, and no input: it issues the symbols of the stream as events itself (D7; assumption 23). -/
def openOutput (u : UnitId) (s : State) : State := s.setPort u { s.port u with outOpen := true }

/-- The host closes the input and the output of a unit (R174, R225). What the sink holds stays the host's to read. -/
def closeStream (u : UnitId) (s : State) : State := s.setPort u { s.port u with inOpen := false, outOpen := false }

/-- `E.START` (R120), with the observational counters at 0 (R35). -/
def encBegin (cfg : Config) (s : State) : State :=
  let t := tblInitEnc cfg s
  (t.setEnc { t.enc with cur := [], fault := .none, phase := .run, bytesIn := 0, codesOut := 0 }).setPort .enc
    s.encPort.newOutput

/-- `D.START` (R140), with the observational counters at 0 (R35). `cw` and `la`, which R35 leaves unspecified after a start,
stay as they are (assumptions 1, 18). -/
def decBegin (cfg : Config) (s : State) : State :=
  let t := tblInitDec cfg s
  (t.setDec { t.dec with fault := .none, phase := .first, codesIn := 0, bytesOut := 0 }).setPort .dec
    s.decPort.newOutput

end Sys2Proof.Machine
end

