-- ==== Sys2Proof/Machine/Operands.lean ====
section
/-! DEFINITION. The operand forms of the operations: the domain an operand must lie in, a table or a stream that must be
there for an operation to act on, and the first byte of a word. There are no addressing modes (R33, R50). -/

namespace Sys2Proof.Machine

/-- A code operand of `D.CODE`: a value `Unpack` can give (R141; assumption 13). -/
def withWireCode (cfg : Config) (k : Nat) (r : Res (List Output)) : Res (List Output) :=
  if cfg.fits k then r else .refuse .operandDomain

/-- A direct table operation of `u` acts on an initialised table (R197: not in `IDLE`) of a unit that has not faulted: in
`FAULT` the table is unspecified and the unit executes nothing (R203, R204; assumption 10). -/
def withTable (u : UnitId) (s : State) (r : Res (List Output)) : Res (List Output) :=
  if s.faulted u then .refuse (.wrongPhase u)
  else if s.tableLive u && (match u with | .enc => s.enc.ready | .dec => s.dec.ready) then r
  else .refuse (.uninitialised u)

/-- `T.INIT` issued directly acts between streams: not in `IDLE`, where nothing but a start is accepted (R35, R221), not
within a stream, where the table is never cleared (R100, R222), not in `FAULT`, where the unit executes nothing (R204).
Within a start it is part of the start, in every phase (R120, R140). -/
def betweenStreams (u : UnitId) (s : State) (r : Res (List Output)) : Res (List Output) :=
  if s.tableLive u && !s.streaming u then r else .refuse (.wrongPhase u)

/-- A host primitive is called for a unit that has a stream in progress (R172, R181; assumption 11). -/
def withStream (u : UnitId) (s : State) (r : Res (List Output)) : Res (List Output) :=
  if s.streaming u then r else .refuse (.wrongPhase u)

/-- `w[0]` of a non-empty word (R9). -/
def firstByte (w : Word) (s : State) : Res Byte :=
  match w with
  | [] => .refuse .emptyWord
  | f :: _ => .ok f s

/-- The bytes of a word, in index order, as output symbols (R55). -/
def wordOutput (w : Word) : List Output := w.map .byte

end Sys2Proof.Machine
end

