-- ==== Sys2Proof/Machine/Flags.lean ====
section
/-! DEFINITION. The block has no flags (R32). The conditions its rules test, computed and used within one step: hit or
miss of a byte (R121), and the class of a code (R84, R85). -/

namespace Sys2Proof.Machine

/-- `HIT`: `cur ++ [c]` is in the encode table (R121). -/
def isHit (c : Byte) (s : State) : Bool := tblContains (s.enc.cur ++ [c]) s

/-- Classes of a code against a table whose next code is `next` (R84). -/
inductive CodeClass where
  | res   -- k < next: resolvable
  | kwk   -- k = next: self-referential
  | bad   -- k > next: unresolvable
deriving DecidableEq, Repr

/-- The class of `k` (R84): comparisons of natural numbers. -/
def codeClass (next k : Nat) : CodeClass :=
  if k < next then .res else if k = next then .kwk else .bad

/-- A literal code (R82): bits 31:8 all zero. -/
def isLiteral (cfg : Config) (k : Nat) : Bool := decide (k < cfg.alphabet)

/-- A code that is legal as the first of a stream (R85, R142): one that the table, fresh there, holds. -/
def firstLegal (k : Nat) (s : State) : Bool := decide (k < s.dec.tbl.next)

end Sys2Proof.Machine
end

