-- ==== Sys2Proof/Machine/Tables.lean ====
section
/-! DEFINITION. The symbol-table operations issued directly (R100 to R105, R205). Each returns its answer as output
symbols. -/

namespace Sys2Proof.Machine

/-- `T.INIT` (R100), issued directly between streams (assumption 10): no exceptions; the table it leaves does not depend
on any earlier state. -/
def execTInit (u : UnitId) (s : State) : Out :=
  finish u s (betweenStreams u s (.ok [] (match u with | .enc => tblInitEnc Config.hw s | .dec => tblInitDec Config.hw s)))

/-- `T.CONTAINS` (R101). -/
def execTContains (w : Word) (s : State) : Out :=
  finish .enc s (withTable .enc s (.ok [.flag (tblContains w s)] s))

/-- `T.LOOKUPW` (R102). -/
def execTLookupW (w : Word) (s : State) : Out :=
  finish .enc s (withTable .enc s ((tblLookupW w s).bind fun k s => .ok [.code k] s))

/-- `T.LOOKUPC` (R103). -/
def execTLookupC (k : Nat) (s : State) : Out :=
  finish .dec s (withTable .dec s ((tblLookupC k s).bind fun w s => .ok (wordOutput w) s))

/-- `T.ADDW` for any parameters (R104). -/
def addWFor (cfg : Config) (w : Word) (s : State) : Out :=
  finish .enc s (withTable .enc s ((tblAddW cfg w s).bind fun _ s => .ok [] s))

/-- `T.ADDC` for any parameters (R105). -/
def addCFor (cfg : Config) (w : Word) (s : State) : Out :=
  finish .dec s (withTable .dec s ((tblAddC cfg w s).bind fun _ s => .ok [] s))

/-- `T.ADDW` (R104). -/
def execTAddW (w : Word) (s : State) : Out := addWFor Config.hw w s

/-- `T.ADDC` (R105). -/
def execTAddC (w : Word) (s : State) : Out := addCFor Config.hw w s

end Sys2Proof.Machine
end

