-- ==== Sys2Proof/Machine/Encoder.lean ====
section
/-! DEFINITION. The encoder (41_encoder.md): `E.START`, `E.BYTE` with its two branches, `E.EOS`, for any parameters, and
the meanings with this hardware's. -/

namespace Sys2Proof.Machine

/-- A byte is consumed (`e_in`, R31). -/
def countByte (s : State) : State := s.setEnc { s.enc with bytesIn := s.enc.bytesIn + 1 }

/-- `HIT` (R122): `cur <- ext`, nothing else. -/
def encHit (c : Byte) (s : State) : Res (List Output) :=
  let t := countByte s
  .ok [] (t.setEnc { t.enc with cur := s.enc.cur ++ [c] })

/-- `MISS` (R123): look up `cur`, emit its code, add `ext`, `cur <- [c]`, in this order. -/
def encMiss (cfg : Config) (c : Byte) (s : State) : Res (List Output) :=
  (tblLookupW s.enc.cur (countByte s)).bind fun k s1 =>
  (emitCode cfg k s1).bind fun _ s2 =>
  (tblAddW cfg (s.enc.cur ++ [c]) s2).bind fun _ s3 =>
  .ok [.code k] (s3.setEnc { s3.enc with cur := [c] })

/-- An input event of `ENC` is accepted in phase `RUN` only (R131). -/
def encRunning (s : State) (r : Res (List Output)) : Res (List Output) :=
  if s.enc.phase = .run then r else .refuse (.wrongPhase .enc)

/-- `E.BYTE c` (R121). -/
def encByte (cfg : Config) (c : Byte) (s : State) : Res (List Output) :=
  encRunning s (if isHit c s then encHit c s else encMiss cfg c s)

/-- `E.EOS` (R124): the flush, then `DONE`. -/
def encEos (cfg : Config) (s : State) : Res (List Output) :=
  encRunning s <|
    if s.enc.cur = [] then .ok [] (s.setEnc { s.enc with phase := .done })
    else
      (tblLookupW s.enc.cur s).bind fun k s1 =>
      (emitCode cfg k s1).bind fun _ s2 =>
      .ok [.code k] (s2.setEnc { s2.enc with phase := .done })

/-- `E.START`, accepted in every phase (R120). -/
def encStart (cfg : Config) (s : State) : Res (List Output) := .ok [] (encBegin cfg s)

/-! Each event as a whole step of `ENC`, for any parameters. -/

def eStartStep (cfg : Config) (s : State) : Out := finish .enc s (encStart cfg s)

def eByteStep (cfg : Config) (c : Byte) (s : State) : Out := finish .enc s (encByte cfg c s)

def eEosStep (cfg : Config) (s : State) : Out := finish .enc s (encEos cfg s)

/-! The meanings. -/

/-- `E.START` (R120). -/
def execEStart (s : State) : Out := eStartStep Config.hw s

/-- `E.BYTE` (R121). -/
def execEByte (c : Byte) (s : State) : Out := eByteStep Config.hw c s

/-- The row `E.BYTE.HIT` (R122): the event `E.BYTE c` in a state that selects this sub-case (assumption 6). -/
def execEByteHit (c : Byte) (s : State) : Out :=
  finish .enc s (encRunning s (if isHit c s then encHit c s else .refuse .otherCase))

/-- The row `E.BYTE.MISS` (R123): the event `E.BYTE c` in a state that selects this sub-case (assumption 6). -/
def execEByteMiss (c : Byte) (s : State) : Out :=
  finish .enc s (encRunning s (if isHit c s then .refuse .otherCase else encMiss Config.hw c s))

/-- `E.EOS` (R124). -/
def execEEos (s : State) : Out := eEosStep Config.hw s

end Sys2Proof.Machine
end

