-- ==== Sys2Proof/Machine/Decoder.lean ====
section
/-! DEFINITION. The decoder (42_decoder.md): `D.START`, `D.CODE` with its cases, `D.EOS`, `D.SHORT`, for any parameters,
and the meanings with this hardware's. -/

namespace Sys2Proof.Machine

/-- A code is consumed (`d_in`, R31). -/
def countCode (s : State) : State := s.setDec { s.dec with codesIn := s.dec.codesIn + 1 }

/-- `D.CODE k` in `FIRST` (R142). -/
def decFirst (k : Nat) (s : State) : Res (List Output) :=
  if firstLegal k s then
    (tblLookupC k (countCode s)).bind fun w s1 => .ok [] (s1.setDec { s1.dec with cw := w, phase := .run })
  else .raise (.decodeError (.code k)) s

/-- Step 3b (R143 to R146): the first byte of the word the lookahead code stands for. -/
def lookaheadByte (la : Nat) (s : State) : Res Byte :=
  match codeClass s.dec.tbl.next la with
  | .res => (tblLookupC la s).bind fun law s1 => firstByte law s1
  | .kwk => firstByte s.dec.cw s
  | .bad => .raise (.decodeError (.code la)) s

/-- Steps 3b to 3d for the code held in `la` (R143). With nothing in `la` there is nothing to resolve. -/
def resolveLookahead (cfg : Config) (s : State) : Res Unit :=
  match s.dec.la with
  | none => .ok () s
  | some la =>
    (lookaheadByte la s).bind fun f s1 =>
    (tblAddC cfg (s.dec.cw ++ [f]) s1).bind fun _ s2 =>
    (tblLookupC la s2).bind fun w s3 => .ok () (s3.setDec { s3.dec with cw := w, la := none })

/-- What `la` holds once `k` has been read: at most `LOOKAHEAD` codes stand ahead of the one being resolved (R6, R28, R227). -/
def heldAhead (cfg : Config) (k : Nat) : Option Nat := if 0 < cfg.lookahead then some k else none

/-- `D.CODE k` in `RUN` (R143): `la <- k`, output `cw` (3a), then 3b to 3d. -/
def decRun (cfg : Config) (k : Nat) (s : State) : Res (List Output) :=
  let t := countCode s
  (emitWord s.dec.cw (t.setDec { t.dec with la := heldAhead cfg k })).bind fun _ s1 =>
  (resolveLookahead cfg s1).bind fun _ s2 => .ok (wordOutput s.dec.cw) s2

/-- An input event of `DEC` is accepted in `FIRST` and `RUN` only (R158); each phase has its rule. -/
def decAccept (s : State) (first run : Res (List Output)) : Res (List Output) :=
  match s.dec.phase with
  | .first => first
  | .run => run
  | .idle => .refuse (.wrongPhase .dec)
  | .done => .refuse (.wrongPhase .dec)
  | .fault => .refuse (.wrongPhase .dec)

/-- `D.CODE k` (R141). -/
def decCode (cfg : Config) (k : Nat) (s : State) : Res (List Output) :=
  withWireCode cfg k (decAccept s (decFirst k s) (decRun cfg k s))

/-- `D.EOS` (R147): the held-back last word, then `DONE`. The content of `cw` in `DONE` is unspecified (R27) and no rule
reads it; that it stays is the model's choice (assumption 24). -/
def decEos (s : State) : Res (List Output) :=
  decAccept s (.ok [] (s.setDec { s.dec with phase := .done }))
    ((emitWord s.dec.cw s).bind fun _ s1 => .ok (wordOutput s.dec.cw) (s1.setDec { s1.dec with phase := .done }))

/-- `D.SHORT n` (R148): exactly as `D.EOS`; the fragment is discarded. -/
def decShort (cfg : Config) (n : Nat) (s : State) : Res (List Output) :=
  if 1 ≤ n ∧ n < cfg.codeBytes then decEos s else .refuse .operandDomain

/-- `D.START`, accepted in every phase (R140). -/
def decStart (cfg : Config) (s : State) : Res (List Output) := .ok [] (decBegin cfg s)

/-- A sub-case row of `D.CODE` in `RUN`: the event `D.CODE k` in a state that selects class `cl` (assumption 6). -/
def decRunCase (cfg : Config) (cl : CodeClass) (k : Nat) (s : State) : Res (List Output) :=
  withWireCode cfg k <|
    decAccept s (.refuse .otherCase)
      (if codeClass s.dec.tbl.next k = cl then decRun cfg k s else .refuse .otherCase)

/-! Each event as a whole step of `DEC`, for any parameters. -/

def dStartStep (cfg : Config) (s : State) : Out := finish .dec s (decStart cfg s)

def dCodeStep (cfg : Config) (k : Nat) (s : State) : Out := finish .dec s (decCode cfg k s)

def dEosStep (s : State) : Out := finish .dec s (decEos s)

def dShortStep (cfg : Config) (n : Nat) (s : State) : Out := finish .dec s (decShort cfg n s)

/-! The meanings. -/

/-- `D.START` (R140). -/
def execDStart (s : State) : Out := dStartStep Config.hw s

/-- `D.CODE` (R141). -/
def execDCode (k : Nat) (s : State) : Out := dCodeStep Config.hw k s

/-- The row `D.CODE.FIRST` (R142): the event `D.CODE k` in phase `FIRST` (assumption 6). -/
def execDCodeFirst (k : Nat) (s : State) : Out :=
  finish .dec s (withWireCode Config.hw k (decAccept s (decFirst k s) (.refuse .otherCase)))

/-- The row `D.CODE.RES` (R144). -/
def execDCodeRes (k : Nat) (s : State) : Out := finish .dec s (decRunCase Config.hw .res k s)

/-- The row `D.CODE.KWK` (R145). -/
def execDCodeKwk (k : Nat) (s : State) : Out := finish .dec s (decRunCase Config.hw .kwk k s)

/-- The row `D.CODE.BAD` (R146): takes the fault `DecodeError`. -/
def execDCodeBad (k : Nat) (s : State) : Out := finish .dec s (decRunCase Config.hw .bad k s)

/-- `D.EOS` (R147). -/
def execDEos (s : State) : Out := dEosStep s

/-- `D.SHORT` (R148). -/
def execDShort (n : Nat) (s : State) : Out := dShortStep Config.hw n s

end Sys2Proof.Machine
end

