-- ==== Sys2Proof/Machine/Codec.lean ====
section
/-! DEFINITION. The token codec and the host primitives issued directly (R170 to R176). -/

namespace Sys2Proof.Machine

/-- `PACK` for any parameters (R170). `CodeRange` is a fault of `ENC`, the unit that packs (R194; assumption 7); outside
`RUN`, where `ENC` can take none (R29, R130), it is refused. -/
def packFor (cfg : Config) (k : Nat) (s : State) : Out :=
  finish .enc s (match packField cfg k with | some bs => .ok (wordOutput bs) s | none => .raise (.codeRange k) s)

/-- `UNPACK` for any parameters (R171). -/
def unpackFor (cfg : Config) (f : ByteSeq) (s : State) : Out :=
  finish .dec s (if f.length = cfg.codeBytes then .ok [.code (unpackField cfg f)] s else .refuse .fieldLength)

/-- `READCODE` for any parameters (R175). -/
def readCodeFor (cfg : Config) (s : State) : Out :=
  finish .dec s <| withStream .dec s <| (callReadCode cfg s).bind fun r s1 =>
    match r with
    | .code k => .ok [.code k] s1
    | .endOfStream => .ok [.endOfStream] s1
    | .short n => .ok [.short n] s1

/-- `PACK` (R170). -/
def execPack (k : Nat) (s : State) : Out := packFor Config.hw k s

/-- `UNPACK` (R171). -/
def execUnpack (f : ByteSeq) (s : State) : Out := unpackFor Config.hw f s

/-- `READBYTE` (R172). -/
def execReadByte (u : UnitId) (s : State) : Out :=
  finish u s <| withStream u s <| (callReadByte u s).bind fun r s1 =>
    match r with
    | .byte c => .ok [.byte c] s1
    | .endOfStream => .ok [.endOfStream] s1

/-- `WRITEBYTES` (R173). -/
def execWriteBytes (u : UnitId) (bs : ByteSeq) (s : State) : Out :=
  finish u s (withStream u s ((callWriteBytes u bs s).bind fun _ s1 => .ok [.success] s1))

/-- `READCODE` (R175). -/
def execReadCode (s : State) : Out := readCodeFor Config.hw s

end Sys2Proof.Machine
end

