-- ==== Sys2Proof/Machine/Streams.lean ====
section
/-! DEFINITION. A unit driven by its cursor (R126, R150, R175), and the composite operations (R91), each the steps of its
expansion run one after the other up to the first fault (assumption 20). -/

namespace Sys2Proof.Machine

/-! ### The next input event of a unit, from its cursor -/

/-- The event `ENC` takes from its cursor (R126): a byte decodes to `E.BYTE`, `EndOfStream` is `E.EOS`. -/
def fetchEnc (cfg : Config) (s : State) : Res Instr :=
  (callReadByte .enc s).bind fun r s1 =>
    match r with
    | .endOfStream => .ok .eEos s1
    | .byte c =>
      match decodeFor cfg .byte8 [c] with
      | .ok i => .ok i s1
      | .error _ => .refuse .fieldLength

/-- The event `DEC` takes from its cursor (R150, R175): a code is `D.CODE`, `EndOfStream` is `D.EOS`, a short fragment is
`D.SHORT`. -/
def fetchDec (cfg : Config) (s : State) : Res Instr :=
  (callReadCode cfg s).bind fun r s1 =>
    match r with
    | .code k => .ok (.dCode k) s1
    | .endOfStream => .ok .dEos s1
    | .short n => .ok (.dShort n) s1

/-- The next input event of `u`, read only while `u` has a stream in progress (R172). -/
def fetch (cfg : Config) (u : UnitId) (s : State) : Res Instr :=
  if s.streaming u then (match u with | .enc => fetchEnc cfg s | .dec => fetchDec cfg s)
  else .refuse (.wrongPhase u)

/-! ### Composites -/

/-- Run `steps` in order, collecting their output symbols, up to the first fault of `u` (R126, R150). -/
def runSteps (u : UnitId) : List (State → Out) → List Output → State → Out
  | [], acc, s => .next (s.setOutputs acc)
  | f :: rest, acc, s =>
    match f s with
    | .next t => if t.faulted u then .next t else runSteps u rest (acc ++ t.outputs) t
    | .fault r => .fault r
    | .refused r => .refused r

/-- `E.START; E.BYTE b[0]; ...; E.EOS` (R91). -/
def compressSteps (cfg : Config) (b : ByteSeq) : List (State → Out) :=
  eStartStep cfg :: (b.map (eByteStep cfg) ++ [eEosStep cfg])

/-- `D.START; D.CODE ks[0]; ...; D.EOS` (R91). -/
def decompressSteps (cfg : Config) (ks : CodeSeq) : List (State → Out) :=
  dStartStep cfg :: (ks.map (dCodeStep cfg) ++ [dEosStep])

/-- `COMPRESS` for any parameters (R126): the codes emitted, in order. -/
def compressFor (cfg : Config) (b : ByteSeq) (s : State) : Out := runSteps .enc (compressSteps cfg b) [] s

/-- `DECOMPRESS` for any parameters (R150): the concatenation of the words emitted, or the fault. -/
def decompressFor (cfg : Config) (ks : CodeSeq) (s : State) : Out := runSteps .dec (decompressSteps cfg ks) [] s

/-- The fields of the codes among output symbols, concatenated (R88, R177). -/
def packOutputs (cfg : Config) : List Output → List Output
  | [] => []
  | .code k :: rest => wordOutput (cfg.ordered (lanes cfg.codeBytes k)) ++ packOutputs cfg rest
  | o :: rest => o :: packOutputs cfg rest

/-- `COMPRESSBYTES` for any parameters (R177): `COMPRESS` with every emitted code passed through `Pack`. -/
def compressBytesFor (cfg : Config) (b : ByteSeq) (s : State) : Out :=
  match compressFor cfg b s with
  | .next t => if t.faulted .enc then .next t else .next (t.setOutputs (packOutputs cfg t.outputs))
  | .fault r => .fault r
  | .refused r => .refused r

/-- The event a cursor-driven `DEC` takes, as a whole step. -/
def dEventStep (cfg : Config) (i : Instr) (s : State) : Out :=
  match i with
  | .dCode k => dCodeStep cfg k s
  | .dShort n => dShortStep cfg n s
  | _ => dEosStep s

/-- One cursor-driven step of `DEC`: `ReadCode`, then the event it gives (R150); a failed read is a fault of the step
(R176, R201). -/
def pumpDec (cfg : Config) (s : State) : Out :=
  match fetchDec cfg s with
  | .ok i s1 => dEventStep cfg i s1
  | .raise c s1 => .next (enterFault .dec c s s1)
  | .stuck f => .fault f
  | .refuse r => .refused r

/-- Cursor-driven steps of `DEC` until the phase is `DONE` or `FAULT`. The first argument bounds their number: a step
that does not end the stream reads `W ≥ 1` bytes, so the number of input bytes plus one is never reached. -/
def pumpDecAll (cfg : Config) : Nat → List Output → State → Out
  | 0, acc, s => .next (s.setOutputs acc)
  | n + 1, acc, s =>
    match pumpDec cfg s with
    | .next t =>
      if t.faulted .dec then .next t
      else if t.dec.phase = .done then .next (t.setOutputs (acc ++ t.outputs))
      else pumpDecAll cfg n (acc ++ t.outputs) t
    | .fault r => .fault r
    | .refused r => .refused r

/-- `DECOMPRESSBYTES` for any parameters (R91, R177): the input is `bs`; `D.START`, then `READCODE` repeatedly. -/
def decompressBytesFor (cfg : Config) (bs : ByteSeq) (s : State) : Out :=
  pumpDecAll cfg (bs.length + 1) [] ((decBegin cfg (openStream .dec bs s)).setOutputs [])

/-- `COMPRESS` (R126). -/
def execCompress (b : ByteSeq) (s : State) : Out := compressFor Config.hw b s

/-- `DECOMPRESS` (R150). -/
def execDecompress (ks : CodeSeq) (s : State) : Out := decompressFor Config.hw ks s

/-- `DECOMPRESSBYTES` (R177). -/
def execDecompressBytes (bs : ByteSeq) (s : State) : Out := decompressBytesFor Config.hw bs s

/-- `COMPRESSBYTES` (R177). -/
def execCompressBytes (b : ByteSeq) (s : State) : Out := compressBytesFor Config.hw b s

end Sys2Proof.Machine
end

