-- ==== Sys2Proof/Machine/Dispatch.lean ====
section
/-! DEFINITION. One arm per operation of spec/opcode_table.json. -/

namespace Sys2Proof.Machine

def exec (i : Instr) (s : State) : Host.Outcome State Fault Refusal :=
  match i with
  | .tInit u => Sys2Proof.Machine.execTInit u s
  | .tContains w => Sys2Proof.Machine.execTContains w s
  | .tLookupW w => Sys2Proof.Machine.execTLookupW w s
  | .tLookupC k => Sys2Proof.Machine.execTLookupC k s
  | .tAddW w => Sys2Proof.Machine.execTAddW w s
  | .tAddC w => Sys2Proof.Machine.execTAddC w s
  | .eStart => Sys2Proof.Machine.execEStart s
  | .eByte c => Sys2Proof.Machine.execEByte c s
  | .eByteHit c => Sys2Proof.Machine.execEByteHit c s
  | .eByteMiss c => Sys2Proof.Machine.execEByteMiss c s
  | .eEos => Sys2Proof.Machine.execEEos s
  | .dStart => Sys2Proof.Machine.execDStart s
  | .dCode k => Sys2Proof.Machine.execDCode k s
  | .dCodeFirst k => Sys2Proof.Machine.execDCodeFirst k s
  | .dCodeRes k => Sys2Proof.Machine.execDCodeRes k s
  | .dCodeKwk k => Sys2Proof.Machine.execDCodeKwk k s
  | .dCodeBad k => Sys2Proof.Machine.execDCodeBad k s
  | .dEos => Sys2Proof.Machine.execDEos s
  | .dShort n => Sys2Proof.Machine.execDShort n s
  | .pack k => Sys2Proof.Machine.execPack k s
  | .unpack f => Sys2Proof.Machine.execUnpack f s
  | .readByte u => Sys2Proof.Machine.execReadByte u s
  | .writeBytes u bs => Sys2Proof.Machine.execWriteBytes u bs s
  | .readCode => Sys2Proof.Machine.execReadCode s
  | .compress b => Sys2Proof.Machine.execCompress b s
  | .decompress ks => Sys2Proof.Machine.execDecompress ks s
  | .decompressBytes bs => Sys2Proof.Machine.execDecompressBytes bs s
  | .compressBytes b => Sys2Proof.Machine.execCompressBytes b s

end Sys2Proof.Machine
end

