-- ==== Sys2Proof/Machine/Step.lean ====
section
/-! DEFINITION. One step of the machine: the host's next move, or, when it makes none, the next input symbol of a unit
whose stream is in progress (R7, R29, R178). -/

namespace Sys2Proof.Machine

/-- `u` takes its next input event and runs it. A failed read is a fault of the step that read (R176), before the event
exists (R201). -/
def pollStep (u : UnitId) (s : State) : Host.Outcome State Fault Refusal :=
  match fetch Config.hw u s with
  | .ok i s1 => exec i s1
  | .raise c s1 => .next (enterFault u c s s1)
  | .stuck f => .fault f
  | .refuse r => .refused r

/-- The host opens an input and an output for `u` and issues its start (R178). -/
def startStep (u : UnitId) (bs : ByteSeq) (s : State) : Host.Outcome State Fault Refusal :=
  match u with
  | .enc => exec .eStart (openStream .enc bs s)
  | .dec => exec .dStart (openStream .dec bs s)

/-- In the stream in progress of `u` the host may issue no symbol: they come from the cursor ("feed one unit from two streams
at once", R178), or no output is open, and only when it is may the host supply symbols (R223). -/
def State.closedToEvents (s : State) (u : UnitId) : Bool := s.streaming u && ((s.port u).inOpen || !(s.port u).outOpen)

/-- The unit whose stream an operation that the host issues would disturb, in the ways R178 assumes the host never does:
it touches the table or the registers of a unit during a stream, it feeds a stream from a second source, reports its end
before its input runs out, or supplies symbols before the output is open (R223), it takes symbols from under the unit (R224),
or it writes to the sink between two writes of the block. A start, and a composite, which begins with one, abandons the
stream and disturbs nothing (R174). -/
def disturbs (s : State) : Instr → Option UnitId
  | .tInit u => if s.streaming u then some u else none
  | .tContains _ => if s.streaming .enc then some .enc else none
  | .tLookupW _ => if s.streaming .enc then some .enc else none
  | .tLookupC _ => if s.streaming .dec then some .dec else none
  | .tAddW _ => if s.streaming .enc then some .enc else none
  | .tAddC _ => if s.streaming .dec then some .dec else none
  | .eStart => none
  | .eByte _ => if s.closedToEvents .enc then some .enc else none
  | .eByteHit _ => if s.closedToEvents .enc then some .enc else none
  | .eByteMiss _ => if s.closedToEvents .enc then some .enc else none
  | .eEos => if s.closedToEvents .enc then some .enc else none
  | .dStart => none
  | .dCode _ => if s.closedToEvents .dec then some .dec else none
  | .dCodeFirst _ => if s.closedToEvents .dec then some .dec else none
  | .dCodeRes _ => if s.closedToEvents .dec then some .dec else none
  | .dCodeKwk _ => if s.closedToEvents .dec then some .dec else none
  | .dCodeBad _ => if s.closedToEvents .dec then some .dec else none
  | .dEos => if s.closedToEvents .dec then some .dec else none
  | .dShort _ => if s.closedToEvents .dec then some .dec else none
  | .pack k => if s.streaming .enc && !Config.hw.fits k then some .enc else none
  | .unpack _ => none
  | .readByte u => if s.fed u then some u else none
  | .writeBytes u _ => if s.streaming u then some u else none
  | .readCode => if s.fed .dec then some .dec else none
  | .compress _ => none
  | .decompress _ => none
  | .decompressBytes _ => none
  | .compressBytes _ => none

/-- The host issues an operation. A model gives the host no move that R178 excludes: such a step is refused
(assumption 21). -/
def issueStep (i : Instr) (s : State) : Host.Outcome State Fault Refusal :=
  match disturbs s i with
  | some u => .refused (.hostContract u)
  | none => exec i s

/-- The host opens or closes resources of `u` (R7, R174): before a stream and after it (R223, R225), never within one. -/
def resourceStep (u : UnitId) (f : State → State) (s : State) : Host.Outcome State Fault Refusal :=
  if s.streaming u then .refused (.hostContract u) else .next ((f s).setOutputs [])

/-- One step. Between the two units no order is observable (R62); with no move left the units whose streams are read from
a cursor go on, `ENC` first (assumption 4). -/
def step (s : State) : Host.Outcome State Fault Refusal :=
  match s.moves with
  | .issue i :: rest => issueStep i (s.setMoves rest)
  | .openStream u bs :: rest => resourceStep u (openStream u bs) (s.setMoves rest)
  | .openOutput u :: rest => resourceStep u (openOutput u) (s.setMoves rest)
  | .startStream u bs :: rest => startStep u bs (s.setMoves rest)
  | .poll u :: rest => pollStep u (s.setMoves rest)
  | .close u :: rest => resourceStep u (closeStream u) (s.setMoves rest)
  | [] =>
    if s.fed .enc then pollStep .enc s
    else if s.fed .dec then pollStep .dec s
    else .refused .noEvent

/-- `s` with a stream of `u` in progress: as it is where one is, else after the start. -/
def State.started (s : State) (u : UnitId) : State :=
  if s.streaming u then s
  else match u with
    | .enc => encBegin Config.hw s
    | .dec => decBegin Config.hw s

/-- `s` with the field of `nbits` bits `w` at the cursor of the unit that reads fields of that length, a stream of that
unit in progress that is read from its cursor (a unit reads it in no other phase, R172), the reads returning, and that
unit's read the host's next move (assumption 4). -/
def State.withFetchWord (s : State) (nbits w : Nat) : State :=
  match tableWordBytes nbits w with
  | some (.byte8, bs) =>
    let t := s.started .enc
    (t.setPort .enc { t.encPort with inOpen := true, outOpen := true, input := bs, ended := false, reads := [] }).setMoves (.poll .enc :: s.moves)
  | some (.code, bs) =>
    let t := s.started .dec
    (t.setPort .dec { t.decPort with inOpen := true, outOpen := true, input := bs, ended := false, reads := [] }).setMoves (.poll .dec :: s.moves)
  | _ => s

end Sys2Proof.Machine
end

