-- ==== Sys2Proof/Safety.lean ====
section
/-! DEFINITION. What claims are stated in: what a run shows (R41), the invariants of the two units (R36, R37), and the
premises about the host (R178). -/

namespace Sys2Proof.Machine

/-! ### What a run shows -/

/-- The observation of a run of one unit (R41): nothing before it is over, on `DONE` the concatenation of what it wrote,
on `FAULT` the cause alone. -/
inductive Observation where
  | notOver
  | finished (out : ByteSeq)
  | failed (c : Cause)
deriving DecidableEq, Repr

/-- What unit `u` shows (R41, R180). -/
def observe (s : State) : UnitId → Observation
  | .enc =>
    match s.enc.phase with
    | .done => .finished s.encPort.sent
    | .fault => .failed s.enc.fault
    | .idle => .notOver
    | .run => .notOver
  | .dec =>
    match s.dec.phase with
    | .done => .finished s.decPort.sent
    | .fault => .failed s.dec.fault
    | .idle => .notOver
    | .first => .notOver
    | .run => .notOver

/-! ### Invariants of the tables and the units -/

/-- `ET` as R36 items 1 to 3 and 5 say it is. -/
structure EncTable.Sound (t : EncTable) : Prop where
  /-- The codes are exactly `0 .. e_next - 1`, in rising order: `|ET| = e_next`, and no two words share a code. -/
  codes : t.entries.map (·.2) = List.range t.next
  /-- The first 256 rows are the preloaded ones. -/
  literals : t.entries.take Config.hw.alphabet = (EncTable.literals Config.hw).entries
  /-- Every other word has length at least 2. -/
  longer : ∀ e ∈ t.entries.drop Config.hw.alphabet, 2 ≤ e.1.length
  /-- No word has two codes. -/
  keys : (t.entries.map (·.1)).Nodup
  /-- If `w ++ [c]` is in `ET` then `w` is, or `w` is empty. -/
  closed : ∀ w c, t.has (w ++ [c]) = true → w = [] ∨ t.has w = true

/-- `DT` as R37 items 1, 2 and 5 say it is. -/
structure DecTable.Sound (t : DecTable) : Prop where
  /-- The domain is exactly `0 .. d_next - 1`. -/
  codes : t.entries.map (·.1) = List.range t.next
  /-- The first 256 rows are the preloaded ones. -/
  literals : t.entries.take Config.hw.alphabet = (DecTable.literals Config.hw).entries
  /-- Every other word is a present, older word and one byte. -/
  extends_ : ∀ e ∈ t.entries.drop Config.hw.alphabet, ∃ q w f, q < e.1 ∧ t.get q = some w ∧ w ≠ [] ∧ e.2 = w ++ [f]

/-- The invariant of `ENC` (R36, R128), with the number of codes it emitted (R31) and the width of what it wrote (R57). -/
structure EncInv (s : State) : Prop where
  table : s.tableLive .enc = true → s.enc.ready = true ∧ s.enc.tbl.Sound
  cur : s.enc.phase = .run → s.enc.cur = [] ∨ s.enc.tbl.has s.enc.cur = true
  fresh : s.enc.phase = .run → (s.enc.cur = [] ↔ s.enc.bytesIn = 0)
  sink : s.tableLive .enc = true → s.encPort.sent.length = Config.hw.codeBytes * s.enc.codesOut
  /-- One addition per code emitted: the `j`-th miss, which emits code number `j`, adds the entry of code `255 + j` (R36
  item 6, R38 (c)). -/
  count : s.enc.phase = .run → s.enc.tbl.next = 256 + s.enc.codesOut
  /-- The flush emits one code more and adds nothing; an empty stream has neither (R31). -/
  flushed : s.enc.phase = .done → s.enc.tbl.next = 256 + (s.enc.codesOut - 1)
  empty : s.enc.phase = .run → s.enc.cur = [] → s.enc.codesOut = 0

/-- The invariant of `DEC` (R37), with the number of bytes it wrote, and `la` holding nothing between steps (R28). -/
structure DecInv (s : State) : Prop where
  table : s.tableLive .dec = true → s.dec.ready = true ∧ s.dec.tbl.Sound
  count : s.tableLive .dec = true → s.dec.tbl.next = 256 + (s.dec.codesIn - 1)
  first : s.dec.phase = .first → s.dec.codesIn = 0
  run : s.dec.phase = .run → 1 ≤ s.dec.codesIn ∧ s.dec.cw ≠ [] ∧ ∃ p, s.dec.tbl.get p = some s.dec.cw
  la : s.dec.la = none
  sink : s.tableLive .dec = true → s.decPort.sent.length = s.dec.bytesOut

/-! ### Premises about the host -/

/-- A move that R178 does not exclude and that replaces the table a finished stream left: a direct user of the table writes
it in `DONE`, before the next start (R39, R205). Moves that write it during a stream are refused by `step` (`disturbs`). -/
def HostMove.rewritesResult (s : State) : HostMove → Bool
  | .issue (.tInit .enc) => decide (s.enc.phase = .done)
  | .issue (.tInit .dec) => decide (s.dec.phase = .done)
  | .issue (.tAddW _) => decide (s.enc.phase = .done)
  | .issue (.tAddC _) => decide (s.dec.phase = .done)
  | _ => false

/-- The host's next move leaves the tables of finished streams as they are (assumption 21). -/
def State.resultsStand (s : State) : Bool :=
  match s.moves with
  | [] => true
  | m :: _ => !m.rewritesResult s

/-- No collaborator call of `u` fails or blocks (R176: a premise of every claim that a stream reaches `DONE`). -/
def State.noFailures (s : State) (u : UnitId) : Bool :=
  decide ((s.port u).reads = []) && decide ((s.port u).writes = [])

end Sys2Proof.Machine
end

