-- ==== Sys2Proof/Certificates/Slice0/Obligations.lean ====
section
/-! DEFINITION. The statements about the model, and the reference functions they are stated with. Each docstring names the
rule of spec/ the statement follows; a clause that rests on a choice of the model names its log entry. -/

namespace Sys2Proof.Machine

/-! ### Reference functions and shorthands

Written from the spec's closed forms, apart from the machine's own definitions. -/

/-- The four bytes of a code, least significant first (R83, `BYTE_ORDER = LE`, `W = 4`). -/
def leBytes (k : Nat) : ByteSeq :=
  [BitVec.ofNat 8 k, BitVec.ofNat 8 (k / 256), BitVec.ofNat 8 (k / 65536), BitVec.ofNat 8 (k / 16777216)]

/-- The code of four bytes (R83, `BYTE_ORDER = LE`, `W = 4`). -/
def leCode (f0 f1 f2 f3 : Byte) : Nat := f0.toNat + 256 * f1.toNat + 65536 * f2.toNat + 16777216 * f3.toNat

/-- `t` is `s` after unit `ENC` took fault `c` (R202): its fault register and phase, and nothing else of either unit; no
output symbol (R203), and nothing said of what the failed run wrote. -/
def EncFaulted (c : Cause) (s t : State) : Prop :=
  t.enc = { s.enc with phase := .fault, fault := c } ∧ t.dec = s.dec ∧ t.decPort = s.decPort ∧ t.moves = s.moves ∧
  t.outputs = [] ∧ t.encPort.past = s.encPort.past

/-- `t` is `s` after unit `DEC` took fault `c` (R202). -/
def DecFaulted (c : Cause) (s t : State) : Prop :=
  t.dec = { s.dec with phase := .fault, fault := c } ∧ t.enc = s.enc ∧ t.encPort = s.encPort ∧ t.moves = s.moves ∧
  t.outputs = [] ∧ t.decPort.past = s.decPort.past

/-- The port of a unit after a write of `bs` that succeeded (R173): the bytes stand at the end of the sink. -/
def Port.wrote (p : Port) (bs : ByteSeq) : Port :=
  { p with writes := (nextAnswer p.writes).2, sent := p.sent ++ bs }

/-- The collaborator will let the next write of this port succeed. -/
def Port.writeReturns (p : Port) : Prop := (nextAnswer p.writes).1 = .returns

/-- The operations of unit `ENC` (opcode table, "unit"; assumption 5 for the rest). -/
def isEncOp : Instr → Bool
  | .tInit .enc => true
  | .tContains _ => true
  | .tLookupW _ => true
  | .tAddW _ => true
  | .eStart => true
  | .eByte _ => true
  | .eByteHit _ => true
  | .eByteMiss _ => true
  | .eEos => true
  | .pack _ => true
  | .readByte .enc => true
  | .writeBytes .enc _ => true
  | .compress _ => true
  | .compressBytes _ => true
  | _ => false

/-- The operations of unit `DEC`. -/
def isDecOp : Instr → Bool
  | .tInit .dec => true
  | .tLookupC _ => true
  | .tAddC _ => true
  | .dStart => true
  | .dCode _ => true
  | .dCodeFirst _ => true
  | .dCodeRes _ => true
  | .dCodeKwk _ => true
  | .dCodeBad _ => true
  | .dEos => true
  | .dShort _ => true
  | .unpack _ => true
  | .readByte .dec => true
  | .writeBytes .dec _ => true
  | .readCode => true
  | .decompress _ => true
  | .decompressBytes _ => true
  | _ => false

/-- The operations that initialise a table: `T.INIT`, the starts, and the composites that begin with one (R100). -/
def initialisesATable : Instr → Bool
  | .tInit _ => true
  | .eStart => true
  | .dStart => true
  | .compress _ => true
  | .compressBytes _ => true
  | .decompress _ => true
  | .decompressBytes _ => true
  | _ => false

/-- The state after the operations of a list, one step each; none where one of them has no next state. -/
def after : List Instr → State → Option State
  | [], s => some s
  | i :: is, s =>
    match exec i s with
    | .next t => after is t
    | _ => none

/-- Length of the longest sequence of first bytes of `b` that is a word of the table, among those of length at most `n`. -/
def longestKnown (t : EncTable) (b : ByteSeq) : Nat → Nat
  | 0 => 0
  | n + 1 => if n + 1 ≤ b.length ∧ t.has (b.take (n + 1)) = true then n + 1 else longestKnown t b n

/-- The closed form of the encoder (R126): cut off the longest known phrase, emit its code, and, if input remains, add the
phrase and its next byte. The first argument bounds the number of phrases. -/
def greedyParse : Nat → EncTable → ByteSeq → CodeSeq × EncTable
  | 0, t, _ => ([], t)
  | n + 1, t, b =>
    let m := longestKnown t b b.length
    match t.get (b.take m) with
    | none => ([], t)
    | some k =>
      if b.length = m then ([k], t)
      else
        let rest := greedyParse n (t.append (b.take (m + 1))) (b.drop m)
        (k :: rest.1, rest.2)

/-- The previous-token decoder (R152): the table, the previous word (none before the first code) and the output so far.
It ends in its table and output, or in the code it could not resolve. -/
def previousToken : DecTable → Option Word → ByteSeq → CodeSeq → Except Nat (DecTable × ByteSeq)
  | t, _, out, [] => .ok (t, out)
  | t, none, out, k :: ks =>
    if k < t.next then
      match t.get k with
      | some w => previousToken t (some w) (out ++ w) ks
      | none => .error k
    else .error k
  | t, some prev, out, k :: ks =>
    let w :=
      if k < t.next then t.get k
      else if k = t.next then some (prev ++ prev.take 1)
      else none
    match w with
    | some w => previousToken (t.append (prev ++ w.take 1)) (some w) (out ++ w) ks
    | none => .error k

/-- The codes of a byte stream (R175): field `n` is bytes `4n .. 4n + 3`; a short fragment is no field. -/
def framedCodes : ByteSeq → CodeSeq
  | f0 :: f1 :: f2 :: f3 :: rest => leCode f0 f1 f2 f3 :: framedCodes rest
  | _ => []

end Sys2Proof.Machine

open Sys2Proof Sys2Proof.Machine

/-! ### Symbol-table operations -/

/-- R100: issued between streams (phase `DONE`), `T.INIT` leaves exactly the 256 entries between the one-byte words and their
values, and the counter at 256, whatever the table held; nothing else changes. In `IDLE` (R35, R221), within a stream
(R100, R222) and in `FAULT` (R204) it is refused. That it may be issued by itself at all, and then only in `DONE`, is the
model's reading (assumption 10); that a start does the same in every phase is said of the starts. -/
def Obligations.TInitLeavesExactlyTheSingletons : Prop :=
  ∀ s : State,
    (s.enc.phase = .done → ∃ t, exec (.tInit .enc) s = .next t ∧
      (∀ w k, t.enc.tbl.get w = some k ↔ ∃ b : Byte, w = [b] ∧ k = b.toNat) ∧
      t.enc.tbl.entries.length = 256 ∧ t.enc.tbl.next = 256 ∧
      t = { s with enc := { s.enc with tbl := t.enc.tbl, ready := true }, outputs := [] }) ∧
    (s.dec.phase = .done → ∃ t, exec (.tInit .dec) s = .next t ∧
      (∀ k w, t.dec.tbl.get k = some w ↔ ∃ b : Byte, w = [b] ∧ k = b.toNat) ∧
      t.dec.tbl.entries.length = 256 ∧ t.dec.tbl.next = 256 ∧
      t = { s with dec := { s.dec with tbl := t.dec.tbl, ready := true }, outputs := [] }) ∧
    (s.enc.phase ≠ .done → exec (.tInit .enc) s = .refused (.wrongPhase .enc)) ∧
    (s.dec.phase ≠ .done → exec (.tInit .dec) s = .refused (.wrongPhase .dec))

/-- R101: `T.CONTAINS w` answers whether `w` has a code and writes nothing; never for the empty word, always for a
one-byte word, in a table of the kind R36 says. That a directly issued table operation is accepted in `FIRST`, `RUN` and
`DONE`, here and in the statements below, is the model's reading (assumption 10), as is that one that raises in `DONE`, where no fault can be taken (R29, R130, R157), is refused. -/
def Obligations.TContainsAnswersPresence : Prop :=
  ∀ (s : State) (w : Word), s.enc.ready = true → s.tableLive .enc = true →
    ∃ b, exec (.tContains w) s = .next { s with outputs := [.flag b] } ∧
      (b = true ↔ ∃ k, (w, k) ∈ s.enc.tbl.entries) ∧
      (s.enc.tbl.Sound → (w = [] → b = false) ∧ (w.length = 1 → b = true))

/-- R102: `T.LOOKUPW w` answers the code of a present word and writes nothing; for an absent word it raises the lookup
error, recording the word; in `DONE`, which only a start leaves (R29, R130), it is then refused (accepted phases:
assumption 10). -/
def Obligations.TLookupWAnswersTheCodeOrFaults : Prop :=
  ∀ (s : State) (w : Word), s.enc.tbl.wf → s.enc.ready = true → s.tableLive .enc = true →
    (∀ k, (w, k) ∈ s.enc.tbl.entries → exec (.tLookupW w) s = .next { s with outputs := [.code k] }) ∧
    ((∀ k, (w, k) ∉ s.enc.tbl.entries) →
      (s.enc.phase = .run → ∃ t, exec (.tLookupW w) s = .next t ∧ EncFaulted (.decodeError (.word w)) s t) ∧
      (s.enc.phase = .done → exec (.tLookupW w) s = .refused (.wrongPhase .enc)))

/-- R103: `T.LOOKUPC k` answers the word of a present code and writes nothing; at or above the counter it raises the
lookup error, recording the code; in `DONE`, which only a start leaves (R29, R157), it is then refused (accepted phases:
assumption 10). -/
def Obligations.TLookupCAnswersTheWordOrFaults : Prop :=
  ∀ (s : State) (k : Nat), s.dec.tbl.wf → s.dec.ready = true → s.tableLive .dec = true →
    (∀ w, (k, w) ∈ s.dec.tbl.entries → exec (.tLookupC k) s = .next { s with outputs := w.map .byte }) ∧
    (s.dec.tbl.next ≤ k →
      (s.streaming .dec = true → ∃ t, exec (.tLookupC k) s = .next t ∧ DecFaulted (.decodeError (.code k)) s t) ∧
      (s.dec.phase = .done → exec (.tLookupC k) s = .refused (.wrongPhase .dec)))

/-- R104: `T.ADDW w` of an absent, non-empty word gives it the counter's code and raises the counter by one; every other
word reads as before and nothing else changes. With no capacity nothing else can happen to such a word (accepted phases:
assumption 10). -/
def Obligations.TAddWAppendsOneRow : Prop :=
  ∀ (s : State) (w : Word), s.enc.ready = true → s.tableLive .enc = true → w ≠ [] → s.enc.tbl.get w = none →
    ∃ t, exec (.tAddW w) s = .next t ∧
      t.enc.tbl.get w = some s.enc.tbl.next ∧ (∀ v, v ≠ w → t.enc.tbl.get v = s.enc.tbl.get v) ∧
      t = { s with enc := { s.enc with tbl :=
        { entries := s.enc.tbl.entries ++ [(w, s.enc.tbl.next)], next := s.enc.tbl.next + 1 } }, outputs := [] }

/-- R105: `T.ADDC w` of a non-empty word stores it under the counter's code, which reads as `w` at once, and raises the
counter by one, also for a word stored under another code already; every other code reads as before (accepted phases:
assumption 10). -/
def Obligations.TAddCAppendsOneRow : Prop :=
  ∀ (s : State) (w : Word), s.dec.tbl.wf → s.dec.ready = true → s.tableLive .dec = true → w ≠ [] →
    ∃ t, exec (.tAddC w) s = .next t ∧
      t.dec.tbl.get s.dec.tbl.next = some w ∧
      (∀ k, k ≠ s.dec.tbl.next → t.dec.tbl.get k = s.dec.tbl.get k) ∧
      t = { s with dec := { s.dec with tbl :=
        { entries := s.dec.tbl.entries ++ [(s.dec.tbl.next, w)], next := s.dec.tbl.next + 1 } }, outputs := [] }

/-- R107, R108, R196, R197: adding a present word on the encode side is the fault `DuplicateAdd` with that word (in `DONE`,
which only a start leaves, R29, R130, it is refused); adding the empty word is refused on both sides; a table that was never initialised (in `IDLE`, or by the model's own field `ready`)
refuses every operation, as does the table of a unit in `FAULT` (R203, R204; assumption 10). -/
def Obligations.TableMisuseStopsByName : Prop :=
  ∀ (s : State) (w : Word) (k : Nat),
    (s.enc.ready = true → w ≠ [] → s.enc.tbl.get w ≠ none →
      (s.enc.phase = .run → ∃ t, exec (.tAddW w) s = .next t ∧ EncFaulted (.duplicateAdd w) s t) ∧
      (s.enc.phase = .done → exec (.tAddW w) s = .refused (.wrongPhase .enc))) ∧
    (s.enc.ready = true → s.tableLive .enc = true → exec (.tAddW []) s = .refused .emptyWord) ∧
    (s.dec.ready = true → s.tableLive .dec = true → exec (.tAddC []) s = .refused .emptyWord) ∧
    (s.enc.phase = .idle ∨ s.enc.ready = false ∧ s.enc.phase ≠ .fault → ∀ i ∈ [Instr.tContains w, .tLookupW w, .tAddW w],
      exec i s = .refused (.uninitialised .enc)) ∧
    (s.dec.phase = .idle ∨ s.dec.ready = false ∧ s.dec.phase ≠ .fault → ∀ i ∈ [Instr.tLookupC k, .tAddC w],
      exec i s = .refused (.uninitialised .dec)) ∧
    (s.enc.phase = .fault → ∀ i ∈ [Instr.tContains w, .tLookupW w, .tAddW w], exec i s = .refused (.wrongPhase .enc)) ∧
    (s.dec.phase = .fault → ∀ i ∈ [Instr.tLookupC k, .tAddC w], exec i s = .refused (.wrongPhase .dec))

/-- R109, R195: for any parameters with a finite `CAPACITY`, an addition to a table that holds that many entries is the
fault `TableFull` with the counter, on both units alike, and below it the addition happens; in `DONE`, which only a start
leaves (R29, R130, R157), an addition to a full table is refused (accepted phases: assumption 10). -/
def Obligations.AFullTableFaultsOnBothUnits : Prop :=
  ∀ (cfg : Config) (cap : Nat) (s : State) (w : Word), cfg.capacity = some cap → w ≠ [] →
    (s.enc.ready = true → s.tableLive .enc = true → s.enc.tbl.get w = none →
      (cap ≤ s.enc.tbl.next →
        (s.enc.phase = .run → ∃ t, addWFor cfg w s = .next t ∧ EncFaulted (.tableFull s.enc.tbl.next) s t) ∧
        (s.enc.phase = .done → addWFor cfg w s = .refused (.wrongPhase .enc))) ∧
      (s.enc.tbl.next < cap → addWFor cfg w s = .next { s with enc := { s.enc with tbl := s.enc.tbl.append w }, outputs := [] })) ∧
    (s.dec.ready = true → s.tableLive .dec = true →
      (cap ≤ s.dec.tbl.next →
        (s.streaming .dec = true → ∃ t, addCFor cfg w s = .next t ∧ DecFaulted (.tableFull s.dec.tbl.next) s t) ∧
        (s.dec.phase = .done → addCFor cfg w s = .refused (.wrongPhase .dec))) ∧
      (s.dec.tbl.next < cap → addCFor cfg w s = .next { s with dec := { s.dec with tbl := s.dec.tbl.append w }, outputs := [] }))

/-- R24, R106: no operation but one that initialises a table removes, changes or reorders a row; it adds at most one row to
each table, and that row bears the counter's code. -/
def Obligations.TablesAreAppendOnly : Prop :=
  ∀ (i : Instr) (s t : State), initialisesATable i = false → exec i s = .next t →
    (t.enc.tbl = s.enc.tbl ∨ ∃ w, t.enc.tbl = { entries := s.enc.tbl.entries ++ [(w, s.enc.tbl.next)], next := s.enc.tbl.next + 1 }) ∧
    (t.dec.tbl = s.dec.tbl ∨ ∃ w, t.dec.tbl = { entries := s.dec.tbl.entries ++ [(s.dec.tbl.next, w)], next := s.dec.tbl.next + 1 })

/-- The tables are canonical data (R11, R21, R22; the form is the model's own, assumption 9): two canonical tables with one
counter that read alike at every key are equal. -/
def Obligations.CanonicalTablesThatReadAlikeAreEqual : Prop :=
  (∀ t u : EncTable, t.wf → u.wf → t.next = u.next → (∀ w, t.get w = u.get w) → t = u) ∧
  (∀ t u : DecTable, t.wf → u.wf → t.next = u.next → (∀ k, t.get k = u.get k) → t = u)

/-! ### The encoder -/

/-- R120, R220: `E.START` is accepted in every phase and leaves `ENC` in one and the same state, whatever came before; what
was written before stays in the sink, and nothing of `DEC`, its streams or the input changes. What is open stays
open, the cursor where it is (R174; assumption 23). Two starts in a row equal one. -/
def Obligations.EStartDiscardsAllEarlierState : Prop :=
  ∀ s : State, ∃ t, exec .eStart s = .next t ∧
    (∀ w k, t.enc.tbl.get w = some k ↔ ∃ b : Byte, w = [b] ∧ k = b.toNat) ∧
    t.enc = { tbl := EncTable.literals Config.hw, ready := true, cur := [], phase := .run, fault := .none, bytesIn := 0, codesOut := 0 } ∧
    t.enc.tbl.next = 256 ∧ t.enc.tbl.entries.length = 256 ∧
    t.encPort = { s.encPort with past := s.encPort.past ++ s.encPort.sent, sent := [] } ∧
    t.dec = s.dec ∧ t.decPort = s.decPort ∧ t.moves = s.moves ∧ t.outputs = [] ∧ exec .eStart t = .next t

/-- R121, R122: in `RUN`, when `cur ++ [c]` is in the table, `E.BYTE c` (and its row `E.BYTE.HIT`) only sets `cur` to it:
nothing is emitted, and table, counter and everything else stay, but for the count of bytes. -/
def Obligations.EByteHitExtendsTheCurrentWord : Prop :=
  ∀ (s : State) (c : Byte), s.enc.phase = .run → s.enc.tbl.get (s.enc.cur ++ [c]) ≠ none →
    ∀ i ∈ [Instr.eByte c, .eByteHit c],
      exec i s = .next { s with
        enc := { s.enc with cur := s.enc.cur ++ [c], bytesIn := s.enc.bytesIn + 1 }, outputs := [] }

/-- R121, R123, R125: in `RUN`, when `cur ++ [c]` is absent, `E.BYTE c` (and its row `E.BYTE.MISS`) emits the code of `cur`
as four bytes, adds `cur ++ [c]` with the next code, and sets `cur` to `[c]`; everything else stays. -/
def Obligations.EByteMissEmitsAddsAndRestarts : Prop :=
  ∀ (s : State) (c : Byte) (k : Nat), s.enc.phase = .run → s.enc.tbl.get (s.enc.cur ++ [c]) = none →
    s.enc.tbl.get s.enc.cur = some k → k < 2 ^ 32 → s.encPort.writeReturns →
    ∀ i ∈ [Instr.eByte c, .eByteMiss c],
      exec i s = .next { s with
        enc := { s.enc with
          tbl := { entries := s.enc.tbl.entries ++ [(s.enc.cur ++ [c], s.enc.tbl.next)], next := s.enc.tbl.next + 1 },
          cur := [c], bytesIn := s.enc.bytesIn + 1, codesOut := s.enc.codesOut + 1 },
        encPort := s.encPort.wrote (leBytes k), outputs := [.code k] }

/-- R124: in `RUN`, `E.EOS` ends the stream; with an empty `cur` nothing is emitted, else the code of `cur` is, and the
table, the counter and `cur` stay. -/
def Obligations.EEosFlushesWithoutGrowth : Prop :=
  ∀ s : State, s.enc.phase = .run →
    (s.enc.cur = [] → exec .eEos s = .next { s with enc := { s.enc with phase := .done }, outputs := [] }) ∧
    (∀ k, s.enc.cur ≠ [] → s.enc.tbl.get s.enc.cur = some k → k < 2 ^ 32 → s.encPort.writeReturns →
      exec .eEos s = .next { s with
        enc := { s.enc with phase := .done, codesOut := s.enc.codesOut + 1 },
        encPort := s.encPort.wrote (leBytes k), outputs := [.code k] })

/-- R127, R176, R192, R201, R202: a write of `ENC` that fails is the fault `IOError` with the collaborator's own value, at a
miss and at the flush; no row is added, and nothing else of either unit, of `DEC`'s streams or of the input changes. -/
def Obligations.EncWriteFailureAbortsTheStream : Prop :=
  ∀ (s : State) (c : Byte) (k : Nat) (e : ErrVal), s.enc.phase = .run → s.enc.cur ≠ [] →
    s.enc.tbl.get s.enc.cur = some k → k < 2 ^ 32 → (nextAnswer s.encPort.writes).1 = .fails e →
    (s.enc.tbl.get (s.enc.cur ++ [c]) = none →
      ∃ t, exec (.eByte c) s = .next t ∧ EncFaulted (.ioError e) s t ∧ t.encPort.input = s.encPort.input) ∧
    (∃ t, exec .eEos s = .next t ∧ EncFaulted (.ioError e) s t ∧ t.encPort.input = s.encPort.input)

/-- R170, R194, R201: a code that fits no field is the fault `CodeRange` with that code, at a miss, at the flush and in
`PACK` itself, before anything is written. That a `PACK` issued by itself records it in `ENC`, in `RUN`, the only phase a
fault leaves (R130), and is refused in every other, is the model's choice (assumption 7). -/
def Obligations.ACodeTooLargeFaultsBeforeItIsWritten : Prop :=
  ∀ (s : State) (c : Byte) (k : Nat), 2 ^ 32 ≤ k →
    (s.enc.phase = .run → s.enc.cur ≠ [] → s.enc.tbl.get s.enc.cur = some k →
      (s.enc.tbl.get (s.enc.cur ++ [c]) = none →
        ∃ t, exec (.eByte c) s = .next t ∧ EncFaulted (.codeRange k) s t ∧ t.encPort.writes = s.encPort.writes) ∧
      (∃ t, exec .eEos s = .next t ∧ EncFaulted (.codeRange k) s t ∧ t.encPort.writes = s.encPort.writes)) ∧
    (s.enc.phase = .run → ∃ t, exec (.pack k) s = .next t ∧ EncFaulted (.codeRange k) s t) ∧
    (s.enc.phase ≠ .run → exec (.pack k) s = .refused (.wrongPhase .enc))

/-- R128, R198: from a state with the table and `cur` of a run (R36), `E.BYTE` and `E.EOS` never raise the lookup error or `DuplicateAdd`: they complete,
or they raise the collaborator's `IOError` or `CodeRange`. -/
def Obligations.EncoderHasNoFaultOfItsOwn : Prop :=
  ∀ (s t : State) (c : Byte), s.enc.tbl.Sound → (s.enc.cur = [] ∨ s.enc.tbl.has s.enc.cur = true) → s.enc.phase = .run →
    ∀ i ∈ [Instr.eByte c, .eEos], exec i s = .next t →
    (t.enc.phase = .run ∧ i = .eByte c) ∨ (t.enc.phase = .done ∧ i = .eEos) ∨
    (t.enc.phase = .fault ∧ ((∃ e, t.enc.fault = .ioError e) ∨ ∃ k, t.enc.fault = .codeRange k))

/-- R86, R128, R198: every byte is a legal input. From a state with the table and `cur` of a run (R36), whose codes all fit the
field and whose write will succeed, `E.BYTE c` completes for every `c`, in `RUN`, and consumes one byte. -/
def Obligations.EveryByteIsALegalInput : Prop :=
  ∀ (s : State) (c : Byte), s.enc.tbl.Sound → (s.enc.cur = [] ∨ s.enc.tbl.has s.enc.cur = true) → s.enc.phase = .run →
    s.enc.tbl.next ≤ 2 ^ 32 → s.encPort.writeReturns →
    ∃ t, exec (.eByte c) s = .next t ∧ t.enc.phase = .run ∧ t.enc.bytesIn = s.enc.bytesIn + 1 ∧
      (t.enc.cur = s.enc.cur ++ [c] ∨ t.enc.cur = [c]) ∧ t.enc.tbl.has t.enc.cur = true

/-! ### The decoder -/

/-- R140, R220: `D.START` is accepted in every phase and leaves the 256 literals, the counter at 256, no fault and phase
`FIRST`, whatever came before; nothing of `ENC`, its streams or the input changes. Two starts in a row equal one.
That `cw` and `la`, unspecified after a start (R27, R35), keep their content is the model's choice (assumptions 1, 18). What is open
stays open, the cursor where it is (R174; assumption 23). -/
def Obligations.DStartDiscardsAllEarlierState : Prop :=
  ∀ s : State, ∃ t, exec .dStart s = .next t ∧
    (∀ k w, t.dec.tbl.get k = some w ↔ ∃ b : Byte, w = [b] ∧ k = b.toNat) ∧
    t.dec = { s.dec with tbl := DecTable.literals Config.hw, ready := true, phase := .first, fault := .none, codesIn := 0, bytesOut := 0 } ∧
    t.dec.tbl.next = 256 ∧ t.dec.tbl.entries.length = 256 ∧
    t.decPort = { s.decPort with past := s.decPort.past ++ s.decPort.sent, sent := [] } ∧
    t.enc = s.enc ∧ t.encPort = s.encPort ∧ t.moves = s.moves ∧ t.outputs = [] ∧ exec .dStart t = .next t

/-- R85, R142: in `FIRST`, in the table a start leaves, a literal first code becomes `cw` and nothing is emitted or added;
any other code that a field can hold, 256 included, is the fault `DecodeError` with that code. For `D.CODE` and its row
`D.CODE.FIRST`. -/
def Obligations.DCodeFirstTakesALiteralOnly : Prop :=
  ∀ (s : State) (k : Nat), s.dec.phase = .first → s.dec.tbl = DecTable.literals Config.hw →
    ∀ i ∈ [Instr.dCode k, .dCodeFirst k],
      (k ≤ 255 → exec i s = .next { s with
        dec := { s.dec with cw := [BitVec.ofNat 8 k], phase := .run, codesIn := s.dec.codesIn + 1 }, outputs := [] }) ∧
      (256 ≤ k → k < 2 ^ 32 → ∃ t, exec i s = .next t ∧ DecFaulted (.decodeError (.code k)) s t)

/-- R143, R144: in `RUN`, a code below the counter emits `cw`, adds `cw` and the first byte of the code's word, and makes
that word the new `cw`; everything else stays. For `D.CODE` and its row `D.CODE.RES`. -/
def Obligations.DCodeResolvesAPresentCode : Prop :=
  ∀ (s : State) (k : Nat) (w : Word) (f : Byte), s.dec.tbl.wf → s.dec.phase = .run → s.dec.la = none → s.dec.cw ≠ [] →
    k < 2 ^ 32 → s.dec.tbl.get k = some w → w.head? = some f → s.decPort.writeReturns →
    ∀ i ∈ [Instr.dCode k, .dCodeRes k],
      exec i s = .next { s with
        dec := { s.dec with
          tbl := { entries := s.dec.tbl.entries ++ [(s.dec.tbl.next, s.dec.cw ++ [f])], next := s.dec.tbl.next + 1 },
          cw := w, codesIn := s.dec.codesIn + 1, bytesOut := s.dec.bytesOut + s.dec.cw.length },
        decPort := s.decPort.wrote s.dec.cw, outputs := s.dec.cw.map .byte }

/-- R143, R145: in `RUN`, the code equal to the counter emits `cw`, and adds `cw` and its own first byte, which is also the
new `cw`; everything else stays. For `D.CODE` and its row `D.CODE.KWK`. -/
def Obligations.DCodeResolvesTheSelfReferentialCode : Prop :=
  ∀ (s : State) (f : Byte), s.dec.tbl.wf → s.dec.phase = .run → s.dec.la = none → s.dec.cw.head? = some f →
    s.dec.tbl.next < 2 ^ 32 → s.decPort.writeReturns →
    ∀ i ∈ [Instr.dCode s.dec.tbl.next, .dCodeKwk s.dec.tbl.next],
      exec i s = .next { s with
        dec := { s.dec with
          tbl := { entries := s.dec.tbl.entries ++ [(s.dec.tbl.next, s.dec.cw ++ [f])], next := s.dec.tbl.next + 1 },
          cw := s.dec.cw ++ [f], codesIn := s.dec.codesIn + 1, bytesOut := s.dec.bytesOut + s.dec.cw.length },
        decPort := s.decPort.wrote s.dec.cw, outputs := s.dec.cw.map .byte }

/-- R146: in `RUN`, a code above the counter is the fault `DecodeError` with that code: no entry is added, the counter and
`cw` stay, nothing else of either unit changes, and no output is attached (what the run wrote to the sink is left open,
R203). For `D.CODE` and its row `D.CODE.BAD`. -/
def Obligations.DCodeAboveTheCounterFaults : Prop :=
  ∀ (s : State) (k : Nat), s.dec.phase = .run → s.dec.cw ≠ [] → s.dec.tbl.next < k → k < 2 ^ 32 →
    s.decPort.writeReturns →
    ∀ i ∈ [Instr.dCode k, .dCodeBad k], ∃ t, exec i s = .next t ∧ DecFaulted (.decodeError (.code k)) s t

/-- R147: `D.EOS` ends the stream: in `FIRST` with nothing emitted, in `RUN` with the held-back word emitted; nothing is
added to the table. That `cw`, unspecified in `DONE` (R27), keeps its content is the model's choice (assumption 24). -/
def Obligations.DEosEmitsTheHeldBackWord : Prop :=
  ∀ s : State,
    (s.dec.phase = .first → exec .dEos s = .next { s with dec := { s.dec with phase := .done }, outputs := [] }) ∧
    (s.dec.phase = .run → s.dec.cw ≠ [] → s.decPort.writeReturns →
      exec .dEos s = .next { s with
        dec := { s.dec with phase := .done, bytesOut := s.dec.bytesOut + s.dec.cw.length },
        decPort := s.decPort.wrote s.dec.cw, outputs := s.dec.cw.map .byte })

/-- R148, R193: a short fragment of 1 to 3 bytes is exactly the end of the stream, in every state: it completes where
`D.EOS` does and leaves the same state. That `cw`, unspecified in `DONE` (R27), keeps its content is the model's choice
(assumption 24). No other number of bytes is a fragment; that `D.SHORT` of one is refused, in every
phase, is the model's choice (assumption 13). -/
def Obligations.DShortIsDEos : Prop :=
  ∀ (s : State) (n : Nat),
    (1 ≤ n → n ≤ 3 → exec (.dShort n) s = exec .dEos s ∧
      (s.dec.phase = .first → exec (.dShort n) s = .next { s with dec := { s.dec with phase := .done }, outputs := [] }) ∧
      (s.dec.phase = .run → s.dec.cw ≠ [] → s.decPort.writeReturns → ∃ t, exec (.dShort n) s = .next t ∧
        t.dec.phase = .done ∧ t.dec.fault = s.dec.fault ∧ t.outputs = s.dec.cw.map .byte)) ∧
    ((n = 0 ∨ 4 ≤ n) → exec (.dShort n) s = .refused .operandDomain)

/-- R149, R176, R192, R201, R202: a write of `DEC` that fails is the fault `IOError` with the collaborator's own value, in
`D.CODE` of every class (before the code is classified), in `D.EOS` and in `D.SHORT`; nothing else of either unit
changes. -/
def Obligations.DecWriteFailureComesBeforeClassification : Prop :=
  ∀ (s : State) (k n : Nat) (e : ErrVal), s.dec.phase = .run → s.dec.cw ≠ [] → k < 2 ^ 32 → 1 ≤ n → n ≤ 3 →
    (nextAnswer s.decPort.writes).1 = .fails e →
    ∀ i ∈ [Instr.dCode k, .dEos, .dShort n],
      ∃ t, exec i s = .next t ∧ DecFaulted (.ioError e) s t ∧ t.decPort.input = s.decPort.input

/-- R154: in a state of a run where the write succeeds, code number `n = d_in + 1` of the stream is legal exactly when it is
at most `254 + n`: then the step completes in `RUN`, and else it is the fault `DecodeError`. -/
def Obligations.TheBoundOnALegalCode : Prop :=
  ∀ (s : State) (k : Nat), DecInv s → s.dec.phase = .run → k < 2 ^ 32 → s.decPort.writeReturns →
    (k ≤ 254 + (s.dec.codesIn + 1) → ∃ t, exec (.dCode k) s = .next t ∧ t.dec.phase = .run ∧
      t.dec.tbl.get k = some t.dec.cw ∧ t.dec.codesIn = s.dec.codesIn + 1) ∧
    (254 + (s.dec.codesIn + 1) < k → ∃ t, exec (.dCode k) s = .next t ∧ DecFaulted (.decodeError (.code k)) s t)

/-! ### Phases and refusals -/

/-- R131, R158: an input event in a phase that does not accept it is refused. That a sub-case row is refused there as its
event is, is the model's choice (assumption 6). -/
def Obligations.EventsInTheWrongPhaseAreRefused : Prop :=
  ∀ (s : State) (c : Byte) (k n : Nat), k < 2 ^ 32 → 1 ≤ n → n ≤ 3 →
    (s.enc.phase ≠ .run → ∀ i ∈ [Instr.eByte c, .eByteHit c, .eByteMiss c, .eEos], exec i s = .refused (.wrongPhase .enc)) ∧
    (s.dec.phase ≠ .first → s.dec.phase ≠ .run →
      ∀ i ∈ [Instr.dCode k, .dCodeFirst k, .dCodeRes k, .dCodeKwk k, .dCodeBad k, .dEos, .dShort n],
        exec i s = .refused (.wrongPhase .dec))

/-- R130, R157, R29: the only transfers of control of the two units, over every operation. Of the events: a start leads to
`RUN` (`FIRST`) from anywhere, an event is taken in its phases only, and leads where its rule says or to `FAULT`. Of all
operations: a phase changes only by a start, by the end of a stream, from `FIRST` to `RUN`, by a composite, which ends in
`DONE` or `FAULT`, or by a fault of an operation of the unit, from `RUN` (or `FIRST`) only. -/
def Obligations.TheOnlyTransfersOfControl : Prop :=
  ∀ (s t : State),
    (exec .eStart s = .next t → t.enc.phase = .run) ∧
    (∀ c, exec (.eByte c) s = .next t → s.enc.phase = .run ∧ (t.enc.phase = .run ∨ t.enc.phase = .fault)) ∧
    (exec .eEos s = .next t → s.enc.phase = .run ∧ (t.enc.phase = .done ∨ t.enc.phase = .fault)) ∧
    (exec .dStart s = .next t → t.dec.phase = .first) ∧
    (∀ k, exec (.dCode k) s = .next t →
      (s.dec.phase = .first ∨ s.dec.phase = .run) ∧ (t.dec.phase = .run ∨ t.dec.phase = .fault)) ∧
    (∀ n, ∀ i ∈ [Instr.dEos, .dShort n], exec i s = .next t →
      (s.dec.phase = .first ∧ t.dec.phase = .done) ∨
      (s.dec.phase = .run ∧ (t.dec.phase = .done ∨ t.dec.phase = .fault))) ∧
    (∀ i, exec i s = .next t →
      (t.enc.phase = s.enc.phase ∨
        (i = .eStart ∧ t.enc.phase = .run) ∨
        (i = .eEos ∧ s.enc.phase = .run ∧ t.enc.phase = .done) ∨
        ((∃ b, i = .compress b ∨ i = .compressBytes b) ∧ (t.enc.phase = .done ∨ t.enc.phase = .fault)) ∨
        (isEncOp i = true ∧ s.enc.phase = .run ∧ t.enc.phase = .fault)) ∧
      (t.dec.phase = s.dec.phase ∨
        (i = .dStart ∧ t.dec.phase = .first) ∨
        ((∃ k, i = .dCode k ∨ i = .dCodeFirst k) ∧ s.dec.phase = .first ∧ t.dec.phase = .run) ∨
        ((i = .dEos ∨ ∃ n, i = .dShort n) ∧ s.streaming .dec = true ∧ t.dec.phase = .done) ∨
        (((∃ ks, i = .decompress ks) ∨ ∃ bs, i = .decompressBytes bs) ∧ (t.dec.phase = .done ∨ t.dec.phase = .fault)) ∨
        (isDecOp i = true ∧ s.streaming .dec = true ∧ t.dec.phase = .fault)))

/-- The sub-case rows (opcode_table.json, "condition"; assumption 6): where a state selects the sub-case, the row does what
its event does, and where it selects another, the row is refused. A code that no field holds is no operand of any of the
`D.CODE` rows (R141; assumption 13). -/
def Obligations.SubCaseRowsAreTheirEventWhereSelected : Prop :=
  ∀ (s : State) (c : Byte) (k : Nat),
    (s.enc.phase = .run →
      exec (.eByteHit c) s = (if s.enc.tbl.has (s.enc.cur ++ [c]) then exec (.eByte c) s else .refused .otherCase) ∧
      exec (.eByteMiss c) s = (if s.enc.tbl.has (s.enc.cur ++ [c]) then .refused .otherCase else exec (.eByte c) s)) ∧
    (k < 2 ^ 32 → s.dec.phase = .first → exec (.dCodeFirst k) s = exec (.dCode k) s ∧
      ∀ i ∈ [Instr.dCodeRes k, .dCodeKwk k, .dCodeBad k], exec i s = .refused .otherCase) ∧
    (k < 2 ^ 32 → s.dec.phase = .run → exec (.dCodeFirst k) s = .refused .otherCase ∧
      exec (.dCodeRes k) s = (if k < s.dec.tbl.next then exec (.dCode k) s else .refused .otherCase) ∧
      exec (.dCodeKwk k) s = (if k = s.dec.tbl.next then exec (.dCode k) s else .refused .otherCase) ∧
      exec (.dCodeBad k) s = (if s.dec.tbl.next < k then exec (.dCode k) s else .refused .otherCase)) ∧
    (2 ^ 32 ≤ k → ∀ i ∈ [Instr.dCode k, .dCodeFirst k, .dCodeRes k, .dCodeKwk k, .dCodeBad k],
      exec i s = .refused .operandDomain)

/-! ### Token codec and host primitives -/

/-- R170: `PACK` of a code below `2^32` answers its four bytes, least significant first, and changes nothing else. -/
def Obligations.PackGivesTheFourBytes : Prop :=
  ∀ (s : State) (k : Nat), k < 2 ^ 32 → exec (.pack k) s = .next { s with outputs := (leBytes k).map .byte }

/-- R171: `UNPACK` of four bytes answers the code they hold, which a field can hold, and changes nothing else; of any other
number of bytes it is refused. -/
def Obligations.UnpackGivesTheCode : Prop :=
  ∀ s : State,
    (∀ f0 f1 f2 f3 : Byte, leCode f0 f1 f2 f3 < 2 ^ 32 ∧
      exec (.unpack [f0, f1, f2, f3]) s = .next { s with outputs := [.code (leCode f0 f1 f2 f3)] }) ∧
    (∀ f : ByteSeq, f.length ≠ 4 → exec (.unpack f) s = .refused .fieldLength)

/-- R171, laws: for every width and either byte order, `Unpack` undoes `Pack` on every code that fits, and `Pack` undoes
`Unpack` on every field. -/
def Obligations.PackAndUnpackAreInverse : Prop :=
  ∀ cfg : Config, cfg.valid = true →
    (∀ k, k < cfg.codeLimit → ∃ f, packField cfg k = some f ∧ f.length = cfg.codeBytes ∧ unpackField cfg f = k) ∧
    (∀ f : ByteSeq, f.length = cfg.codeBytes →
      unpackField cfg f < cfg.codeLimit ∧ packField cfg (unpackField cfg f) = some f) ∧
    (∀ k, cfg.codeLimit ≤ k → packField cfg k = none)

/-- R10, R83, R170: the byte at offset `i` of a packed code is lane `i` under `LE` and lane `W - 1 - i` under `BE`. -/
def Obligations.PackedOffsetsHoldTheirLanes : Prop :=
  ∀ (cfg : Config) (k : Nat) (f : ByteSeq) (i : Nat), packField cfg k = some f → i < cfg.codeBytes →
    f[i]? = some (BitVec.ofNat 8 (match cfg.byteOrder with
      | .le => k / 256 ^ i
      | .be => k / 256 ^ (cfg.codeBytes - 1 - i)))

/-- R172, R176: with a stream of `u` in progress, a read that returns answers the next byte and moves the cursor by one, or
answers that the input has ended; after that answer the cursor is not asked again; nothing else changes. A read that fails
is the fault `IOError` of that unit. Outside a stream (assumption 11), and in a stream for which no input is open
(assumption 23), the read is refused. -/
def Obligations.ReadByteMovesTheCursor : Prop :=
  ∀ (s : State) (u : UnitId),
    (s.fed u = true → (s.port u).reads = [] →
      ((s.port u).ended = false → ∀ c more, (s.port u).input = c :: more →
        exec (.readByte u) s = .next ((s.setPort u { s.port u with input := more }).setOutputs [.byte c])) ∧
      ((s.port u).ended = false → (s.port u).input = [] →
        exec (.readByte u) s = .next ((s.setPort u { s.port u with ended := true }).setOutputs [.endOfStream])) ∧
      ((s.port u).ended = true → exec (.readByte u) s = .refused (.readAfterEnd u))) ∧
    (s.fed u = true → (s.port u).ended = false → ∀ e, (nextAnswer (s.port u).reads).1 = .fails e →
      ∃ t, exec (.readByte u) s = .next t ∧
        match u with
        | .enc => EncFaulted (.ioError e) s t
        | .dec => DecFaulted (.ioError e) s t) ∧
    (s.streaming u = true → (s.port u).inOpen = false → exec (.readByte u) s = .refused (.notOpened u)) ∧
    (s.streaming u = false → exec (.readByte u) s = .refused (.wrongPhase u))

/-- R173: with a stream of `u` in progress, a write of a non-empty sequence that succeeds appends its bytes to the sink, in
order; one that fails is the fault `IOError` of that unit. An empty write (assumption 13) and a write outside a stream
(assumption 11) are refused. -/
def Obligations.WriteBytesAppendsToTheSink : Prop :=
  ∀ (s : State) (u : UnitId) (bs : ByteSeq),
    (s.streaming u = true → bs ≠ [] → (s.port u).writeReturns →
      exec (.writeBytes u bs) s = .next ((s.setPort u ((s.port u).wrote bs)).setOutputs [.success])) ∧
    (s.streaming u = true → bs ≠ [] → ∀ e, (nextAnswer (s.port u).writes).1 = .fails e →
      ∃ t, exec (.writeBytes u bs) s = .next t ∧
        match u with
        | .enc => EncFaulted (.ioError e) s t
        | .dec => DecFaulted (.ioError e) s t) ∧
    (s.streaming u = true → exec (.writeBytes u []) s = .refused .operandDomain) ∧
    (s.streaming u = false → exec (.writeBytes u bs) s = .refused (.wrongPhase u))

/-- R175: with a stream of `DEC` in progress and reads that return, `READCODE` answers the code of the next four bytes and
moves past them; with no byte left it answers that the input has ended, and with 1 to 3 left how many there were, which
are dropped; nothing else changes. After the end it is
refused (R172), as it is outside a stream (assumption 11) and in one for which no input is open (assumption 23). -/
def Obligations.ReadCodeFramesTheStream : Prop :=
  ∀ s : State,
    (s.fed .dec = true → s.decPort.reads = [] → s.decPort.ended = false →
      (∀ f0 f1 f2 f3 more, s.decPort.input = f0 :: f1 :: f2 :: f3 :: more →
        exec .readCode s = .next { s with
          decPort := { s.decPort with input := more }, outputs := [.code (leCode f0 f1 f2 f3)] }) ∧
      (s.decPort.input = [] → exec .readCode s = .next { s with
        decPort := { s.decPort with ended := true }, outputs := [.endOfStream] }) ∧
      (1 ≤ s.decPort.input.length → s.decPort.input.length ≤ 3 → exec .readCode s = .next { s with
        decPort := { s.decPort with input := [], ended := true }, outputs := [.short s.decPort.input.length] })) ∧
    (s.fed .dec = true → s.decPort.ended = true → exec .readCode s = .refused (.readAfterEnd .dec)) ∧
    (s.streaming .dec = true → s.decPort.inOpen = false → exec .readCode s = .refused (.notOpened .dec)) ∧
    (s.streaming .dec = false → exec .readCode s = .refused (.wrongPhase .dec))

/-- R181, U17: a collaborator call that never returns leaves no next state: the model's fault `blocked` of that unit
(assumption 8). Said of a primitive issued by itself, of the write inside every event of the two units and the rows of its sub-cases, of the read of a
byte, of a read at any byte of a code, and of the read that a step makes before its event, with no host move (assumption 4)
and with one. -/
def Obligations.ABlockedCallHasNoNextState : Prop :=
  ∀ s : State,
    (∀ u bs, s.streaming u = true → bs ≠ [] → (nextAnswer (s.port u).writes).1 = .blocks →
      exec (.writeBytes u bs) s = .fault (.blocked u)) ∧
    (∀ u, s.fed u = true → (s.port u).ended = false → (nextAnswer (s.port u).reads).1 = .blocks →
      exec (.readByte u) s = .fault (.blocked u)) ∧
    (∀ c k, s.enc.phase = .run → s.enc.cur ≠ [] → s.enc.tbl.get s.enc.cur = some k → k < 2 ^ 32 →
      (nextAnswer s.encPort.writes).1 = .blocks →
      (s.enc.tbl.get (s.enc.cur ++ [c]) = none →
        exec (.eByte c) s = .fault (.blocked .enc) ∧ exec (.eByteMiss c) s = .fault (.blocked .enc)) ∧
      exec .eEos s = .fault (.blocked .enc)) ∧
    (∀ k n, s.dec.phase = .run → s.dec.cw ≠ [] → k < 2 ^ 32 → 1 ≤ n → n ≤ 3 → (nextAnswer s.decPort.writes).1 = .blocks →
      (∀ i ∈ [Instr.dCode k, .dEos, .dShort n], exec i s = .fault (.blocked .dec)) ∧
      (k < s.dec.tbl.next → exec (.dCodeRes k) s = .fault (.blocked .dec)) ∧
      (k = s.dec.tbl.next → exec (.dCodeKwk k) s = .fault (.blocked .dec)) ∧
      (s.dec.tbl.next < k → exec (.dCodeBad k) s = .fault (.blocked .dec))) ∧
    (s.fed .enc = true → s.encPort.ended = false → (nextAnswer s.encPort.reads).1 = .blocks →
      (s.moves = [] → step s = .fault (.blocked .enc)) ∧
      (∀ rest, s.moves = .poll .enc :: rest → step s = .fault (.blocked .enc))) ∧
    (∀ m more, s.fed .dec = true → s.decPort.ended = false →
      s.decPort.reads = List.replicate m .returns ++ .blocks :: more → m ≤ 3 → m ≤ s.decPort.input.length →
      exec .readCode s = .fault (.blocked .dec) ∧
      (s.moves = [] → s.fed .enc = false → step s = .fault (.blocked .dec)) ∧
      (∀ rest, s.moves = .poll .dec :: rest → step s = .fault (.blocked .dec)))

/-! ### Encodings and the step -/

/-- R81, R82, R83: words written out from the encodings decode to the operation they stand for. -/
def Obligations.SpelledOutWordsDecode : Prop :=
  decode .byte8 [0x61#8] = .ok (.eByte 0x61#8) ∧ decode .byte8 [0x00#8] = .ok (.eByte 0#8) ∧
  decode .code [0x61#8, 0x00#8, 0x00#8, 0x00#8] = .ok (.dCode 97) ∧
  decode .code [0x00#8, 0x01#8, 0x00#8, 0x00#8] = .ok (.dCode 256) ∧
  decode .code [0x09#8, 0x01#8, 0x00#8, 0x00#8] = .ok (.dCode 265) ∧
  decode .code [0xff#8, 0xff#8, 0xff#8, 0xff#8] = .ok (.dCode 4294967295) ∧
  decodeTableWord 8 0x61 = some (.eByte 0x61#8) ∧ decodeTableWord 32 0x01020304 = some (.dCode 16909060)

/-- R81, R82, R89: for every width and byte order, an operation that has a field, with every operand its rule admits,
encodes to a field that decodes, in the operation's format, to the event its bits select: itself, or for a sub-case row
the event it is a case of. -/
def Obligations.DecodeUndoesEncode : Prop :=
  ∀ (cfg : Config) (i : Instr), cfg.valid = true → i.wellFormedFor cfg = true → (i.format = .byte8 ∨ i.format = .code) →
    ∃ bs, encodeFor cfg i = some bs ∧ decodeFor cfg i.format bs = .ok i.event

/-- R81, R82, R86, R87: there are no reserved patterns. Every one-byte field and every `W`-byte field decodes, to an
operation whose encoding is that field; a field of any other length is rejected by name. -/
def Obligations.EveryFieldHasOneMeaning : Prop :=
  ∀ (cfg : Config) (bs : ByteSeq), cfg.valid = true →
    (bs.length = 1 → ∃ c, decodeFor cfg .byte8 bs = .ok (.eByte c) ∧ encodeFor cfg (.eByte c) = some bs) ∧
    (bs.length = cfg.codeBytes → ∃ k, decodeFor cfg .code bs = .ok (.dCode k) ∧ k < cfg.codeLimit ∧
      encodeFor cfg (.dCode k) = some bs) ∧
    (bs.length ≠ 1 → decodeFor cfg .byte8 bs = .error (.wrongLength .byte8 bs.length)) ∧
    (bs.length ≠ cfg.codeBytes → decodeFor cfg .code bs = .error (.wrongLength .code bs.length))

/-- R126, R172: with no host move pending and a stream of `ENC` read from its cursor, a step runs the operation that the byte
at the cursor decodes to, the cursor one further; at the end of the input it runs `E.EOS`. That a step without a host move
is `ENC`'s, also while `DEC` has a stream, is the model's choice (assumption 4). -/
def Obligations.AStepOfEncRunsTheDecodedByte : Prop :=
  ∀ s : State, s.moves = [] → s.fed .enc = true → s.encPort.ended = false → s.encPort.reads = [] →
    (∀ c more i, s.encPort.input = c :: more → decode .byte8 [c] = .ok i →
      step s = exec i { s with encPort := { s.encPort with input := more } }) ∧
    (s.encPort.input = [] → step s = exec .eEos { s with encPort := { s.encPort with ended := true } })

/-- R150, R175: with no host move pending and a stream of `DEC`, but none of `ENC`, read from its cursor, a step runs the
operation that the next four bytes decode to, the cursor past them; with fewer bytes left it runs `D.EOS` or `D.SHORT`.
That a step without a host move is `DEC`'s only where it is not `ENC`'s is the model's choice (assumption 4). -/
def Obligations.AStepOfDecRunsTheDecodedField : Prop :=
  ∀ s : State, s.moves = [] → s.fed .enc = false → s.fed .dec = true → s.decPort.ended = false →
    s.decPort.reads = [] →
    (∀ f more i, s.decPort.input = f ++ more → f.length = 4 → decode .code f = .ok i →
      step s = exec i { s with decPort := { s.decPort with input := more } }) ∧
    (s.decPort.input = [] → step s = exec .dEos { s with decPort := { s.decPort with ended := true } }) ∧
    (1 ≤ s.decPort.input.length → s.decPort.input.length ≤ 3 →
      step s = exec (.dShort s.decPort.input.length) { s with decPort := { s.decPort with input := [], ended := true } })

/-- R7, R178, R223, R225 (the form of a host move is the model's, assumption 4): a step takes the host's oldest move: it
opens or closes the resources of a unit (assumption 23), runs an operation issued, opens a stream and runs its start, or
lets a unit run the next byte or code at its cursor. A move that R178 and R223 exclude has no step (assumption 21): during a
stream of a unit, to open or close its resources, or to issue an operation that touches its table or writes to its sink;
during a stream read from a cursor, an input event from another source or a read; and in a stream whose output is not open,
any input event. With no move and no stream to read there is no event and no step. -/
def Obligations.AStepTakesTheHostsNextMove : Prop :=
  ∀ (s : State) (rest : List HostMove),
    (∀ i, s.moves = .issue i :: rest → disturbs s i = none → step s = exec i { s with moves := rest }) ∧
    (∀ b ks, ∀ i ∈ [Instr.eStart, .dStart, .compress b, .compressBytes b, .decompress ks, .decompressBytes b],
      s.moves = .issue i :: rest → step s = exec i { s with moves := rest }) ∧
    (∀ w, s.enc.phase = .run →
      ∀ i ∈ [Instr.tInit .enc, .tContains w, .tLookupW w, .tAddW w, .writeBytes .enc w], s.moves = .issue i :: rest →
        step s = .refused (.hostContract .enc)) ∧
    (∀ w k, s.streaming .dec = true →
      ∀ i ∈ [Instr.tInit .dec, .tLookupC k, .tAddC w, .writeBytes .dec w], s.moves = .issue i :: rest →
        step s = .refused (.hostContract .dec)) ∧
    (∀ u bs, s.streaming u = false →
      (s.moves = .openStream u bs :: rest → step s = .next (({ s with moves := rest, outputs := [] } : State).setPort u
        { s.port u with inOpen := true, outOpen := true, input := bs, ended := false })) ∧
      (s.moves = .openOutput u :: rest → step s = .next (({ s with moves := rest, outputs := [] } : State).setPort u
        { s.port u with outOpen := true })) ∧
      (s.moves = .close u :: rest → step s = .next (({ s with moves := rest, outputs := [] } : State).setPort u
        { s.port u with inOpen := false, outOpen := false }))) ∧
    (∀ u bs, s.streaming u = true → ∀ m ∈ [HostMove.openStream u bs, .openOutput u, .close u], s.moves = m :: rest →
      step s = .refused (.hostContract u)) ∧
    (∀ c, s.enc.phase = .run → s.encPort.outOpen = false → ∀ i ∈ [Instr.eByte c, .eByteHit c, .eByteMiss c, .eEos],
      s.moves = .issue i :: rest → step s = .refused (.hostContract .enc)) ∧
    (∀ k n, s.streaming .dec = true → s.decPort.outOpen = false →
      ∀ i ∈ [Instr.dCode k, .dCodeFirst k, .dCodeRes k, .dCodeKwk k, .dCodeBad k, .dEos, .dShort n],
      s.moves = .issue i :: rest → step s = .refused (.hostContract .dec)) ∧
    (∀ c, s.fed .enc = true →
      ∀ i ∈ [Instr.eByte c, .eByteHit c, .eByteMiss c, .eEos, .readByte .enc], s.moves = .issue i :: rest →
        step s = .refused (.hostContract .enc)) ∧
    (∀ k n, s.fed .dec = true →
      ∀ i ∈ [Instr.dCode k, .dCodeFirst k, .dCodeRes k, .dCodeKwk k, .dCodeBad k, .dEos, .dShort n, .readByte .dec, .readCode],
        s.moves = .issue i :: rest → step s = .refused (.hostContract .dec)) ∧
    (∀ bs, s.moves = .startStream .enc bs :: rest →
      step s = exec .eStart { s with moves := rest, encPort := { s.encPort with inOpen := true, outOpen := true, input := bs, ended := false } }) ∧
    (∀ bs, s.moves = .startStream .dec bs :: rest →
      step s = exec .dStart { s with moves := rest, decPort := { s.decPort with inOpen := true, outOpen := true, input := bs, ended := false } }) ∧
    (∀ c more, s.moves = .poll .enc :: rest → s.fed .enc = true → s.encPort.ended = false → s.encPort.reads = [] →
      s.encPort.input = c :: more →
      step s = exec (.eByte c) { s with moves := rest, encPort := { s.encPort with input := more } }) ∧
    (∀ f more k, s.moves = .poll .dec :: rest → s.fed .dec = true → s.decPort.ended = false →
      s.decPort.reads = [] → s.decPort.input = f ++ more → decode .code f = .ok (.dCode k) →
      step s = exec (.dCode k) { s with moves := rest, decPort := { s.decPort with input := more } }) ∧
    (s.moves = [] → s.fed .enc = false → s.fed .dec = false → step s = .refused .noEvent)

/-- R176, R192, R201: a read that fails is the fault `IOError` of the unit that read, before an event exists: in a step with
no host move (assumption 4), in one that the host gives the unit, and, for `DEC`, in a `READCODE` issued by itself, at
whichever byte of the code it fails. Nothing of the other unit changes. The bytes of the code that were read before stay
read (assumption 12), and the read that fails consumes none (assumption 17). -/
def Obligations.AReadFailureComesBeforeTheEvent : Prop :=
  ∀ (s : State) (e : ErrVal) (more : List CallAnswer),
    (s.fed .enc = true → s.encPort.ended = false → s.encPort.reads = .fails e :: more →
      (s.moves = [] → ∃ t, step s = .next t ∧ EncFaulted (.ioError e) s t ∧ t.encPort.input = s.encPort.input) ∧
      (∀ rest, s.moves = .poll .enc :: rest → ∃ t, step s = .next t ∧
        EncFaulted (.ioError e) { s with moves := rest } t ∧ t.encPort.input = s.encPort.input)) ∧
    (∀ m, s.fed .dec = true → s.decPort.ended = false →
      s.decPort.reads = List.replicate m .returns ++ .fails e :: more → m ≤ 3 → m ≤ s.decPort.input.length →
      (∃ t, exec .readCode s = .next t ∧ DecFaulted (.ioError e) s t ∧ t.decPort.input = s.decPort.input.drop m) ∧
      (s.moves = [] → s.fed .enc = false → ∃ t, step s = .next t ∧ DecFaulted (.ioError e) s t ∧
        t.decPort.input = s.decPort.input.drop m) ∧
      (∀ rest, s.moves = .poll .dec :: rest → ∃ t, step s = .next t ∧
        DecFaulted (.ioError e) { s with moves := rest } t ∧ t.decPort.input = s.decPort.input.drop m))

/-! ### Invariants and isolation -/

/-- Every step keeps both tables in canonical form, from every state that has it (R24, R106; the form is the model's own,
assumption 9). -/
def Obligations.EveryStepKeepsTheTablesCanonical : Prop :=
  ∀ s t : State, Memory.wf s → step s = .next t → Memory.wf t

/-- R36, R37, R28, R31: from every state with the invariants of the two units, every step leads to a state with the invariants,
unless its move rewrites the table of a finished stream directly (assumption 21). No premise about a stream in progress is
needed: moves that R178 excludes there have no step. -/
def Obligations.EveryStepKeepsTheInvariantsOfTheUnits : Prop :=
  ∀ s t : State, EncInv s → DecInv s → s.resultsStand = true → step s = .next t → EncInv t ∧ DecInv t

/-- R35, R221: after power-on both units are in `IDLE` with fault `NONE`; no input event, no table operation on either
table, `T.INIT` included, no host primitive, no `PACK` that does not fit and no step without a host move (assumption 4) is
accepted; both starts are. (A composite begins with a start; `UNPACK`, and a `PACK` that fits, are pure and no step of a
unit, assumption 7.) The tables' canonical form and the invariants hold of the content the model gives the registers
that R35 leaves unspecified (assumption 1). -/
def Obligations.PowerOnAcceptsOnlyAStart : Prop :=
  State.reset.enc.phase = .idle ∧ State.reset.dec.phase = .idle ∧ State.reset.enc.fault = .none ∧
  State.reset.dec.fault = .none ∧ Memory.wf State.reset ∧ EncInv State.reset ∧ DecInv State.reset ∧
  step State.reset = .refused .noEvent ∧
  (∀ (c : Byte) (k : Nat) (w : Word) (t : State), ∀ i ∈ [Instr.eByte c, .eByteHit c, .eByteMiss c, .eEos, .dCode k,
    .dCodeFirst k, .dCodeRes k, .dCodeKwk k, .dCodeBad k, .dEos, .dShort k, .tInit .enc, .tInit .dec, .tContains w,
    .tLookupW w, .tLookupC k, .tAddW w, .tAddC w, .readByte .enc, .readByte .dec, .writeBytes .enc w, .writeBytes .dec w,
    .readCode, .pack (2 ^ 32 + k)],
    exec i State.reset ≠ .next t) ∧
  (∃ t, exec .eStart State.reset = .next t ∧ t.enc.phase = .run ∧ t.dec.phase = .idle) ∧
  (∃ t, exec .dStart State.reset = .next t ∧ t.dec.phase = .first ∧ t.enc.phase = .idle)

/-- R20, R62, R202, R209: an operation of one unit changes nothing of the other unit or of its streams, faults included,
nor the host's coming moves. R7, R174: no operation, completing or faulting, closes an input or an output; none opens one
either but `DECOMPRESSBYTES`, whose operand is its input (assumption 20). -/
def Obligations.AUnitLeavesTheOtherAlone : Prop :=
  ∀ (i : Instr) (s t : State), exec i s = .next t →
    (isEncOp i = true → t.dec = s.dec ∧ t.decPort = s.decPort ∧ t.moves = s.moves) ∧
    (isDecOp i = true → t.enc = s.enc ∧ t.encPort = s.encPort ∧ t.moves = s.moves) ∧
    (∀ u, ((s.port u).inOpen = true → (t.port u).inOpen = true) ∧ ((s.port u).outOpen = true → (t.port u).outOpen = true)) ∧
    (∀ u, (∀ bs, i ≠ .decompressBytes bs) →
      (t.port u).inOpen = (s.port u).inOpen ∧ (t.port u).outOpen = (s.port u).outOpen) ∧
    (∀ bs, i = .decompressBytes bs → t.decPort.inOpen = true ∧ t.decPort.outOpen = true)

/-- R20, R62, R209: what an operation of one unit does depends on that unit and its streams alone. Two states that agree on
them (and on the counter of free values, assumption 3) end alike there, with the same output, whatever the other unit
holds. -/
def Obligations.AUnitLearnsNothingOfTheOther : Prop :=
  ∀ (i : Instr) (s s' t : State), s.freeIdx = s'.freeIdx → exec i s = .next t →
    (isEncOp i = true → s.enc = s'.enc → s.encPort = s'.encPort →
      ∃ t', exec i s' = .next t' ∧ t'.enc = t.enc ∧ t'.encPort = t.encPort ∧ t'.outputs = t.outputs) ∧
    (isDecOp i = true → s.dec = s'.dec → s.decPort = s'.decPort →
      ∃ t', exec i s' = .next t' ∧ t'.dec = t.dec ∧ t'.decPort = t.decPort ∧ t'.outputs = t.outputs)

/-! ### Whole streams -/

/-- R126, R129: with writes that succeed, `COMPRESS b` of at most `2^32 - 256` bytes ends in `DONE`. It emits no code for
an empty input and else one more than the rows it added, at most one a byte, each as four bytes in the sink; nothing of
`DEC`, of the input or of earlier output changes. (A composite is one step, assumption 20.) -/
def Obligations.CompressEndsInDone : Prop :=
  ∀ (s : State) (b : ByteSeq), s.encPort.writes = [] → b.length ≤ 2 ^ 32 - 256 →
    ∃ (t : State) (ks : CodeSeq), exec (.compress b) s = .next t ∧ t.outputs = ks.map .code ∧
      t.enc.phase = .done ∧ t.enc.fault = .none ∧ t.enc.bytesIn = b.length ∧ t.enc.codesOut = ks.length ∧
      (b = [] → ks = [] ∧ t.enc.tbl.next = 256) ∧
      (b ≠ [] → t.enc.tbl.next = 256 + (ks.length - 1) ∧ 1 ≤ ks.length ∧ ks.length ≤ b.length) ∧
      t.encPort = { s.encPort with
        past := s.encPort.past ++ s.encPort.sent, sent := ks.flatMap leBytes } ∧
      t.dec = s.dec ∧ t.decPort = s.decPort ∧ t.moves = s.moves

/-- R126, closed form: what `COMPRESS b` emits, and the table it leaves, are those of the greedy parse of `b` into longest
known phrases. -/
def Obligations.CompressIsTheGreedyParse : Prop :=
  ∀ (s : State) (b : ByteSeq), s.encPort.writes = [] → b.length ≤ 2 ^ 32 - 256 →
    ∃ t, exec (.compress b) s = .next t ∧
      t.outputs = (greedyParse b.length (EncTable.literals Config.hw) b).1.map .code ∧
      t.enc.tbl = (greedyParse b.length (EncTable.literals Config.hw) b).2

/-- R88, R177: `COMPRESSBYTES b` leaves the state that `COMPRESS b` leaves, but answers the concatenation of the four-byte
fields of its codes. -/
def Obligations.CompressBytesPacksTheCodes : Prop :=
  ∀ (s : State) (b : ByteSeq), s.encPort.writes = [] → b.length ≤ 2 ^ 32 - 256 →
    ∃ (t : State) (ks : CodeSeq), exec (.compress b) s = .next t ∧ t.outputs = ks.map .code ∧
      exec (.compressBytes b) s = .next { t with outputs := (ks.flatMap leBytes).map .byte } ∧
      (ks.flatMap leBytes).length = 4 * ks.length

/-- R150, R152: with writes that succeed, `DECOMPRESS ks` of codes a field can hold ends in `DONE` with the output and the
table of the previous-token decoder, or, where that one meets a code it cannot resolve, in `FAULT` with `DecodeError` of
the same code; nothing of `ENC`, of the input or of earlier output changes. -/
def Obligations.DecompressIsThePreviousTokenDecoder : Prop :=
  ∀ (s : State) (ks : CodeSeq), s.decPort.writes = [] → (∀ k ∈ ks, k < 2 ^ 32) →
    ∃ t, exec (.decompress ks) s = .next t ∧ t.enc = s.enc ∧ t.encPort = s.encPort ∧ t.moves = s.moves ∧
      t.decPort.past = s.decPort.past ++ s.decPort.sent ∧ t.decPort.input = s.decPort.input ∧
      match previousToken (DecTable.literals Config.hw) none [] ks with
      | .ok (tbl, out) => t.dec.phase = .done ∧ t.dec.fault = .none ∧ t.outputs = out.map .byte ∧ t.dec.tbl = tbl ∧
          t.decPort.sent = out ∧ t.dec.codesIn = ks.length
      | .error k => t.dec.phase = .fault ∧ t.dec.fault = .decodeError (.code k) ∧ t.outputs = []

/-- R175, R177: with calls that succeed, `DECOMPRESSBYTES bs` does to `DEC` and its sink what `DECOMPRESS` does on the codes
that `bs` frames, a short fragment dropped; where it ends in `DONE` all of `bs` has been read. (All of `DEC` is meant, `cw` in
`DONE` included, assumption 24.) -/
def Obligations.DecompressBytesDecodesTheFramedCodes : Prop :=
  ∀ (s : State) (bs : ByteSeq), s.decPort.reads = [] → s.decPort.writes = [] →
    ∃ t u, exec (.decompressBytes bs) s = .next t ∧ exec (.decompress (framedCodes bs)) s = .next u ∧
      t.dec = u.dec ∧ t.outputs = u.outputs ∧ observe t .dec = observe u .dec ∧
      (t.dec.phase = .done → t.decPort.input = [] ∧ t.decPort.ended = true) ∧
      (t.dec.phase = .done ∨ t.dec.phase = .fault) ∧
      t.enc = s.enc ∧ t.encPort = s.encPort ∧ t.moves = s.moves

/-- R148, R177: a stream cut anywhere decodes as the stream cut down to whole codes (`cw` in `DONE` included, assumption
24). -/
def Obligations.ATruncatedStreamDecodesAsItsWholeCodes : Prop :=
  ∀ (s : State) (bs : ByteSeq), s.decPort.reads = [] → s.decPort.writes = [] →
    ∃ t u, exec (.decompressBytes bs) s = .next t ∧
      exec (.decompressBytes (bs.take (4 * (bs.length / 4)))) s = .next u ∧
      t.dec = u.dec ∧ t.outputs = u.outputs ∧ observe t .dec = observe u .dec

/-- R155, R38 (a), (d): the round trip. With collaborators that do not fail, for every input of at most `2^32 - 256` bytes,
the empty one included, `DECOMPRESS` of the codes that `COMPRESS` emits ends in `DONE`, without a fault, with the input as
its output. -/
def Obligations.DecompressUndoesCompress : Prop :=
  ∀ (s : State) (b : ByteSeq), s.encPort.writes = [] → s.decPort.writes = [] → b.length ≤ 2 ^ 32 - 256 →
    ∃ (t : State) (ks : CodeSeq) (u : State), exec (.compress b) s = .next t ∧ t.outputs = ks.map .code ∧ exec (.decompress ks) t = .next u ∧
      u.dec.phase = .done ∧ u.dec.fault = .none ∧ u.outputs = b.map .byte ∧ u.decPort.sent = b

/-- R38 (b), (c), R63, R226: the lockstep of the tables. After that round trip the two counters are equal and the decode table is
the inverse of the encode table. For every `j` from 1 to the number of codes less one, the entry of code `255 + j` is added
by `ENC` in the step that emits code number `j` of the stream, and by `DEC`, with the same word, in the step that consumes
code number `j + 1`: run event by event, each table lacks the code before that step and has it after. -/
def Obligations.TheTwoTablesEndInLockstep : Prop :=
  ∀ (s : State) (b : ByteSeq), s.encPort.writes = [] → s.decPort.writes = [] → b.length ≤ 2 ^ 32 - 256 →
    ∃ (t : State) (ks : CodeSeq) (u : State), exec (.compress b) s = .next t ∧ t.outputs = ks.map .code ∧ exec (.decompress ks) t = .next u ∧
      u.dec.tbl.next = t.enc.tbl.next ∧ (∀ k w, u.dec.tbl.get k = some w ↔ t.enc.tbl.get w = some k) ∧
      ∀ j, 1 ≤ j → j < ks.length → ∃ (p q : ByteSeq) (c : Byte) (k k' : Nat) (w : Word) (e e' d d' : State),
        b = p ++ c :: q ∧ ks[j - 1]? = some k ∧ ks[j]? = some k' ∧ t.enc.tbl.get w = some (255 + j) ∧
        after (.eStart :: p.map .eByte) s = some e ∧ exec (.eByte c) e = .next e' ∧
        e'.outputs = [.code k] ∧ e'.enc.codesOut = j ∧
        (∀ v, e.enc.tbl.get v ≠ some (255 + j)) ∧ e'.enc.tbl.get w = some (255 + j) ∧
        after (.dStart :: (ks.take j).map .dCode) t = some d ∧ exec (.dCode k') d = .next d' ∧
        d'.dec.phase = .run ∧ d'.dec.codesIn = j + 1 ∧
        d.dec.tbl.get (255 + j) = none ∧ d'.dec.tbl.get (255 + j) = some w

/-- R155, R177: the round trip from bytes to bytes, with `Pack` and `Unpack` between. -/
def Obligations.DecompressBytesUndoesCompressBytes : Prop :=
  ∀ (s : State) (b : ByteSeq), s.noFailures .enc = true → s.noFailures .dec = true → b.length ≤ 2 ^ 32 - 256 →
    ∃ (t : State) (bs : ByteSeq) (u : State), exec (.compressBytes b) s = .next t ∧ t.outputs = bs.map .byte ∧ t.encPort.sent = bs ∧
      exec (.decompressBytes bs) t = .next u ∧ u.dec.phase = .done ∧ u.dec.fault = .none ∧ u.outputs = b.map .byte ∧
      observe u .dec = .finished b

/-- R231 (a): the end of a stream is not marked. A well-formed code stream cut at a code boundary decodes without a fault to
a beginning of what the whole stream decodes to. -/
def Obligations.ACutAtACodeBoundaryIsNotDetected : Prop :=
  ∀ (s t : State) (ks : CodeSeq) (n : Nat), s.decPort.writes = [] → exec (.decompress ks) s = .next t →
    t.dec.phase = .done →
    ∃ u rest, exec (.decompress (ks.take n)) s = .next u ∧ u.dec.phase = .done ∧ t.outputs = u.outputs ++ rest
end

