-- ==== Sys2Proof/Laws/State.lean ====
section
/-! SUPPORT. One lemma per field per named update of State, so that no later proof unfolds a record update. -/

namespace Sys2Proof.Machine

variable (s : State) (e : Enc) (d : Dec) (p : Port) (m : List HostMove) (o : List Output) (u : UnitId)

@[simp] theorem setEnc_enc : (s.setEnc e).enc = e := rfl
@[simp] theorem setEnc_dec : (s.setEnc e).dec = s.dec := rfl
@[simp] theorem setEnc_encPort : (s.setEnc e).encPort = s.encPort := rfl
@[simp] theorem setEnc_decPort : (s.setEnc e).decPort = s.decPort := rfl
@[simp] theorem setEnc_moves : (s.setEnc e).moves = s.moves := rfl
@[simp] theorem setEnc_outputs : (s.setEnc e).outputs = s.outputs := rfl
@[simp] theorem setEnc_freeIdx : (s.setEnc e).freeIdx = s.freeIdx := rfl
@[simp] theorem setEnc_port : (s.setEnc e).port u = s.port u := by cases u <;> rfl
@[simp] theorem setEnc_setEnc (e' : Enc) : (s.setEnc e).setEnc e' = s.setEnc e' := rfl
@[simp] theorem setEnc_self : s.setEnc s.enc = s := rfl

@[simp] theorem setDec_enc : (s.setDec d).enc = s.enc := rfl
@[simp] theorem setDec_dec : (s.setDec d).dec = d := rfl
@[simp] theorem setDec_encPort : (s.setDec d).encPort = s.encPort := rfl
@[simp] theorem setDec_decPort : (s.setDec d).decPort = s.decPort := rfl
@[simp] theorem setDec_moves : (s.setDec d).moves = s.moves := rfl
@[simp] theorem setDec_outputs : (s.setDec d).outputs = s.outputs := rfl
@[simp] theorem setDec_freeIdx : (s.setDec d).freeIdx = s.freeIdx := rfl
@[simp] theorem setDec_port : (s.setDec d).port u = s.port u := by cases u <;> rfl
@[simp] theorem setDec_setDec (d' : Dec) : (s.setDec d).setDec d' = s.setDec d' := rfl
@[simp] theorem setDec_self : s.setDec s.dec = s := rfl

@[simp] theorem setMoves_enc : (s.setMoves m).enc = s.enc := rfl
@[simp] theorem setMoves_dec : (s.setMoves m).dec = s.dec := rfl
@[simp] theorem setMoves_encPort : (s.setMoves m).encPort = s.encPort := rfl
@[simp] theorem setMoves_decPort : (s.setMoves m).decPort = s.decPort := rfl
@[simp] theorem setMoves_moves : (s.setMoves m).moves = m := rfl
@[simp] theorem setMoves_outputs : (s.setMoves m).outputs = s.outputs := rfl
@[simp] theorem setMoves_freeIdx : (s.setMoves m).freeIdx = s.freeIdx := rfl
@[simp] theorem setMoves_port : (s.setMoves m).port u = s.port u := by cases u <;> rfl

@[simp] theorem setOutputs_enc : (s.setOutputs o).enc = s.enc := rfl
@[simp] theorem setOutputs_dec : (s.setOutputs o).dec = s.dec := rfl
@[simp] theorem setOutputs_encPort : (s.setOutputs o).encPort = s.encPort := rfl
@[simp] theorem setOutputs_decPort : (s.setOutputs o).decPort = s.decPort := rfl
@[simp] theorem setOutputs_moves : (s.setOutputs o).moves = s.moves := rfl
@[simp] theorem setOutputs_outputs : (s.setOutputs o).outputs = o := rfl
@[simp] theorem setOutputs_freeIdx : (s.setOutputs o).freeIdx = s.freeIdx := rfl
@[simp] theorem setOutputs_port : (s.setOutputs o).port u = s.port u := by cases u <;> rfl
@[simp] theorem setOutputs_setOutputs (o' : List Output) : (s.setOutputs o).setOutputs o' = s.setOutputs o' := rfl

@[simp] theorem setPort_enc : (s.setPort u p).enc = s.enc := by cases u <;> rfl
@[simp] theorem setPort_dec : (s.setPort u p).dec = s.dec := by cases u <;> rfl
@[simp] theorem setPort_moves : (s.setPort u p).moves = s.moves := by cases u <;> rfl
@[simp] theorem setPort_outputs : (s.setPort u p).outputs = s.outputs := by cases u <;> rfl
@[simp] theorem setPort_freeIdx : (s.setPort u p).freeIdx = s.freeIdx := by cases u <;> rfl
@[simp] theorem setPort_port : (s.setPort u p).port u = p := by cases u <;> rfl
@[simp] theorem setPort_setPort (p' : Port) : (s.setPort u p).setPort u p' = s.setPort u p' := by cases u <;> rfl
@[simp] theorem setPort_encPort_enc : (s.setPort .enc p).encPort = p := rfl
@[simp] theorem setPort_decPort_enc : (s.setPort .enc p).decPort = s.decPort := rfl
@[simp] theorem setPort_encPort_dec : (s.setPort .dec p).encPort = s.encPort := rfl
@[simp] theorem setPort_decPort_dec : (s.setPort .dec p).decPort = p := rfl
@[simp] theorem port_enc : s.port .enc = s.encPort := rfl
@[simp] theorem port_dec : s.port .dec = s.decPort := rfl

/-! A state is its seven fields: two states with equal fields are equal. -/

theorem State.eq_of_fields {s t : State} (h1 : s.enc = t.enc) (h2 : s.dec = t.dec) (h3 : s.encPort = t.encPort)
    (h4 : s.decPort = t.decPort) (h5 : s.moves = t.moves) (h6 : s.outputs = t.outputs) (h7 : s.freeIdx = t.freeIdx) :
    s = t := by
  cases s; cases t; simp_all

/-! ### Sequencing -/

@[simp] theorem bind_ok {α β : Type} (a : α) (t : State) (k : α → State → Res β) : (Res.ok a t).bind k = k a t := rfl
@[simp] theorem bind_raise {α β : Type} (c : Cause) (t : State) (k : α → State → Res β) :
    (Res.raise c t : Res α).bind k = .raise c t := rfl
@[simp] theorem bind_stuck {α β : Type} (f : Fault) (k : α → State → Res β) :
    (Res.stuck f : Res α).bind k = .stuck f := rfl
@[simp] theorem bind_refuse {α β : Type} (r : Refusal) (k : α → State → Res β) :
    (Res.refuse r : Res α).bind k = .refuse r := rfl

/-- A sequence that completes: the first part completed, and so did the second from there. -/
theorem bind_eq_ok {α β : Type} {r : Res α} {k : α → State → Res β} {b : β} {t : State}
    (h : r.bind k = .ok b t) : ∃ a u, r = .ok a u ∧ k a u = .ok b t := by
  cases r with
  | ok a u => exact ⟨a, u, rfl, h⟩
  | raise c u => cases h
  | stuck f => cases h
  | refuse r => cases h

/-- A sequence that raises: one of its parts did. -/
theorem bind_eq_raise {α β : Type} {r : Res α} {k : α → State → Res β} {c : Cause} {t : State}
    (h : r.bind k = .raise c t) : r = .raise c t ∨ ∃ a u, r = .ok a u ∧ k a u = .raise c t := by
  cases r with
  | ok a u => exact .inr ⟨a, u, rfl, h⟩
  | raise c' u => exact .inl (by simpa using h)
  | stuck f => cases h
  | refuse r => cases h

@[simp] theorem finish_ok (s0 : State) : finish u s0 (.ok o s) = .next (s.setOutputs o) := rfl
@[simp] theorem finish_stuck (f : Fault) : finish u s (.stuck f) = .fault f := rfl
@[simp] theorem finish_refuse (r : Refusal) : finish u s (.refuse r) = .refused r := rfl

/-- A unit with a stream in progress is live. -/
theorem tableLive_of_streaming (h : s.streaming u = true) : s.tableLive u = true := by
  cases u <;> simp_all [State.streaming, State.tableLive]

/-- A live unit has not faulted. -/
theorem not_faulted_of_tableLive (h : s.tableLive u = true) : s.faulted u = false := by
  cases u
  · cases hp : s.enc.phase <;> simp_all [State.tableLive, State.faulted]
  · cases hp : s.dec.phase <;> simp_all [State.tableLive, State.faulted]

@[simp] theorem setMoves_streaming : (s.setMoves m).streaming u = s.streaming u := by cases u <;> rfl
@[simp] theorem setMoves_fed : (s.setMoves m).fed u = s.fed u := by cases u <;> rfl
@[simp] theorem setPort_streaming (v : UnitId) : (s.setPort v p).streaming u = s.streaming u := by cases u <;> cases v <;> rfl

/-- A unit fed by its cursor has a stream in progress. -/
theorem streaming_of_fed (h : s.fed u = true) : s.streaming u = true := by
  simp [State.fed] at h; exact h.1

/-- A raise in a stream takes the fault (R202). -/
theorem finish_raise {s0 : State} (c : Cause) (h : s0.streaming u = true) :
    finish u s0 (.raise c s) = .next (enterFault u c s0 s) := by
  simp [finish, h]

/-- Outside a stream no fault can be taken (R29, R130, R157). -/
theorem finish_raise_refused {s0 : State} (c : Cause) (h : s0.streaming u = false) :
    finish u s0 (.raise c s) = .refused (.wrongPhase u) := by
  simp [finish, h]

/-- Everything a step of unit `u` can do when it answers a next state: its statements completed, or it took a fault. -/
theorem finish_cases {u : UnitId} {s0 t : State} {r : Res (List Output)} (h : finish u s0 r = .next t) :
    (∃ o s, r = .ok o s ∧ t = s.setOutputs o) ∨
    (∃ c s, r = .raise c s ∧ s0.streaming u = true ∧ t = enterFault u c s0 s) := by
  cases r with
  | ok o s => exact .inl ⟨o, s, rfl, by simpa using h.symm⟩
  | raise c s =>
    by_cases hf : s0.streaming u = true
    · exact .inr ⟨c, s, rfl, hf, by simpa [finish, hf] using h.symm⟩
    · simp [finish, hf] at h
  | stuck f => cases h
  | refuse r => cases h

end Sys2Proof.Machine
end

