-- ==== Sys2Proof/Laws/Tables.lean ====
section
/-! SUPPORT. The tables as maps: reading, appending, and the canonical form that every table operation keeps. -/

namespace Sys2Proof.Machine

/-! ### Maps held as lists of pairs -/

@[simp] theorem assocGet_nil {α β : Type} [DecidableEq α] (k : α) : assocGet k ([] : List (α × β)) = none := rfl

@[simp] theorem assocGet_cons {α β : Type} [DecidableEq α] (k : α) (p : α × β) (l : List (α × β)) :
    assocGet k (p :: l) = if p.1 = k then some p.2 else assocGet k l := rfl

/-- A key that is read stands in the map with that value. -/
theorem mem_of_assocGet {α β : Type} [DecidableEq α] {k : α} {b : β} :
    ∀ {l : List (α × β)}, assocGet k l = some b → (k, b) ∈ l
  | [], h => by cases h
  | (a, c) :: l, h => by
    simp only [assocGet_cons] at h
    split at h
    · next he => simp_all
    · exact List.mem_cons_of_mem _ (mem_of_assocGet h)

/-- A key is absent exactly when no pair has it. -/
theorem assocGet_eq_none {α β : Type} [DecidableEq α] {k : α} {l : List (α × β)} :
    assocGet k l = none ↔ k ∉ l.map (·.1) := by
  induction l with
  | nil => simp
  | cons p l ih =>
    simp only [assocGet_cons, List.map_cons, List.mem_cons, not_or]
    split
    · next h => simp [h]
    · next h => rw [ih]; exact ⟨fun h' => ⟨fun e => h e.symm, h'⟩, fun h' => h'.2⟩

theorem assocGet_isSome {α β : Type} [DecidableEq α] {k : α} {l : List (α × β)} :
    (assocGet k l).isSome = true ↔ k ∈ l.map (·.1) := by
  rw [← not_iff_not, Bool.not_eq_true, Option.isSome_eq_false_iff, Option.isNone_iff_eq_none, assocGet_eq_none]

/-- With no key twice, every pair is what reading its key gives. -/
theorem assocGet_of_mem {α β : Type} [DecidableEq α] {k : α} {b : β} {l : List (α × β)}
    (hn : (l.map (·.1)).Nodup) (h : (k, b) ∈ l) : assocGet k l = some b := by
  induction l with
  | nil => cases h
  | cons p l ih =>
    simp only [List.map_cons, List.nodup_cons] at hn
    rcases List.mem_cons.1 h with rfl | h
    · simp
    · have : p.1 ≠ k := fun e => hn.1 (e ▸ List.mem_map_of_mem (f := (·.1)) h)
      simp [this, ih hn.2 h]

/-- Reading a map with one more row at its end. -/
theorem assocGet_append_single {α β : Type} [DecidableEq α] (k a : α) (b : β) (l : List (α × β)) :
    assocGet k (l ++ [(a, b)]) = (assocGet k l).or (if a = k then some b else none) := by
  induction l with
  | nil => simp
  | cons p l ih => simp only [List.cons_append, assocGet_cons, ih]; split <;> simp

/-! ### The encode table -/

theorem EncTable.has_iff {t : EncTable} {w : Word} : t.has w = true ↔ w ∈ t.entries.map (·.1) := assocGet_isSome

theorem EncTable.has_iff_get {t : EncTable} {w : Word} : t.has w = true ↔ ∃ k, t.get w = some k :=
  Option.isSome_iff_exists

@[simp] theorem EncTable.append_next (t : EncTable) (w : Word) : (t.append w).next = t.next + 1 := rfl

@[simp] theorem EncTable.append_entries (t : EncTable) (w : Word) :
    (t.append w).entries = t.entries ++ [(w, t.next)] := rfl

/-- The new word reads as the old counter (R104). -/
theorem EncTable.get_append_self {t : EncTable} {w : Word} (h : t.has w = false) :
    (t.append w).get w = some t.next := by
  have : assocGet w t.entries = none := by simpa [EncTable.has, EncTable.get] using h
  simp [EncTable.get, assocGet_append_single, this]

/-- Every other word reads as before (R24). -/
theorem EncTable.get_append_ne {t : EncTable} {w v : Word} (h : v ≠ w) : (t.append w).get v = t.get v := by
  simp [EncTable.get, assocGet_append_single, h.symm]

/-- A word that was there reads as before (R24). -/
theorem EncTable.get_append_of_has {t : EncTable} {w v : Word} {k : Nat} (h : t.get v = some k) :
    (t.append w).get v = some k := by
  simp only [EncTable.get] at h ⊢
  simp [assocGet_append_single, h]

/-- Adding an absent word keeps the canonical form. -/
theorem EncTable.wf_append {t : EncTable} {w : Word} (h : t.wf) (hw : t.has w = false) : (t.append w).wf := by
  obtain ⟨hp, hb, hk⟩ := h
  have hw' : w ∉ t.entries.map (·.1) := fun hm => by simp [EncTable.has_iff.2 hm] at hw
  refine ⟨?_, ?_, ?_⟩
  · simpa [List.pairwise_append] using ⟨by simpa using hp, by simpa using hb⟩
  · simp only [EncTable.append_entries, EncTable.append_next, List.map_append, List.mem_append]
    rintro k (hm | hm)
    · exact Nat.lt_succ_of_lt (hb k hm)
    · simp only [List.map_cons, List.map_nil, List.mem_singleton] at hm; rw [hm]; exact Nat.lt_succ_self _
  · rw [EncTable.append_entries, List.map_append, List.nodup_append]
    exact ⟨hk, by simp, by rintro a ha b hb' rfl; simp at hb'; exact hw' (hb' ▸ ha)⟩

/-! ### The decode table -/

@[simp] theorem DecTable.append_next (t : DecTable) (w : Word) : (t.append w).next = t.next + 1 := rfl

@[simp] theorem DecTable.append_entries (t : DecTable) (w : Word) :
    (t.append w).entries = t.entries ++ [(t.next, w)] := rfl

/-- No code at or above the counter is present in a canonical table. -/
theorem DecTable.get_of_ge {t : DecTable} (h : t.wf) {k : Nat} (hk : t.next ≤ k) : t.get k = none := by
  rw [DecTable.get, assocGet_eq_none]
  intro hm
  exact absurd (h.2 k hm) (Nat.not_lt.2 hk)

/-- The new code reads as the new word at once (R66, R105). -/
theorem DecTable.get_append_self {t : DecTable} (h : t.wf) (w : Word) : (t.append w).get t.next = some w := by
  have : assocGet t.next t.entries = none := DecTable.get_of_ge h (le_refl _)
  simp [DecTable.get, assocGet_append_single, this]

/-- Every other code reads as before (R24). -/
theorem DecTable.get_append_ne {t : DecTable} {w : Word} {k : Nat} (h : k ≠ t.next) :
    (t.append w).get k = t.get k := by
  simp [DecTable.get, assocGet_append_single, h.symm]

/-- Adding a word keeps the canonical form. -/
theorem DecTable.wf_append {t : DecTable} (w : Word) (h : t.wf) : (t.append w).wf := by
  obtain ⟨hp, hb⟩ := h
  refine ⟨?_, ?_⟩
  · simpa [List.pairwise_append] using ⟨by simpa using hp, by simpa using hb⟩
  · simp only [DecTable.append_entries, DecTable.append_next, List.map_append, List.mem_append]
    rintro k (hm | hm)
    · exact Nat.lt_succ_of_lt (hb k hm)
    · simp only [List.map_cons, List.map_nil, List.mem_singleton] at hm; rw [hm]; exact Nat.lt_succ_self _

/-! ### The preloaded tables -/

theorem EncTable.literals_codes : (EncTable.literals Config.hw).entries.map (·.2) = List.range 256 := by
  simp [EncTable.literals, Config.hw, Function.comp_def]

theorem DecTable.literals_codes : (DecTable.literals Config.hw).entries.map (·.1) = List.range 256 := by
  simp [DecTable.literals, Config.hw, Function.comp_def]

@[simp] theorem EncTable.literals_next : (EncTable.literals Config.hw).next = 256 := rfl
@[simp] theorem DecTable.literals_next : (DecTable.literals Config.hw).next = 256 := rfl

theorem EncTable.mem_literals {w : Word} {k : Nat} :
    (w, k) ∈ (EncTable.literals Config.hw).entries ↔ ∃ b : Byte, w = [b] ∧ k = b.toNat := by
  simp only [EncTable.literals, Config.hw, List.mem_map, List.mem_range, Prod.mk.injEq]
  constructor
  · rintro ⟨n, hn, rfl, rfl⟩
    exact ⟨BitVec.ofNat 8 n, rfl, by rw [BitVec.toNat_ofNat, Nat.mod_eq_of_lt hn]⟩
  · rintro ⟨b, rfl, rfl⟩
    exact ⟨b.toNat, b.isLt, by simp, rfl⟩

theorem DecTable.mem_literals {w : Word} {k : Nat} :
    (k, w) ∈ (DecTable.literals Config.hw).entries ↔ ∃ b : Byte, w = [b] ∧ k = b.toNat := by
  simp only [DecTable.literals, Config.hw, List.mem_map, List.mem_range, Prod.mk.injEq]
  constructor
  · rintro ⟨n, hn, rfl, rfl⟩
    exact ⟨BitVec.ofNat 8 n, rfl, by rw [BitVec.toNat_ofNat, Nat.mod_eq_of_lt hn]⟩
  · rintro ⟨b, rfl, rfl⟩
    exact ⟨b.toNat, b.isLt, rfl, by simp⟩

theorem EncTable.literals_keys : ((EncTable.literals Config.hw).entries.map (·.1)).Nodup := by
  simp only [EncTable.literals, Config.hw, List.map_map, Function.comp_def]
  refine List.Nodup.map_on ?_ List.nodup_range
  intro a ha b hb h
  simp only [List.cons.injEq, and_true] at h
  have := congrArg BitVec.toNat h
  simp only [BitVec.toNat_ofNat] at this
  simp only [List.mem_range] at ha hb
  omega

/-- The preloaded encode table is canonical. -/
theorem EncTable.wf_literals : (EncTable.literals Config.hw).wf := by
  refine ⟨?_, ?_, EncTable.literals_keys⟩
  · rw [EncTable.literals_codes]; exact List.pairwise_lt_range
  · rw [EncTable.literals_codes]; intro k hk; simpa using hk

/-- The preloaded decode table is canonical. -/
theorem DecTable.wf_literals : (DecTable.literals Config.hw).wf := by
  refine ⟨?_, ?_⟩
  · rw [DecTable.literals_codes]; exact List.pairwise_lt_range
  · rw [DecTable.literals_codes]; intro k hk; simpa using hk

/-- A one-byte word reads as its byte in the preloaded encode table (R23). -/
theorem EncTable.literals_get (b : Byte) : (EncTable.literals Config.hw).get [b] = some b.toNat :=
  assocGet_of_mem EncTable.literals_keys (EncTable.mem_literals.2 ⟨b, rfl, rfl⟩)

/-- A literal code reads as its one-byte word in the preloaded decode table (R23). -/
theorem DecTable.literals_get (b : Byte) : (DecTable.literals Config.hw).get b.toNat = some [b] := by
  refine assocGet_of_mem ?_ (DecTable.mem_literals.2 ⟨b, rfl, rfl⟩)
  rw [DecTable.literals_codes]; exact List.nodup_range

/-! ### The table operations -/

/-- Everything `T.ADDW` can do when it completes (R104). -/
theorem tblAddW_ok {cfg : Config} {w : Word} {s t : State} {a : Unit} (h : tblAddW cfg w s = .ok a t) :
    w ≠ [] ∧ s.enc.tbl.has w = false ∧ tableIsFull cfg s.enc.tbl.next = false ∧
      t = s.setEnc { s.enc with tbl := s.enc.tbl.append w } := by
  unfold tblAddW at h
  split_ifs at h with h1 h2 h3
  exact ⟨h1, by simpa using h2, by simpa using h3, by simpa using h.symm⟩

/-- Everything `T.ADDC` can do when it completes (R105). -/
theorem tblAddC_ok {cfg : Config} {w : Word} {s t : State} {a : Unit} (h : tblAddC cfg w s = .ok a t) :
    w ≠ [] ∧ tableIsFull cfg s.dec.tbl.next = false ∧ t = s.setDec { s.dec with tbl := s.dec.tbl.append w } := by
  unfold tblAddC at h
  split_ifs at h with h1 h2
  exact ⟨h1, by simpa using h2, by simpa using h.symm⟩

/-- A lookup that completes changes nothing (R59, R102). -/
theorem tblLookupW_ok {w : Word} {s t : State} {k : Nat} (h : tblLookupW w s = .ok k t) :
    s.enc.tbl.get w = some k ∧ t = s := by
  unfold tblLookupW at h
  split at h
  · next hk => simp at h; exact ⟨by rw [hk, h.1], h.2.symm⟩
  · cases h

/-- A lookup that completes changes nothing (R59, R103). -/
theorem tblLookupC_ok {k : Nat} {s t : State} {w : Word} (h : tblLookupC k s = .ok w t) :
    k < s.dec.tbl.next ∧ s.dec.tbl.get k = some w ∧ t = s := by
  unfold tblLookupC at h
  split_ifs at h with hk
  split at h
  · next hw => simp at h; exact ⟨hk, by rw [hw, h.1], h.2.symm⟩
  · cases h

/-- A raise of a table operation leaves the state it was raised in. -/
theorem tblAddW_raise {cfg : Config} {w : Word} {s t : State} {c : Cause} (h : tblAddW cfg w s = .raise c t) : t = s := by
  unfold tblAddW at h
  split_ifs at h <;> simp_all

theorem tblAddC_raise {cfg : Config} {w : Word} {s t : State} {c : Cause} (h : tblAddC cfg w s = .raise c t) : t = s := by
  unfold tblAddC at h
  split_ifs at h
  all_goals simp_all

theorem tblLookupW_raise {w : Word} {s t : State} {c : Cause} (h : tblLookupW w s = .raise c t) :
    t = s ∧ c = .decodeError (.word w) ∧ s.enc.tbl.get w = none := by
  unfold tblLookupW at h
  split at h <;> simp_all

theorem tblLookupC_raise {k : Nat} {s t : State} {c : Cause} (h : tblLookupC k s = .raise c t) :
    t = s ∧ c = .decodeError (.code k) := by
  unfold tblLookupC at h
  split_ifs at h
  · split at h <;> simp_all
  · simp_all

/-- `TblInit` leaves both tables canonical where the other one was. -/
theorem Memory.wf_tblInitEnc {s : State} (h : Memory.wf s) : Memory.wf (tblInitEnc Config.hw s) := ⟨EncTable.wf_literals, h.2⟩

theorem Memory.wf_tblInitDec {s : State} (h : Memory.wf s) : Memory.wf (tblInitDec Config.hw s) := ⟨h.1, DecTable.wf_literals⟩

/-- `T.ADDW` keeps the canonical form. -/
theorem Memory.wf_tblAddW {cfg : Config} {w : Word} {s t : State} {a : Unit} (hs : Memory.wf s)
    (h : tblAddW cfg w s = .ok a t) : Memory.wf t := by
  obtain ⟨_, hw, _, rfl⟩ := tblAddW_ok h
  exact ⟨EncTable.wf_append hs.1 hw, hs.2⟩

/-- `T.ADDC` keeps the canonical form. -/
theorem Memory.wf_tblAddC {cfg : Config} {w : Word} {s t : State} {a : Unit} (hs : Memory.wf s)
    (h : tblAddC cfg w s = .ok a t) : Memory.wf t := by
  obtain ⟨_, _, rfl⟩ := tblAddC_ok h
  exact ⟨hs.1, DecTable.wf_append w hs.2⟩

/-- The power-on state is canonical. -/
theorem Memory.wf_reset : Memory.wf State.reset := by
  refine ⟨⟨?_, ?_, ?_⟩, ?_, ?_⟩ <;> simp [State.reset, Enc.powerOn, Dec.powerOn]

end Sys2Proof.Machine
end

