-- ==== Sys2Proof/Laws/Calls.lean ====
section
/-! SUPPORT. What a collaborator call, an emission and a fault can do, said once. -/

namespace Sys2Proof.Machine

/-! ### Reads -/

/-- A read that returns with a byte left: the byte, and the cursor one further (R172). -/
theorem callReadByte_cons {u : UnitId} {s : State} {c : Byte} {more : ByteSeq} (hf : (s.port u).inOpen = true)
    (he : (s.port u).ended = false) (hr : (s.port u).reads = []) (hi : (s.port u).input = c :: more) :
    callReadByte u s = .ok (.byte c) (s.setPort u { s.port u with reads := [], input := more }) := by
  simp [callReadByte, hf, he, hr, hi, nextAnswer]

/-- A read that returns with no byte left (R172). -/
theorem callReadByte_nil {u : UnitId} {s : State} (hf : (s.port u).inOpen = true) (he : (s.port u).ended = false)
    (hr : (s.port u).reads = []) (hi : (s.port u).input = []) :
    callReadByte u s = .ok .endOfStream (s.setPort u { s.port u with reads := [], ended := true }) := by
  simp [callReadByte, hf, he, hr, hi, nextAnswer]

/-- Everything a read can do when it answers: the port of the unit changes, and nothing else. -/
theorem callReadByte_ok {u : UnitId} {s t : State} {r : ReadResult} (h : callReadByte u s = .ok r t) :
    (s.port u).ended = false ∧ ∃ p, t = s.setPort u p ∧ p.sent = (s.port u).sent ∧ p.past = (s.port u).past ∧
      p.writes = (s.port u).writes := by
  unfold callReadByte at h
  split_ifs at h with hf he
  refine ⟨by simpa using he, ?_⟩
  split at h
  · cases h
  · cases h
  · split at h
    all_goals
      simp only [Res.ok.injEq] at h
      exact ⟨_, h.2.symm, rfl, rfl, rfl⟩

/-- A read that raises does so with the collaborator's value; only the oracle has moved. -/
theorem callReadByte_raise {u : UnitId} {s t : State} {c : Cause} (h : callReadByte u s = .raise c t) :
    ∃ e p, c = .ioError e ∧ t = s.setPort u p := by
  unfold callReadByte at h
  split_ifs at h with hf he
  split at h
  · cases h
  · simp only [Res.raise.injEq] at h
    exact ⟨_, _, h.1.symm, h.2.symm⟩
  · split at h <;> cases h

/-- Everything the loop of `ReadCode` can do when it answers. -/
theorem readField_ok {cfg : Config} {m : Nat} {f : ByteSeq} {s t : State} {r : CodeResult}
    (h : readField cfg m f s = .ok r t) :
    ∃ p, t = s.setPort .dec p ∧ p.sent = s.decPort.sent ∧ p.past = s.decPort.past ∧ p.writes = s.decPort.writes := by
  induction m generalizing f s with
  | zero =>
    simp only [readField, Res.ok.injEq] at h
    exact ⟨s.decPort, by rw [← h.2]; rfl, rfl, rfl, rfl⟩
  | succ m ih =>
    obtain ⟨a, u, ha, hk⟩ := bind_eq_ok h
    obtain ⟨_, p, rfl, h1, h2, h3⟩ := callReadByte_ok ha
    cases a with
    | endOfStream =>
      have : s.setPort .dec p = t := by
        by_cases hf : f = [] <;> simp [hf] at hk <;> exact hk.2
      exact ⟨p, this.symm, h1, h2, h3⟩
    | byte c =>
      obtain ⟨q, rfl, g1, g2, g3⟩ := ih hk
      exact ⟨q, by simp, by simpa using g1.trans h1, by simpa using g2.trans h2, by simpa using g3.trans h3⟩

/-- A raise of `ReadCode` is a failed read. -/
theorem readField_raise {cfg : Config} {m : Nat} {f : ByteSeq} {s t : State} {c : Cause}
    (h : readField cfg m f s = .raise c t) : ∃ e p, c = .ioError e ∧ t = s.setPort .dec p := by
  induction m generalizing f s with
  | zero => cases h
  | succ m ih =>
    rcases bind_eq_raise h with h | ⟨a, u, ha, hk⟩
    · exact callReadByte_raise h
    · obtain ⟨_, p, rfl, _⟩ := callReadByte_ok ha
      cases a with
      | endOfStream => by_cases hf : f = [] <;> simp [hf] at hk
      | byte c' =>
        obtain ⟨e, q, rfl, rfl⟩ := ih hk
        exact ⟨e, q, rfl, by simp⟩

/-! ### Writes -/

/-- A write that succeeds appends its bytes in order (R173). -/
theorem callWriteBytes_returns {u : UnitId} {bs : ByteSeq} {s : State} (hb : bs ≠ [])
    (hw : (nextAnswer (s.port u).writes).1 = .returns) :
    callWriteBytes u bs s = .ok () (s.setPort u
      { s.port u with writes := (nextAnswer (s.port u).writes).2, sent := (s.port u).sent ++ bs }) := by
  unfold callWriteBytes
  rw [if_neg hb]
  generalize nextAnswer (s.port u).writes = a at hw ⊢
  obtain ⟨a, r⟩ := a
  simp only at hw
  subst hw
  rfl

/-- A write that fails raises `IOError` with the collaborator's value (R176). -/
theorem callWriteBytes_fails {u : UnitId} {bs : ByteSeq} {s : State} {e : ErrVal} (hb : bs ≠ [])
    (hw : (nextAnswer (s.port u).writes).1 = .fails e) :
    callWriteBytes u bs s = .raise (.ioError e) (s.setPort u
      { s.port u with writes := (nextAnswer (s.port u).writes).2 }) := by
  unfold callWriteBytes
  rw [if_neg hb]
  generalize nextAnswer (s.port u).writes = a at hw ⊢
  obtain ⟨a, r⟩ := a
  simp only at hw
  subst hw
  rfl

/-- Everything a write can do when it succeeds: bytes appended, the oracle moved, nothing else. -/
theorem callWriteBytes_ok {u : UnitId} {bs : ByteSeq} {s t : State} {a : Unit} (h : callWriteBytes u bs s = .ok a t) :
    bs ≠ [] ∧ t = s.setPort u
      { s.port u with writes := (nextAnswer (s.port u).writes).2, sent := (s.port u).sent ++ bs } := by
  unfold callWriteBytes at h
  split_ifs at h with hb
  refine ⟨hb, ?_⟩
  split at h
  · cases h
  · cases h
  · next heq => simp only [Res.ok.injEq] at h; rw [heq]; exact h.2.symm

/-- A raise of a write. -/
theorem callWriteBytes_raise {u : UnitId} {bs : ByteSeq} {s t : State} {c : Cause}
    (h : callWriteBytes u bs s = .raise c t) : ∃ e p, c = .ioError e ∧ t = s.setPort u p := by
  unfold callWriteBytes at h
  split_ifs at h with hb
  split at h
  · cases h
  · simp only [Res.raise.injEq] at h
    exact ⟨_, _, h.1.symm, h.2.symm⟩
  · cases h

/-- Everything `emit_code` can do when it completes (R125). -/
theorem emitCode_ok {cfg : Config} {k : Nat} {s t : State} {a : Unit} (h : emitCode cfg k s = .ok a t) :
    ∃ bs, packField cfg k = some bs ∧ t = (s.setPort .enc
      { s.encPort with writes := (nextAnswer s.encPort.writes).2, sent := s.encPort.sent ++ bs }).setEnc
        { s.enc with codesOut := s.enc.codesOut + 1 } := by
  unfold emitCode at h
  split at h
  · cases h
  · next bs hp =>
    obtain ⟨_, u, h1, h2⟩ := bind_eq_ok h
    obtain ⟨_, rfl⟩ := callWriteBytes_ok h1
    simp only [Res.ok.injEq, true_and] at h2
    exact ⟨bs, hp, by rw [← h2]; rfl⟩

/-- A raise of `emit_code` is `CodeRange` or `IOError`; no register of a unit has changed (R125). -/
theorem emitCode_raise {cfg : Config} {k : Nat} {s t : State} {c : Cause} (h : emitCode cfg k s = .raise c t) :
    (c = .codeRange k ∧ packField cfg k = none ∧ t = s) ∨ ∃ e p, c = .ioError e ∧ t = s.setPort .enc p := by
  unfold emitCode at h
  split at h
  · next hp => simp only [Res.raise.injEq] at h; exact .inl ⟨h.1.symm, hp, h.2.symm⟩
  · rcases bind_eq_raise h with h | ⟨_, u, _, h2⟩
    · exact .inr (callWriteBytes_raise h)
    · cases h2

/-- Everything `emit_word` can do when it completes (R149). -/
theorem emitWord_ok {w : Word} {s t : State} {a : Unit} (h : emitWord w s = .ok a t) :
    w ≠ [] ∧ t = (s.setPort .dec
      { s.decPort with writes := (nextAnswer s.decPort.writes).2, sent := s.decPort.sent ++ w }).setDec
        { s.dec with bytesOut := s.dec.bytesOut + w.length } := by
  obtain ⟨_, u, h1, h2⟩ := bind_eq_ok h
  obtain ⟨hw, rfl⟩ := callWriteBytes_ok h1
  simp only [Res.ok.injEq, true_and] at h2
  exact ⟨hw, by rw [← h2]; rfl⟩

/-- A raise of `emit_word` is `IOError`. -/
theorem emitWord_raise {w : Word} {s t : State} {c : Cause} (h : emitWord w s = .raise c t) :
    ∃ e p, c = .ioError e ∧ t = s.setPort .dec p := by
  rcases bind_eq_raise h with h | ⟨_, u, _, h2⟩
  · exact callWriteBytes_raise h
  · cases h2

/-! ### Taking a fault (R202) -/

section
variable (c : Cause) (s0 s : State)

@[simp] theorem enterFault_enc : (enterFault .enc c s0 s).enc = { s0.enc with phase := .fault, fault := c } := rfl
@[simp] theorem enterFault_enc_dec : (enterFault .enc c s0 s).dec = s0.dec := by simp [enterFault]
@[simp] theorem enterFault_enc_decPort : (enterFault .enc c s0 s).decPort = s0.decPort := rfl
@[simp] theorem enterFault_dec : (enterFault .dec c s0 s).dec = { s0.dec with phase := .fault, fault := c } := rfl
@[simp] theorem enterFault_dec_enc : (enterFault .dec c s0 s).enc = s0.enc := by simp [enterFault]
@[simp] theorem enterFault_dec_encPort : (enterFault .dec c s0 s).encPort = s0.encPort := rfl
@[simp] theorem enterFault_outputs (u : UnitId) : (enterFault u c s0 s).outputs = [] := by cases u <;> rfl
@[simp] theorem enterFault_moves (u : UnitId) : (enterFault u c s0 s).moves = s0.moves := by cases u <;> rfl
@[simp] theorem enterFault_faulted (u : UnitId) : (enterFault u c s0 s).faulted u = true := by cases u <;> rfl

end

/-! ### The start of a stream (R120, R140) -/

@[simp] theorem Port.newOutput_newOutput (p : Port) : p.newOutput.newOutput = p.newOutput := by simp [Port.newOutput]

section
variable (cfg : Config) (s : State)

@[simp] theorem encBegin_enc : (encBegin cfg s).enc =
    { tbl := EncTable.literals cfg, ready := true, cur := [], phase := .run, fault := .none, bytesIn := 0, codesOut := 0 } :=
  rfl
@[simp] theorem encBegin_dec : (encBegin cfg s).dec = s.dec := rfl
@[simp] theorem encBegin_encPort : (encBegin cfg s).encPort = s.encPort.newOutput := rfl
@[simp] theorem encBegin_decPort : (encBegin cfg s).decPort = s.decPort := rfl
@[simp] theorem encBegin_moves : (encBegin cfg s).moves = s.moves := rfl
@[simp] theorem encBegin_outputs : (encBegin cfg s).outputs = s.outputs := rfl
@[simp] theorem encBegin_freeIdx : (encBegin cfg s).freeIdx = s.freeIdx := rfl
@[simp] theorem encBegin_setOutputs (o) : encBegin cfg (s.setOutputs o) = (encBegin cfg s).setOutputs o := rfl

@[simp] theorem decBegin_dec : (decBegin cfg s).dec =
    { s.dec with tbl := DecTable.literals cfg, ready := true, phase := .first, fault := .none, codesIn := 0, bytesOut := 0 } :=
  rfl
@[simp] theorem decBegin_enc : (decBegin cfg s).enc = s.enc := rfl
@[simp] theorem decBegin_decPort : (decBegin cfg s).decPort = s.decPort.newOutput := rfl
@[simp] theorem decBegin_encPort : (decBegin cfg s).encPort = s.encPort := rfl
@[simp] theorem decBegin_moves : (decBegin cfg s).moves = s.moves := rfl
@[simp] theorem decBegin_outputs : (decBegin cfg s).outputs = s.outputs := rfl
@[simp] theorem decBegin_freeIdx : (decBegin cfg s).freeIdx = s.freeIdx := rfl
@[simp] theorem decBegin_setOutputs (o) : decBegin cfg (s.setOutputs o) = (decBegin cfg s).setOutputs o := rfl

/-- Two starts in a row equal one (R120). -/
@[simp] theorem encBegin_encBegin : encBegin cfg (encBegin cfg s) = encBegin cfg s := by
  simp [encBegin, tblInitEnc, State.setPort, State.setEnc]

/-- Two starts in a row equal one (R140). -/
@[simp] theorem decBegin_decBegin : decBegin cfg (decBegin cfg s) = decBegin cfg s := by
  simp [decBegin, tblInitDec, State.setPort, State.setDec]

end

end Sys2Proof.Machine
end

