-- ==== Sys2Proof/Laws/Codec.lean ====
section
/-! SUPPORT. The token codec as arithmetic on lanes (R170, R171). -/

namespace Sys2Proof

@[simp] theorem lanes_zero (k : Nat) : lanes 0 k = [] := rfl
@[simp] theorem lanes_succ (n : Nat) (k : Nat) : lanes (n + 1) k = BitVec.ofNat 8 k :: lanes n (k / 256) := rfl
@[simp] theorem ofLanes_nil : ofLanes [] = 0 := rfl
@[simp] theorem ofLanes_cons (b : Byte) (r : ByteSeq) : ofLanes (b :: r) = b.toNat + 256 * ofLanes r := rfl

/-- A field has as many bytes as asked for. -/
@[simp] theorem lanes_length (n : Nat) (k : Nat) : (lanes n k).length = n := by
  induction n generalizing k with
  | zero => rfl
  | succ n ih => simp [ih]

/-- The order of a field's bytes does not change their number. -/
@[simp] theorem ordered_length (cfg : Config) (f : ByteSeq) : (cfg.ordered f).length = f.length := by
  unfold Config.ordered; split <;> simp

/-- Ordering twice is not ordering at all. -/
@[simp] theorem ordered_ordered (cfg : Config) (f : ByteSeq) : cfg.ordered (cfg.ordered f) = f := by
  unfold Config.ordered; split <;> simp

/-- A packed code has exactly `W` bytes (R170). -/
theorem packField_length {cfg : Config} {k : Nat} {bs : ByteSeq} (h : packField cfg k = some bs) :
    bs.length = cfg.codeBytes := by
  unfold packField at h
  split_ifs at h
  simp only [Option.some.injEq] at h
  simp [← h]

/-- A code that fits is packed (R170). -/
theorem packField_of_fits {cfg : Config} {k : Nat} (h : k < cfg.codeLimit) :
    packField cfg k = some (cfg.ordered (lanes cfg.codeBytes k)) := by simp [packField, h]

/-! ### Lanes and numbers -/

/-- The number of the lowest `n` lanes of `k` is `k` modulo `256^n`. -/
theorem ofLanes_lanes (n k : Nat) : ofLanes (lanes n k) = k % 256 ^ n := by
  induction n generalizing k with
  | zero => simp [Nat.mod_one]
  | succ n ih =>
    simp only [lanes, ofLanes, ih, BitVec.toNat_ofNat]
    show k % 256 + 256 * (k / 256 % 256 ^ n) = _
    rw [pow_succ' 256 n, Nat.mod_mul]

/-- The lanes of a field's number are the field. -/
theorem lanes_ofLanes (f : ByteSeq) : lanes f.length (ofLanes f) = f := by
  induction f with
  | nil => rfl
  | cons b r ih =>
    simp only [List.length_cons, lanes, ofLanes]
    congr 1
    · apply BitVec.eq_of_toNat_eq; simp; omega
    · rw [show (b.toNat + 256 * ofLanes r) / 256 = ofLanes r by have := b.isLt; omega]; exact ih

theorem ofLanes_lt (f : ByteSeq) : ofLanes f < 256 ^ f.length := by
  induction f with
  | nil => simp
  | cons b r ih => simp only [List.length_cons, ofLanes, pow_succ']; have := b.isLt; omega

/-- Lane `i` (R10). -/
theorem lanes_getElem? (n k i : Nat) (h : i < n) : (lanes n k)[i]? = some (BitVec.ofNat 8 (k / 256 ^ i)) := by
  induction n generalizing k i with
  | zero => omega
  | succ n ih =>
    cases i with
    | zero => simp [lanes]
    | succ i =>
      simp only [lanes, List.getElem?_cons_succ]
      rw [ih _ _ (by omega), Nat.div_div_eq_div_mul, pow_succ']

theorem codeLimit_eq (cfg : Config) : cfg.codeLimit = 256 ^ cfg.codeBytes := by
  simp [Config.codeLimit, Config.codeBits, pow_mul]

/-- `CODE_LIMIT` of this hardware (R6). -/
theorem codeLimit_hw : Config.hw.codeLimit = 2 ^ 32 := by simp [Config.codeLimit, Config.codeBits, Config.hw]

/-- The codes a field of this hardware holds (R82). -/
theorem fits_hw {k : Nat} : Config.hw.fits k = true ↔ k < 2 ^ 32 := by
  unfold Config.fits; rw [decide_eq_true_iff, codeLimit_hw]

end Sys2Proof
end

