-- ==== Sys2Proof/Laws/Units.lean ====
section
/-! SUPPORT. Everything the events of the two units can do, said once: when one completes, with which state; when one
raises, with which cause. -/

namespace Sys2Proof.Machine

/-- Class `RES` (R84). -/
theorem codeClass_eq_res {n k} : codeClass n k = .res ↔ k < n := by
  unfold codeClass; split_ifs <;> simp_all

/-- Class `KWK` (R84). -/
theorem codeClass_eq_kwk {n k : Nat} : codeClass n k = .kwk ↔ k = n := by
  unfold codeClass; split_ifs <;> simp_all
  omega

/-- Class `BAD` (R84). -/
theorem codeClass_eq_bad {n k : Nat} : codeClass n k = .bad ↔ n < k := by
  unfold codeClass; split_ifs <;> simp_all <;> omega

/-! ### The encoder -/

/-- Everything a miss can do when it completes (R123). -/
theorem encMiss_ok {cfg : Config} {c : Byte} {s t : State} {o} (h : encMiss cfg c s = .ok o t) :
    ∃ k bs, s.enc.tbl.get s.enc.cur = some k ∧ packField cfg k = some bs ∧ s.enc.tbl.has (s.enc.cur ++ [c]) = false ∧
      tableIsFull cfg s.enc.tbl.next = false ∧ o = [.code k] ∧
      t = { s with
        enc := { s.enc with tbl := s.enc.tbl.append (s.enc.cur ++ [c]), cur := [c], bytesIn := s.enc.bytesIn + 1,
                            codesOut := s.enc.codesOut + 1 },
        encPort := { s.encPort with writes := (nextAnswer s.encPort.writes).2, sent := s.encPort.sent ++ bs } } := by
  unfold encMiss at h
  obtain ⟨k, s1, h1, g10⟩ := bind_eq_ok h
  obtain ⟨hg, rfl⟩ := tblLookupW_ok h1
  obtain ⟨_, s2, h2, g11⟩ := bind_eq_ok g10
  obtain ⟨bs, hp, rfl⟩ := emitCode_ok h2
  obtain ⟨_, s3, h3, g12⟩ := bind_eq_ok g11
  obtain ⟨_, hn, hfull, rfl⟩ := tblAddW_ok h3
  simp only [Res.ok.injEq] at g12
  exact ⟨k, bs, hg, hp, hn, hfull, g12.1.symm, g12.2.symm⟩

/-- The causes a miss can raise, in the order of its checks (R201). -/
theorem encMiss_raise {cfg : Config} {c : Byte} {s t : State} {e} (h : encMiss cfg c s = .raise e t) :
   (s.enc.tbl.get s.enc.cur = none ∧ e = .decodeError (.word s.enc.cur)) ∨ (∃ k, e = .codeRange k) ∨
   (∃ v, e = .ioError v) ∨
   (s.enc.tbl.has (s.enc.cur ++ [c]) = true) ∨ (tableIsFull cfg s.enc.tbl.next = true) := by
  unfold encMiss at h
  rcases bind_eq_raise h with h | ⟨k, s1, h1, g10⟩
  · obtain ⟨_, h1, h2⟩ := tblLookupW_raise h; exact .inl ⟨h2, h1⟩
  obtain ⟨hg, rfl⟩ := tblLookupW_ok h1
  rcases bind_eq_raise g10 with h | ⟨_, s2, h2, g11⟩
  · rcases emitCode_raise h with ⟨h, _⟩ | ⟨v, _, h, _⟩
    · exact .inr (.inl ⟨_, h⟩)
    · exact .inr (.inr (.inl ⟨_, h⟩))
  obtain ⟨bs, hp, rfl⟩ := emitCode_ok h2
  rcases bind_eq_raise g11 with h | ⟨_, s3, h3, g12⟩
  · right; right; right
    unfold tblAddW at h
    split_ifs at h with g1 g2 g3
    · exact .inl g2
    · exact .inr g3
  · cases g12

/-- Everything `E.BYTE` can do when it completes (R121, R122, R123). -/
theorem encByte_ok {cfg : Config} {c : Byte} {s t : State} {o} (h : encByte cfg c s = .ok o t) :
   s.enc.phase = .run ∧ ((s.enc.tbl.has (s.enc.cur ++ [c]) = true ∧ o = [] ∧
     t = { s with enc := { s.enc with cur := s.enc.cur ++ [c], bytesIn := s.enc.bytesIn + 1 } }) ∨
     (s.enc.tbl.has (s.enc.cur ++ [c]) = false ∧ encMiss cfg c s = .ok o t)) := by
  unfold encByte encRunning at h
  split_ifs at h with h1 h2
  · refine ⟨h1, .inl ⟨h2, ?_⟩⟩
    simp only [encHit, Res.ok.injEq] at h
    exact ⟨h.1.symm, h.2.symm⟩
  · exact ⟨h1, .inr ⟨by simpa [isHit, tblContains] using h2, h⟩⟩

/-- Only a miss raises (R121, R122). -/
theorem encByte_raise {cfg : Config} {c : Byte} {s t : State} {e} (h : encByte cfg c s = .raise e t) :
   s.enc.phase = .run ∧ s.enc.tbl.has (s.enc.cur ++ [c]) = false ∧ encMiss cfg c s = .raise e t := by
  unfold encByte encRunning at h
  split_ifs at h with h1 h2
  · cases h
  · exact ⟨h1, by simpa [isHit, tblContains] using h2, h⟩

/-- Everything `E.EOS` can do when it completes (R124). -/
theorem encEos_ok {cfg : Config} {s t : State} {o} (h : encEos cfg s = .ok o t) :
   s.enc.phase = .run ∧ ((s.enc.cur = [] ∧ o = [] ∧ t = { s with enc := { s.enc with phase := .done } }) ∨
    (s.enc.cur ≠ [] ∧ ∃ k bs, s.enc.tbl.get s.enc.cur = some k ∧ packField cfg k = some bs ∧ o = [.code k] ∧
      t = { s with
        enc := { s.enc with phase := .done, codesOut := s.enc.codesOut + 1 },
        encPort := { s.encPort with writes := (nextAnswer s.encPort.writes).2, sent := s.encPort.sent ++ bs } })) := by
  unfold encEos encRunning at h
  split_ifs at h with h1 h2
  · simp only [Res.ok.injEq] at h
    exact ⟨h1, .inl ⟨h2, h.1.symm, h.2.symm⟩⟩
  · refine ⟨h1, .inr ⟨h2, ?_⟩⟩
    obtain ⟨k, s1, h1, g10⟩ := bind_eq_ok h
    obtain ⟨hg, rfl⟩ := tblLookupW_ok h1
    obtain ⟨_, s2, h2, g11⟩ := bind_eq_ok g10
    obtain ⟨bs, hp, rfl⟩ := emitCode_ok h2
    simp only [Res.ok.injEq] at g11
    exact ⟨k, bs, hg, hp, g11.1.symm, g11.2.symm⟩

/-- The causes a flush can raise (R201). -/
theorem encEos_raise {cfg : Config} {s t : State} {e} (h : encEos cfg s = .raise e t) :
   s.enc.phase = .run ∧ s.enc.cur ≠ [] ∧
   ((s.enc.tbl.get s.enc.cur = none ∧ e = .decodeError (.word s.enc.cur)) ∨ (∃ k, e = .codeRange k) ∨
    (∃ v, e = .ioError v)) := by
  unfold encEos encRunning at h
  split_ifs at h with hp hc
  refine ⟨hp, hc, ?_⟩
  rcases bind_eq_raise h with h | ⟨k, s1, h1, g10⟩
  · obtain ⟨_, h1, h2⟩ := tblLookupW_raise h; exact .inl ⟨h2, h1⟩
  obtain ⟨hg, rfl⟩ := tblLookupW_ok h1
  rcases bind_eq_raise g10 with h | ⟨_, s2, h2, g11⟩
  · rcases emitCode_raise h with ⟨h, _⟩ | ⟨v, _, h, _⟩
    · exact .inr (.inl ⟨_, h⟩)
    · exact .inr (.inr ⟨_, h⟩)
  · cases g11

/-! ### The decoder -/

/-- Everything `D.CODE` can do in `FIRST` when it completes (R142). -/
theorem decFirst_ok {k : Nat} {s t : State} {o} (h : decFirst k s = .ok o t) :
   ∃ w, k < s.dec.tbl.next ∧ s.dec.tbl.get k = some w ∧ o = [] ∧
     t = { s with dec := { s.dec with cw := w, phase := .run, codesIn := s.dec.codesIn + 1 } } := by
  unfold decFirst at h
  split_ifs at h with h1
  obtain ⟨w, s1, h2, g⟩ := bind_eq_ok h
  obtain ⟨hl, hg, rfl⟩ := tblLookupC_ok h2
  simp only [Res.ok.injEq] at g
  exact ⟨w, hl, hg, g.1.symm, g.2.symm⟩

/-- What step 3b finds: the first byte of a present word, or that of `cw` (R144, R145). -/
theorem lookaheadByte_ok {k : Nat} {s t : State} {f} (h : lookaheadByte k s = .ok f t) :
   t = s ∧ k ≤ s.dec.tbl.next ∧ ((k < s.dec.tbl.next ∧ ∃ r, s.dec.tbl.get k = some (f :: r)) ∨
     (k = s.dec.tbl.next ∧ ∃ r, s.dec.cw = f :: r)) := by
  unfold lookaheadByte at h
  split at h
  · next hc =>
    have hc := codeClass_eq_res.1 hc
    obtain ⟨w, s1, h2, g⟩ := bind_eq_ok h
    obtain ⟨hl, hg, rfl⟩ := tblLookupC_ok h2
    unfold firstByte at g
    split at g
    · cases g
    · simp only [Res.ok.injEq] at g
      exact ⟨g.2.symm, by omega, .inl ⟨hc, _, by rw [hg, g.1]⟩⟩
  · next hc =>
    have hc := codeClass_eq_kwk.1 hc
    unfold firstByte at h
    split at h
    · cases h
    · next hcw =>
      simp only [Res.ok.injEq] at h
      exact ⟨h.2.symm, by omega, .inr ⟨hc, _, by rw [hcw, h.1]⟩⟩
  · cases h

/-- A decoder that may hold a code ahead (R6) holds the code just read. -/
@[simp] theorem heldAhead_of_pos {cfg : Config} {k : Nat} (hl : 0 < cfg.lookahead) : heldAhead cfg k = some k := if_pos hl

@[simp] theorem lookahead_hw : 0 < Config.hw.lookahead := Nat.one_pos

@[simp] theorem heldAhead_hw (k : Nat) : heldAhead Config.hw k = some k := rfl

/-- Everything `D.CODE` can do in `RUN` when it completes (R143), for a decoder that may hold a code ahead. -/
theorem decRun_ok {cfg : Config} {k : Nat} {s t : State} {o} (hl : 0 < cfg.lookahead) (h : decRun cfg k s = .ok o t) :
   ∃ f w, s.dec.cw ≠ [] ∧ o = s.dec.cw.map .byte ∧ k ≤ s.dec.tbl.next ∧ tableIsFull cfg s.dec.tbl.next = false ∧
    ((k < s.dec.tbl.next ∧ ∃ r, s.dec.tbl.get k = some (f :: r)) ∨ (k = s.dec.tbl.next ∧ ∃ r, s.dec.cw = f :: r)) ∧
    (s.dec.tbl.append (s.dec.cw ++ [f])).get k = some w ∧
    t = { s with
        dec := { s.dec with tbl := s.dec.tbl.append (s.dec.cw ++ [f]), cw := w, la := none,
                            codesIn := s.dec.codesIn + 1, bytesOut := s.dec.bytesOut + s.dec.cw.length },
        decPort := { s.decPort with writes := (nextAnswer s.decPort.writes).2, sent := s.decPort.sent ++ s.dec.cw } } := by
  unfold decRun at h
  obtain ⟨_, s1, h1, g⟩ := bind_eq_ok h
  obtain ⟨hcw, rfl⟩ := emitWord_ok h1
  obtain ⟨_, s2, h2, g2⟩ := bind_eq_ok g
  simp only [resolveLookahead, setDec_dec, countCode, heldAhead_of_pos hl] at h2
  obtain ⟨f, s3, h3, g3⟩ := bind_eq_ok h2
  obtain ⟨rfl, hle, hf⟩ := lookaheadByte_ok h3
  obtain ⟨_, s4, h4, g4⟩ := bind_eq_ok g3
  obtain ⟨_, hfull, rfl⟩ := tblAddC_ok h4
  obtain ⟨w, s5, h5, g5⟩ := bind_eq_ok g4
  obtain ⟨hl, hg, rfl⟩ := tblLookupC_ok h5
  simp only [Res.ok.injEq, true_and] at g5
  subst g5
  simp only [Res.ok.injEq] at g2
  exact ⟨f, w, hcw, g2.1.symm, hle, hfull, hf, hg, g2.2.symm⟩

/-- `D.CODE` completes by the rule of its phase (R141). -/
theorem decCode_ok {cfg : Config} {k : Nat} {s t : State} {o} (h : decCode cfg k s = .ok o t) :
   cfg.fits k = true ∧ ((s.dec.phase = .first ∧ decFirst k s = .ok o t) ∨
     (s.dec.phase = .run ∧ decRun cfg k s = .ok o t)) := by
  unfold decCode withWireCode at h
  split_ifs at h with hf
  refine ⟨hf, ?_⟩
  unfold decAccept at h
  split at h <;> first | exact .inl ⟨‹_›, h⟩ | exact .inr ⟨‹_›, h⟩ | cases h

/-- `D.CODE` raises by the rule of its phase (R141). -/
theorem decCode_raise {cfg : Config} {k : Nat} {s t : State} {o} (h : decCode cfg k s = .raise o t) :
   cfg.fits k = true ∧ ((s.dec.phase = .first ∧ decFirst k s = .raise o t) ∨
     (s.dec.phase = .run ∧ decRun cfg k s = .raise o t)) := by
  unfold decCode withWireCode at h
  split_ifs at h with hf
  refine ⟨hf, ?_⟩
  unfold decAccept at h
  split at h <;> first | exact .inl ⟨‹_›, h⟩ | exact .inr ⟨‹_›, h⟩ | cases h

/-- Everything `D.EOS` can do when it completes (R147). -/
theorem decEos_ok {s t : State} {o} (h : decEos s = .ok o t) :
   (s.dec.phase = .first ∧ o = [] ∧ t = { s with dec := { s.dec with phase := .done } }) ∨
   (s.dec.phase = .run ∧ s.dec.cw ≠ [] ∧ o = s.dec.cw.map .byte ∧
     t = { s with
        dec := { s.dec with phase := .done, bytesOut := s.dec.bytesOut + s.dec.cw.length },
        decPort := { s.decPort with writes := (nextAnswer s.decPort.writes).2, sent := s.decPort.sent ++ s.dec.cw } }) := by
  unfold decEos decAccept at h
  split at h
  · simp only [Res.ok.injEq] at h; exact .inl ⟨‹_›, h.1.symm, h.2.symm⟩
  · obtain ⟨_, s1, h1, g⟩ := bind_eq_ok h
    obtain ⟨hcw, rfl⟩ := emitWord_ok h1
    simp only [Res.ok.injEq] at g
    exact .inr ⟨‹_›, hcw, g.1.symm, g.2.symm⟩
  all_goals cases h

/-- `D.EOS` raises in `RUN` only (R201). -/
theorem decEos_raise {s t : State} {o} (h : decEos s = .raise o t) : s.dec.phase = .run := by
  unfold decEos decAccept at h
  split at h <;> first | assumption | cases h

end Sys2Proof.Machine
end

