-- ==== Sys2Proof/Laws/Sound.lean ====
section
/-! SUPPORT. Small facts about tables and units as R36 and R37 say they are: what follows of a table, and that a start
establishes and an addition keeps it. -/

namespace Sys2Proof.Machine

/-- The preloaded rows of `ET` (R23). -/
theorem EncTable.literals_get_iff (w k) : (EncTable.literals Config.hw).get w = some k ↔ ∃ b : Byte, w = [b] ∧ k = b.toNat := by
  rw [← EncTable.mem_literals]
  exact ⟨mem_of_assocGet, assocGet_of_mem EncTable.literals_keys⟩

/-- The preloaded rows of `DT` (R23). -/
theorem DecTable.literals_get_iff (w k) : (DecTable.literals Config.hw).get k = some w ↔ ∃ b : Byte, w = [b] ∧ k = b.toNat := by
  rw [← DecTable.mem_literals]
  exact ⟨mem_of_assocGet, assocGet_of_mem (by rw [DecTable.literals_codes]; exact List.nodup_range)⟩

theorem EncTable.literals_length : (EncTable.literals Config.hw).entries.length = 256 := by simp [EncTable.literals, Config.hw]

theorem DecTable.literals_length : (DecTable.literals Config.hw).entries.length = 256 := by simp [DecTable.literals, Config.hw]

theorem EncTable.get_eq_none {t : EncTable} {w} : t.get w = none ↔ t.has w = false := by
  simp [EncTable.has]

/-- Presence gives a code. -/
theorem EncTable.get_of_has {t : EncTable} {w} (h : t.has w = true) : t.get w = some ((t.get w).getD 0) := by
  obtain ⟨k, hk⟩ := EncTable.has_iff_get.1 h; simp [hk]

/-- A one-byte word is always present (R101). -/
theorem EncTable.Sound.has_single {t : EncTable} (h : t.Sound) (b : Byte) : t.has [b] = true := by
  rw [EncTable.has_iff, ← List.take_append_drop Config.hw.alphabet t.entries, h.literals, List.map_append, List.mem_append]
  exact .inl (List.mem_map.2 ⟨([b], b.toNat), EncTable.mem_literals.2 ⟨b, rfl, rfl⟩, rfl⟩)

/-- The empty word never has a code (R36 item 2). -/
theorem EncTable.Sound.not_has_nil {t : EncTable} (h : t.Sound) : t.has [] = false := by
  rw [← Bool.not_eq_true, EncTable.has_iff, ← List.take_append_drop Config.hw.alphabet t.entries, h.literals, List.map_append, List.mem_append]
  rintro (hm | hm)
  · obtain ⟨⟨w, k⟩, hm, hw⟩ := List.mem_map.1 hm
    obtain ⟨b, rfl, _⟩ := EncTable.mem_literals.1 hm
    cases hw
  · obtain ⟨⟨w, k⟩, hm, hw⟩ := List.mem_map.1 hm
    have := h.longer _ hm
    simp_all

/-- Every code given out is below the counter (R36 item 1). -/
theorem EncTable.Sound.code_lt {t : EncTable} (h : t.Sound) {w k} (hk : t.get w = some k) : k < t.next := by
  have : k ∈ t.entries.map (·.2) := List.mem_map.2 ⟨_, mem_of_assocGet hk, rfl⟩
  rw [h.codes] at this; simpa using this

/-- A miss is only reached with a non-empty word (R128 c). -/
theorem EncTable.Sound.cur_ne_nil {t : EncTable} (hs : t.Sound) {cur c} (hm : t.has (cur ++ [c]) = false) : cur ≠ [] := by
  rintro rfl; rw [List.nil_append, EncTable.Sound.has_single hs c] at hm; cases hm

/-- Prefix closure over several bytes (R36 item 5). -/
theorem EncTable.Sound.has_of_append {t : EncTable} (hs : t.Sound) {w v : Word} (h : t.has (w ++ v) = true) (hw : w ≠ []) : t.has w = true := by
  induction v using List.reverseRecOn with
  | nil => simpa using h
  | append_singleton v c ih =>
    rw [← List.append_assoc] at h
    rcases hs.closed _ _ h with h | h
    · simp at h; exact absurd h.1 hw
    · exact ih h

theorem EncTable.Sound.length_ge {t : EncTable} (h : t.Sound) : 256 ≤ t.entries.length := by
  have := congrArg List.length h.literals
  rw [EncTable.literals_length, List.length_take] at this
  simp [Config.hw] at this; omega

theorem DecTable.Sound.length_ge {t : DecTable} (h : t.Sound) : 256 ≤ t.entries.length := by
  have := congrArg List.length h.literals
  rw [DecTable.literals_length, List.length_take] at this
  simp [Config.hw] at this; omega

/-- The table a start leaves (R23). -/
theorem EncTable.sound_literals : (EncTable.literals Config.hw).Sound where
  codes := EncTable.literals_codes
  literals := List.take_of_length_le (by rw [EncTable.literals_length]; exact Nat.le_refl _)
  longer := by
    rw [List.drop_of_length_le (by rw [EncTable.literals_length]; exact Nat.le_refl _)]; simp
  keys := EncTable.literals_keys
  closed := by
    intro w c h
    obtain ⟨k, hk⟩ := EncTable.has_iff_get.1 h
    obtain ⟨b, hb, _⟩ := (EncTable.literals_get_iff _ _).1 hk
    left
    have := congrArg List.length hb
    simpa using this

/-- The table a start leaves (R23). -/
theorem DecTable.sound_literals : (DecTable.literals Config.hw).Sound where
  codes := DecTable.literals_codes
  literals := List.take_of_length_le (by rw [DecTable.literals_length]; exact Nat.le_refl _)
  extends_ := by
    rw [List.drop_of_length_le (by rw [DecTable.literals_length]; exact Nat.le_refl _)]; simp

/-- A table as R37 says it is, is canonical. -/
theorem DecTable.Sound.wf {t : DecTable} (h : t.Sound) : t.wf := by
  constructor
  · rw [h.codes]; exact List.pairwise_lt_range
  · rw [h.codes]; intro k hk; simpa using hk

/-- Every code below the counter has a non-empty word (R37). -/
theorem DecTable.Sound.get_of_lt {t : DecTable} (h : t.Sound) {k} (hk : k < t.next) : ∃ w, t.get k = some w ∧ w ≠ [] := by
  have : (assocGet k t.entries).isSome = true := assocGet_isSome.2 (by rw [h.codes]; simpa using hk)
  obtain ⟨w, hw⟩ := Option.isSome_iff_exists.1 this
  refine ⟨w, hw, ?_⟩
  have := mem_of_assocGet hw
  rw [← List.take_append_drop Config.hw.alphabet t.entries, h.literals, List.mem_append] at this
  rcases this with h' | h'
  · obtain ⟨b, rfl, _⟩ := DecTable.mem_literals.1 h'; simp
  · obtain ⟨q, w', f, _, _, _, he⟩ := h.extends_ _ h'; simp at he; simp [he]

theorem DecTable.Sound.ne_nil {t : DecTable} (h : t.Sound) {k w} (hk : t.get k = some w) : w ≠ [] := by
  have hl : k < t.next := (DecTable.Sound.wf h).2 _ (List.mem_map.2 ⟨_, mem_of_assocGet hk, rfl⟩)
  obtain ⟨v, hv, hne⟩ := DecTable.Sound.get_of_lt h hl
  rw [hk] at hv; cases hv; exact hne

/-- The addition of a miss keeps R36. -/
theorem EncTable.Sound.append {t : EncTable} (h : t.Sound) {w : Word} {c} (hn : t.has (w ++ [c]) = false) (hw : t.has w = true) :
    (t.append (w ++ [c])).Sound := by
  have hl := EncTable.Sound.length_ge h
  have hne : w ≠ [] := by rintro rfl; rw [EncTable.Sound.not_has_nil h] at hw; cases hw
  have hlen : 1 ≤ w.length := List.length_pos_iff.2 hne
  refine ⟨?_, ?_, ?_, ?_, ?_⟩
  · simp [h.codes, List.range_succ]
  · rw [EncTable.append_entries, List.take_append_of_le_length (by exact hl), h.literals]
  · intro e he
    rw [EncTable.append_entries, List.drop_append_of_le_length (by exact hl), List.mem_append] at he
    rcases he with he | he
    · exact h.longer e he
    · simp at he; subst he; simp; omega
  · rw [EncTable.append_entries, List.map_append, List.nodup_append]
    refine ⟨h.keys, by simp, ?_⟩
    intro a ha b hb
    simp at hb; subst hb
    rintro rfl
    rw [← EncTable.has_iff, hn] at ha; cases ha
  · intro v d hv
    have mono : ∀ x, t.has x = true → (t.append (w ++ [c])).has x = true := by
      intro x hx
      rw [EncTable.has_iff] at hx ⊢
      rw [EncTable.append_entries, List.map_append]; exact List.mem_append_left _ hx
    rw [EncTable.has_iff, EncTable.append_entries, List.map_append, List.mem_append] at hv
    rcases hv with hv | hv
    · rcases h.closed v d (EncTable.has_iff.2 hv) with h | h
      · exact .inl h
      · exact .inr (mono _ h)
    · simp at hv
      rw [hv.1]; exact .inr (mono _ hw)

/-- The addition of a code in `RUN` keeps R37. -/
theorem DecTable.Sound.append {t : DecTable} (h : t.Sound) {w : Word} {c p} (hp : t.get p = some w) (hw : w ≠ []) :
    (t.append (w ++ [c])).Sound := by
  have hl := DecTable.Sound.length_ge h
  have lt_of : ∀ {q v}, t.get q = some v → q < t.next := fun hq => (DecTable.Sound.wf h).2 _ (List.mem_map.2 ⟨_, mem_of_assocGet hq, rfl⟩)
  have keep : ∀ {q v}, t.get q = some v → (t.append (w ++ [c])).get q = some v := fun hq => by
    rw [DecTable.get_append_ne (by have := lt_of hq; omega)]; exact hq
  refine ⟨?_, ?_, ?_⟩
  · simp [h.codes, List.range_succ]
  · rw [DecTable.append_entries, List.take_append_of_le_length (by exact hl), h.literals]
  · intro e he
    rw [DecTable.append_entries, List.drop_append_of_le_length (by exact hl), List.mem_append] at he
    rcases he with he | he
    · obtain ⟨q, v, f, h1, h2, h3, h4⟩ := h.extends_ e he
      exact ⟨q, v, f, h1, keep h2, h3, h4⟩
    · simp at he; subst he
      exact ⟨p, w, c, lt_of hp, keep hp, hw, rfl⟩

/-- `EncInv` speaks of `ENC` and of what it wrote only. -/
theorem EncInv.congr {s t : State} (h : EncInv s) (h1 : t.enc = s.enc) (h2 : t.encPort.sent = s.encPort.sent) : EncInv t := by
  have hl : t.tableLive .enc = s.tableLive .enc := by simp [State.tableLive, h1]
  exact ⟨by rw [hl, h1]; exact h.table, by rw [h1]; exact h.cur, by rw [h1]; exact h.fresh, by rw [hl, h1, h2]; exact h.sink,
    by rw [h1]; exact h.count, by rw [h1]; exact h.flushed, by rw [h1]; exact h.empty⟩

/-- `DecInv` speaks of `DEC` and of what it wrote only. -/
theorem DecInv.congr {s t : State} (h : DecInv s) (h1 : t.dec = s.dec) (h2 : t.decPort.sent = s.decPort.sent) : DecInv t := by
  have hl : t.tableLive .dec = s.tableLive .dec := by simp [State.tableLive, h1]
  exact ⟨by rw [hl, h1]; exact h.table, by rw [hl, h1]; exact h.count, by rw [h1]; exact h.first, by rw [h1]; exact h.run, by rw [h1]; exact h.la, by rw [hl, h1, h2]; exact h.sink⟩

/-- Outside `RUN` and `DONE` there is nothing to say. -/
theorem EncInv.of_not_live {s : State} (h : s.enc.phase = .idle ∨ s.enc.phase = .fault) : EncInv s := by
  have hl : s.tableLive .enc = false := by rcases h with h | h <;> simp [State.tableLive, h]
  refine ⟨by simp [hl], ?_, ?_, by simp [hl], ?_, ?_, ?_⟩ <;> intro h' <;> rw [h'] at h <;> simp at h

/-- Outside `FIRST`, `RUN` and `DONE` there is only `la` to say. -/
theorem DecInv.of_not_live {s : State} (h : s.dec.phase = .idle ∨ s.dec.phase = .fault) (hla : s.dec.la = none) : DecInv s := by
  have hl : s.tableLive .dec = false := by rcases h with h | h <;> simp [State.tableLive, h]
  refine ⟨by simp [hl], by simp [hl], ?_, ?_, hla, by simp [hl]⟩ <;> intro h' <;> rw [h'] at h <;> simp at h

/-- A start establishes R36. -/
theorem EncInv.encBegin {s} : EncInv (encBegin Config.hw s) :=
  ⟨fun _ => ⟨rfl, EncTable.sound_literals⟩, fun _ => .inl rfl, fun _ => by simp, fun _ => by simp [Port.newOutput],
    fun _ => rfl, (by cases ·), fun _ _ => rfl⟩

/-- A start establishes R37. -/
theorem DecInv.decBegin {s} (h : s.dec.la = none) : DecInv (decBegin Config.hw s) :=
  ⟨fun _ => ⟨rfl, DecTable.sound_literals⟩, fun _ => rfl, fun _ => rfl, by simp, h, fun _ => by simp [Port.newOutput]⟩

end Sys2Proof.Machine
end

