-- ==== Sys2Proof/Laws/Runs.lean ====
section
/-! SUPPORT. What a whole step can do, said once, and one induction per way a composite runs. -/

namespace Sys2Proof.Machine

/-- A step of a composite that completes without a fault. -/
theorem runSteps_next {u} {f : State → Out} {l acc s v} (h : f s = .next v) (hf : v.faulted u = false) :
   runSteps u (f :: l) acc s = runSteps u l (acc ++ v.outputs) v := by
  simp only [runSteps, h, hf]; rfl

/-- A composite stops at the first fault (R150). -/
theorem runSteps_fault {u} {f : State → Out} {l acc s v} (h : f s = .next v) (hf : v.faulted u = true) :
   runSteps u (f :: l) acc s = .next v := by
  simp only [runSteps, h, hf]; rfl

/-- A property that every step of a composite keeps, holds at its end. -/
theorem runSteps_inv {P : State → Prop} (ho : ∀ s o, P s → P (s.setOutputs o)) {u} {l : List (State → Out)} {acc s t}
  (hf : ∀ f ∈ l, ∀ s t, P s → f s = .next t → P t) (hs : P s) (h : runSteps u l acc s = .next t) : P t := by
  induction l generalizing acc s with
  | nil => simp only [runSteps, Host.Outcome.next.injEq] at h; rw [← h]; exact ho _ _ hs
  | cons f l ih =>
    simp only [runSteps] at h
    split at h
    · next v hv =>
      have hv := hf f List.mem_cons_self _ _ hs hv
      split_ifs at h
      · simp only [Host.Outcome.next.injEq] at h; rwa [← h]
      · exact ih (fun f hf' => hf f (List.mem_cons_of_mem _ hf')) hv h
    · cases h
    · cases h

/-- A property that every cursor-driven step keeps, holds at the end of the stream. -/
theorem pumpDecAll_inv {P : State → Prop} (ho : ∀ s o, P s → P (s.setOutputs o)) {cfg : Config} {n acc s t}
  (hf : ∀ s t, P s → pumpDec cfg s = .next t → P t) (hs : P s) (h : pumpDecAll cfg n acc s = .next t) : P t := by
  induction n generalizing acc s with
  | zero => simp only [pumpDecAll, Host.Outcome.next.injEq] at h; rw [← h]; exact ho _ _ hs
  | succ n ih =>
    simp only [pumpDecAll] at h
    split at h
    · next v hv =>
      have hv := hf _ _ hs hv
      split_ifs at h
      · simp only [Host.Outcome.next.injEq] at h; rwa [← h]
      · simp only [Host.Outcome.next.injEq] at h; rw [← h]; exact ho _ _ hv
      · exact ih hv h
    · cases h
    · cases h

theorem fetchEnc_ok {cfg : Config} {s t i} (h : fetchEnc cfg s = .ok i t) :
   ∃ p, t = s.setPort .enc p ∧ p.sent = s.encPort.sent ∧ p.past = s.encPort.past ∧ p.writes = s.encPort.writes ∧
    (i = .eEos ∨ (∃ k, i = .eByte k)) := by
  obtain ⟨a, v, h1, g⟩ := bind_eq_ok h
  obtain ⟨_, p, rfl, j1, j2, j3⟩ := callReadByte_ok h1
  cases a <;> simp only [decodeFor, Res.ok.injEq] at g <;> obtain ⟨rfl, rfl⟩ := g <;> exact ⟨p, rfl, j1, j2, j3, by simp⟩

theorem fetchEnc_raise {cfg : Config} {s t c} (h : fetchEnc cfg s = .raise c t) : ∃ e p, c = .ioError e ∧ t = s.setPort .enc p := by
  rcases bind_eq_raise h with h | ⟨a, v, h1, g⟩
  · exact callReadByte_raise h
  · cases a <;> cases g

theorem fetchDec_ok {cfg : Config} {s t i} (h : fetchDec cfg s = .ok i t) :
   ∃ p, t = s.setPort .dec p ∧ p.sent = s.decPort.sent ∧ p.past = s.decPort.past ∧ p.writes = s.decPort.writes ∧
    (i = .dEos ∨ (∃ k, i = .dCode k) ∨ ∃ n, i = .dShort n) := by
  obtain ⟨a, v, h1, g⟩ := bind_eq_ok h
  obtain ⟨p, rfl, j1, j2, j3⟩ := readField_ok h1
  cases a <;> simp only [Res.ok.injEq] at g <;> obtain ⟨rfl, rfl⟩ := g <;> exact ⟨p, rfl, j1, j2, j3, by simp⟩

theorem fetchDec_raise {cfg : Config} {s t c} (h : fetchDec cfg s = .raise c t) : ∃ e p, c = .ioError e ∧ t = s.setPort .dec p := by
  rcases bind_eq_raise h with h | ⟨a, v, h1, g⟩
  · exact readField_raise h
  · cases a <;> cases g

/-- Everything a cursor-driven step of `DEC` can do. -/
theorem pumpDec_cases {cfg : Config} {s t} (h : pumpDec cfg s = .next t) :
   (∃ i p, p.sent = s.decPort.sent ∧ p.past = s.decPort.past ∧ p.writes = s.decPort.writes ∧ dEventStep cfg i (s.setPort .dec p) = .next t) ∨
   (∃ e p, t = enterFault .dec (.ioError e) s (s.setPort .dec p)) := by
  unfold pumpDec at h
  split at h
  · next hi =>
    obtain ⟨p, rfl, h1, h2, h3, _⟩ := fetchDec_ok hi
    exact .inl ⟨_, p, h1, h2, h3, h⟩
  · next hi =>
    obtain ⟨e, p, rfl, rfl⟩ := fetchDec_raise hi
    simp only [Host.Outcome.next.injEq] at h
    exact .inr ⟨e, p, h.symm⟩
  · cases h
  · cases h

theorem dEventStep_eq (cfg : Config) (i s) : ∃ r, dEventStep cfg i s = finish .dec s r ∧ (r = decEos s ∨ (∃ k, r = decCode cfg k s) ∨ ∃ n, r = decShort cfg n s) := by
  unfold dEventStep; split
  · exact ⟨_, rfl, .inr (.inl ⟨_, rfl⟩)⟩
  · exact ⟨_, rfl, .inr (.inr ⟨_, rfl⟩)⟩
  · exact ⟨_, rfl, .inl rfl⟩

theorem compressBytes_cases {cfg : Config} {b s t} (h : compressBytesFor cfg b s = .next t) :
   ∃ v, compressFor cfg b s = .next v ∧ (t = v ∨ ∃ o, t = v.setOutputs o) := by
  unfold compressBytesFor at h
  split at h
  · next v hv =>
    refine ⟨v, hv, ?_⟩
    split_ifs at h <;> simp only [Host.Outcome.next.injEq] at h
    · exact .inl h.symm
    · exact .inr ⟨_, h.symm⟩
  · cases h
  · cases h

/-- Everything a unit can do that reads its cursor: run an event it read, or take the fault of a failed read. -/
theorem pollStep_cases {u s t} (h : pollStep u s = .next t) : s.streaming u = true ∧
   ((∃ i p, p.sent = (s.port u).sent ∧ p.past = (s.port u).past ∧ p.writes = (s.port u).writes ∧
      (match u with | .enc => i = .eEos ∨ ∃ k, i = .eByte k | .dec => i = .dEos ∨ (∃ k, i = .dCode k) ∨ ∃ n, i = .dShort n) ∧ exec i (s.setPort u p) = .next t) ∨
    (∃ e p, t = enterFault u (.ioError e) s (s.setPort u p))) := by
  unfold pollStep fetch at h
  by_cases hs : s.streaming u = true
  · refine ⟨hs, ?_⟩
    simp only [hs, if_true] at h
    cases u
    · simp only at h
      split at h
      · next hi =>
        obtain ⟨p, rfl, h1, h2, h3, h4⟩ := fetchEnc_ok hi
        exact .inl ⟨_, p, h1, h2, h3, h4, h⟩
      · next hi =>
        obtain ⟨e, p, rfl, rfl⟩ := fetchEnc_raise hi
        simp only [Host.Outcome.next.injEq] at h
        exact .inr ⟨e, p, h.symm⟩
      · cases h
      · cases h
    · simp only at h
      split at h
      · next hi =>
        obtain ⟨p, rfl, h1, h2, h3, h4⟩ := fetchDec_ok hi
        exact .inl ⟨_, p, h1, h2, h3, h4, h⟩
      · next hi =>
        obtain ⟨e, p, rfl, rfl⟩ := fetchDec_raise hi
        simp only [Host.Outcome.next.injEq] at h
        exact .inr ⟨e, p, h.symm⟩
      · cases h
      · cases h
  · simp [hs] at h

/-- An operation the host issues runs only where it disturbs no stream (R178). -/
theorem issueStep_cases {i s t} (h : issueStep i s = .next t) : disturbs s i = none ∧ exec i s = .next t := by
  unfold issueStep at h
  split at h
  · cases h
  · next hd => exact ⟨hd, h⟩

/-- An operation that disturbs no stream is issued as it is. -/
theorem issueStep_eq {i s} (h : disturbs s i = none) : issueStep i s = exec i s := by simp [issueStep, h]

/-- The host opens or closes resources only outside a stream (R178, R223, R225). -/
theorem resourceStep_cases {u f s t} (h : resourceStep u f s = .next t) : s.streaming u = false ∧ t = (f s).setOutputs [] := by
  unfold resourceStep at h
  split_ifs at h with hs
  exact ⟨by simpa using hs, by simpa using h.symm⟩

/-- Everything a step can do (R7, R178). -/
theorem step_cases {s t} (h : step s = .next t) :
   (∃ i rest, s.moves = .issue i :: rest ∧ disturbs (s.setMoves rest) i = none ∧ exec i (s.setMoves rest) = .next t) ∨
   (∃ bs rest, s.moves = .startStream .enc bs :: rest ∧ exec .eStart (openStream .enc bs (s.setMoves rest)) = .next t) ∨
   (∃ bs rest, s.moves = .startStream .dec bs :: rest ∧ exec .dStart (openStream .dec bs (s.setMoves rest)) = .next t) ∨
   (∃ u m p rest, s.moves = m :: rest ∧ s.streaming u = false ∧ t = ((s.setMoves rest).setPort u p).setOutputs [] ∧
      ((∃ bs, m = .openStream u bs ∧ p = { s.port u with inOpen := true, outOpen := true, input := bs, ended := false }) ∨
       (m = .openOutput u ∧ p = { s.port u with outOpen := true }) ∨
       (m = .close u ∧ p = { s.port u with inOpen := false, outOpen := false }))) ∨
   (∃ u rest, (s.moves = .poll u :: rest ∨ (s.moves = [] ∧ rest = [])) ∧ pollStep u (s.setMoves rest) = .next t) := by
  unfold step at h
  split at h
  · next hm =>
    obtain ⟨hd, h⟩ := issueStep_cases h
    exact .inl ⟨_, _, hm, hd, h⟩
  · next hm =>
    obtain ⟨hs, h⟩ := resourceStep_cases h
    exact .inr (.inr (.inr (.inl ⟨_, _, _, _, hm, by simpa using hs, h, .inl ⟨_, rfl, by simp⟩⟩)))
  · next hm =>
    obtain ⟨hs, h⟩ := resourceStep_cases h
    exact .inr (.inr (.inr (.inl ⟨_, _, _, _, hm, by simpa using hs, h, .inr (.inl ⟨rfl, by simp⟩)⟩)))
  · next u bs rest hm =>
    cases u
    · exact .inr (.inl ⟨_, _, hm, h⟩)
    · exact .inr (.inr (.inl ⟨_, _, hm, h⟩))
  · next hm => exact .inr (.inr (.inr (.inr ⟨_, _, .inl hm, h⟩)))
  · next hm =>
    obtain ⟨hs, h⟩ := resourceStep_cases h
    exact .inr (.inr (.inr (.inl ⟨_, _, _, _, hm, by simpa using hs, h, .inr (.inr ⟨rfl, by simp⟩)⟩)))
  · next hm =>
    have hs : s.setMoves [] = s := by cases s; simp_all [State.setMoves]
    split_ifs at h
    · exact .inr (.inr (.inr (.inr ⟨.enc, [], .inr ⟨hm, rfl⟩, hs.symm ▸ h⟩)))
    · exact .inr (.inr (.inr (.inr ⟨.dec, [], .inr ⟨hm, rfl⟩, hs.symm ▸ h⟩)))

end Sys2Proof.Machine
end

