-- ==== Sys2Proof/Laws/Opened.lean ====
section
/-! SUPPORT. No operation opens or closes a resource (R7, R174): every shared operation keeps what is open, whether it
completes or raises. -/

namespace Sys2Proof.Machine

/-- What is open in `t` is what is open in `s`. -/
def SameOpen (s t : State) : Prop :=
  ∀ u, (t.port u).inOpen = (s.port u).inOpen ∧ (t.port u).outOpen = (s.port u).outOpen

/-- `r`, begun in `s`, keeps what is open. -/
def KeepsOpen {α : Type} (s : State) (r : Res α) : Prop :=
  (∀ a t, r = .ok a t → SameOpen s t) ∧ ∀ c t, r = .raise c t → SameOpen s t

theorem SameOpen.refl (s : State) : SameOpen s s := fun _ => ⟨rfl, rfl⟩

theorem SameOpen.trans {s t v : State} (h : SameOpen s t) (h' : SameOpen t v) : SameOpen s v :=
  fun u => ⟨(h' u).1.trans (h u).1, (h' u).2.trans (h u).2⟩

theorem sameOpen_setPort {s : State} {u : UnitId} {p : Port} (h1 : p.inOpen = (s.port u).inOpen)
    (h2 : p.outOpen = (s.port u).outOpen) : SameOpen s (s.setPort u p) := by
  intro v; cases u <;> cases v <;> exact ⟨by first | exact h1 | rfl, by first | exact h2 | rfl⟩

section
variable {α β : Type} {s t : State}

theorem keepsOpen_ok {a : α} (h : SameOpen s t) : KeepsOpen s (.ok a t) :=
  ⟨fun _ _ e => (by simp only [Res.ok.injEq] at e; exact e.2 ▸ h), fun _ _ e => by cases e⟩

theorem keepsOpen_raise {c : Cause} (h : SameOpen s t) : KeepsOpen s (.raise c t : Res α) :=
  ⟨fun _ _ e => (by cases e), fun _ _ e => by simp only [Res.raise.injEq] at e; exact e.2 ▸ h⟩

theorem keepsOpen_stuck {f : Fault} : KeepsOpen s (.stuck f : Res α) := ⟨fun _ _ e => (by cases e), fun _ _ e => by cases e⟩

theorem keepsOpen_refuse {r : Refusal} : KeepsOpen s (.refuse r : Res α) := ⟨fun _ _ e => (by cases e), fun _ _ e => by cases e⟩

theorem keepsOpen_ite {p : Prop} [Decidable p] {r r' : Res α} (h : KeepsOpen s r) (h' : KeepsOpen s r') :
    KeepsOpen s (if p then r else r') := by split <;> assumption

theorem keepsOpen_bind {r : Res α} {k : α → State → Res β} (h : KeepsOpen s r) (hk : ∀ a t, KeepsOpen t (k a t)) :
    KeepsOpen s (r.bind k) := by
  constructor
  · intro b v hb
    obtain ⟨a, u, h1, h2⟩ := bind_eq_ok hb
    exact (h.1 a u h1).trans ((hk a u).1 b v h2)
  · intro c v hb
    rcases bind_eq_raise hb with h1 | ⟨a, u, h1, h2⟩
    · exact h.2 c v h1
    · exact (h.1 a u h1).trans ((hk a u).2 c v h2)

/-- From a state with the same open. -/
theorem KeepsOpen.of_same {r : Res α} (h : SameOpen s t) (hr : KeepsOpen t r) : KeepsOpen s r :=
  ⟨fun a v e => h.trans (hr.1 a v e), fun c v e => h.trans (hr.2 c v e)⟩

/-- A step that keeps what is open before it completes or raises, keeps it as a whole. -/
theorem sameOpen_finish {u : UnitId} {r : Res (List Output)} (hr : KeepsOpen s r) (h : finish u s r = .next t) :
    SameOpen s t := by
  rcases finish_cases h with ⟨o, v, hv, rfl⟩ | ⟨c, v, hv, _, rfl⟩
  · exact fun w => by simpa using hr.1 o v hv w
  · intro w; cases u <;> cases w <;> first | exact ⟨rfl, rfl⟩ | exact hr.2 c v hv _

end

theorem callReadByte_keepsOpen (u : UnitId) (s : State) : KeepsOpen s (callReadByte u s) := by
  unfold callReadByte
  refine keepsOpen_ite keepsOpen_refuse (keepsOpen_ite keepsOpen_refuse ?_)
  split
  · exact keepsOpen_stuck
  · exact keepsOpen_raise (sameOpen_setPort rfl rfl)
  · split <;> exact keepsOpen_ok (sameOpen_setPort rfl rfl)

theorem callWriteBytes_keepsOpen (u : UnitId) (bs : ByteSeq) (s : State) : KeepsOpen s (callWriteBytes u bs s) := by
  unfold callWriteBytes
  refine keepsOpen_ite keepsOpen_refuse ?_
  split
  · exact keepsOpen_stuck
  · exact keepsOpen_raise (sameOpen_setPort rfl rfl)
  · exact keepsOpen_ok (sameOpen_setPort rfl rfl)

theorem readField_keepsOpen (cfg : Config) (m : Nat) (f : ByteSeq) (s : State) : KeepsOpen s (readField cfg m f s) := by
  induction m generalizing f s with
  | zero => exact keepsOpen_ok (.refl s)
  | succ m ih =>
    refine keepsOpen_bind (callReadByte_keepsOpen .dec s) fun r t => ?_
    cases r with
    | endOfStream => exact keepsOpen_ite (keepsOpen_ok (.refl t)) (keepsOpen_ok (.refl t))
    | byte c => exact ih _ t

theorem setEnc_sameOpen (s : State) (e : Enc) : SameOpen s (s.setEnc e) := fun u => by simp

theorem setDec_sameOpen (s : State) (d : Dec) : SameOpen s (s.setDec d) := fun u => by simp

theorem emitCode_keepsOpen (cfg : Config) (k : Nat) (s : State) : KeepsOpen s (emitCode cfg k s) := by
  unfold emitCode
  split
  · exact keepsOpen_raise (.refl s)
  · exact keepsOpen_bind (callWriteBytes_keepsOpen ..) fun _ t => keepsOpen_ok (setEnc_sameOpen t _)

theorem emitWord_keepsOpen (w : Word) (s : State) : KeepsOpen s (emitWord w s) :=
  keepsOpen_bind (callWriteBytes_keepsOpen ..) fun _ t => keepsOpen_ok (setDec_sameOpen t _)

theorem tblLookupW_keepsOpen (w : Word) (s : State) : KeepsOpen s (tblLookupW w s) := by
  unfold tblLookupW; split
  · exact keepsOpen_ok (.refl s)
  · exact keepsOpen_raise (.refl s)

theorem tblLookupC_keepsOpen (k : Nat) (s : State) : KeepsOpen s (tblLookupC k s) := by
  unfold tblLookupC
  refine keepsOpen_ite ?_ (keepsOpen_raise (.refl s))
  split
  · exact keepsOpen_ok (.refl s)
  · exact keepsOpen_raise (.refl s)

theorem tblAddW_keepsOpen (cfg : Config) (w : Word) (s : State) : KeepsOpen s (tblAddW cfg w s) :=
  keepsOpen_ite keepsOpen_refuse (keepsOpen_ite (keepsOpen_raise (.refl s))
    (keepsOpen_ite (keepsOpen_raise (.refl s)) (keepsOpen_ok (setEnc_sameOpen s _))))

theorem tblAddC_keepsOpen (cfg : Config) (w : Word) (s : State) : KeepsOpen s (tblAddC cfg w s) :=
  keepsOpen_ite keepsOpen_refuse (keepsOpen_ite (keepsOpen_raise (.refl s)) (keepsOpen_ok (setDec_sameOpen s _)))

/-- A start closes nothing (R174). -/
theorem encBegin_sameOpen (cfg : Config) (s : State) : SameOpen s (encBegin cfg s) := by
  intro u; cases u <;> exact ⟨rfl, rfl⟩

/-- A start closes nothing (R174). -/
theorem decBegin_sameOpen (cfg : Config) (s : State) : SameOpen s (decBegin cfg s) := by
  intro u; cases u <;> exact ⟨rfl, rfl⟩

end Sys2Proof.Machine
end

