-- ==== Sys2Proof/Laws/PerInstr.lean ====
section
/-! SUPPORT. The family `Encoding`: what holds of every operation's encoding, one lemma per constructor. -/

namespace Sys2Proof.Laws.Encoding

/-- An operation that has a field stands in a format with bits, and its field has the format's length: one byte for
`BYTE8`, `W` bytes for `CODE` (R80, R89). -/
def Statement (i : Instr) : Prop :=
  ∀ bs, encode i = some bs →
    (i.format = .byte8 ∧ bs.length = 1) ∨ (i.format = .code ∧ bs.length = Config.hw.codeBytes)

/-- An operation without a field. -/
theorem of_none {i : Instr} (h : encode i = none) : Statement i := fun bs hb => by simp [h] at hb

theorem tInit (u : UnitId) : Statement (.tInit u) := of_none rfl
theorem tContains (w : Word) : Statement (.tContains w) := of_none rfl
theorem tLookupW (w : Word) : Statement (.tLookupW w) := of_none rfl
theorem tLookupC (k : Nat) : Statement (.tLookupC k) := of_none rfl
theorem tAddW (w : Word) : Statement (.tAddW w) := of_none rfl
theorem tAddC (w : Word) : Statement (.tAddC w) := of_none rfl
theorem eStart : Statement .eStart := of_none rfl
theorem eByte (c : Byte) : Statement (.eByte c) := fun bs h => .inl ⟨rfl, by cases h; rfl⟩
theorem eByteHit (c : Byte) : Statement (.eByteHit c) := fun bs h => .inl ⟨rfl, by cases h; rfl⟩
theorem eByteMiss (c : Byte) : Statement (.eByteMiss c) := fun bs h => .inl ⟨rfl, by cases h; rfl⟩
theorem eEos : Statement .eEos := of_none rfl
theorem dStart : Statement .dStart := of_none rfl
theorem dCode (k : Nat) : Statement (.dCode k) := fun _ h => .inr ⟨rfl, packField_length h⟩
theorem dCodeFirst (k : Nat) : Statement (.dCodeFirst k) := fun _ h => .inr ⟨rfl, packField_length h⟩
theorem dCodeRes (k : Nat) : Statement (.dCodeRes k) := fun _ h => .inr ⟨rfl, packField_length h⟩
theorem dCodeKwk (k : Nat) : Statement (.dCodeKwk k) := fun _ h => .inr ⟨rfl, packField_length h⟩
theorem dCodeBad (k : Nat) : Statement (.dCodeBad k) := fun _ h => .inr ⟨rfl, packField_length h⟩
theorem dEos : Statement .dEos := of_none rfl
theorem dShort (n : Nat) : Statement (.dShort n) := of_none rfl
theorem pack (k : Nat) : Statement (.pack k) := of_none rfl
theorem unpack (f : ByteSeq) : Statement (.unpack f) := of_none rfl
theorem readByte (u : UnitId) : Statement (.readByte u) := of_none rfl
theorem writeBytes (u : UnitId) (bs : ByteSeq) : Statement (.writeBytes u bs) := of_none rfl
theorem readCode : Statement .readCode := of_none rfl
theorem compress (b : ByteSeq) : Statement (.compress b) := of_none rfl
theorem decompress (ks : CodeSeq) : Statement (.decompress ks) := of_none rfl
theorem decompressBytes (bs : ByteSeq) : Statement (.decompressBytes bs) := of_none rfl
theorem compressBytes (b : ByteSeq) : Statement (.compressBytes b) := of_none rfl

end Sys2Proof.Laws.Encoding
end

