-- ==== Sys2Proof/Tests/Slice0.lean ====
section
/-! SUPPORT. The model's own tests. Expected results come from 95_test_vectors.md (the vector is named in each comment) or
from the encodings of 30_encoding.md written out by hand; none is the model's own answer. -/

namespace Sys2Proof.Tests
open Sys2Proof.Machine

set_option Elab.async false

/-! ### Small states -/

/-- `ENC` after its start. -/
def encFresh : State := encBegin Config.hw State.reset

/-- `DEC` after its start. -/
def decFresh : State := decBegin Config.hw State.reset

/-- `ENC` in a stream, after the additions `ws`, with `cur`. -/
def encWith (ws : List Word) (cur : Word) : State :=
  { encFresh with enc := { encFresh.enc with tbl := ws.foldl EncTable.append (EncTable.literals Config.hw), cur := cur, bytesIn := 1 } }

/-- `DEC` in phase `RUN`, after the additions `ws`, with `cw`. -/
def decWith (ws : List Word) (cw : Word) : State :=
  { decFresh with dec := { decFresh.dec with
      tbl := ws.foldl DecTable.append (DecTable.literals Config.hw), cw := cw, phase := .run, codesIn := ws.length + 1 } }

def withEncWrites (l : List CallAnswer) (s : State) : State := { s with encPort := { s.encPort with writes := l } }

def withDecWrites (l : List CallAnswer) (s : State) : State := { s with decPort := { s.decPort with writes := l } }

/-- The stream of `ENC` is read from its cursor, which holds `bs`. -/
def withEncInput (bs : ByteSeq) (s : State) : State :=
  { s with encPort := { s.encPort with inOpen := true, outOpen := true, input := bs } }

/-- The stream of `DEC` is read from its cursor, which holds `bs`. -/
def withDecInput (bs : ByteSeq) (s : State) : State :=
  { s with decPort := { s.decPort with inOpen := true, outOpen := true, input := bs } }

def withEncReads (l : List CallAnswer) (s : State) : State := { s with encPort := { s.encPort with reads := l } }

def withDecReads (l : List CallAnswer) (s : State) : State := { s with decPort := { s.decPort with reads := l } }

/-- `ENC` in phase `p`. -/
def encIn (p : EPhase) (s : State) : State := { s with enc := { s.enc with phase := p } }

/-- `DEC` in phase `p`. -/
def decIn (p : DPhase) (s : State) : State := { s with dec := { s.dec with phase := p } }

/-- The outcome is a next state with `p`. -/
def next (o : Out) (p : State → Bool) : Bool :=
  match o with
  | .next t => p t
  | _ => false

/-- The outcome is the refusal `r`. -/
def refuses (o : Out) (r : Refusal) : Bool :=
  match o with
  | .refused q => decide (q = r)
  | _ => false

/-- The outcome is that `ENC` took the fault `c`. -/
def encFaults (o : Out) (c : Cause) : Bool := next o fun t => t.enc.phase == .fault && t.enc.fault == c && t.outputs == []

/-- The outcome is that `DEC` took the fault `c`. -/
def decFaults (o : Out) (c : Cause) : Bool := next o fun t => t.dec.phase == .fault && t.dec.fault == c && t.outputs == []

/-! ### WellFormed: one ill-formed operation per check, refused by the check -/

theorem test_wf_smoke :
    Instr.wellFormed (.tAddW []) = false ∧ Instr.wellFormed (.tAddC []) = false ∧
    Instr.wellFormed (.dCode 4294967296) = false ∧ Instr.wellFormed (.dCodeFirst 4294967296) = false ∧
    Instr.wellFormed (.dCodeRes 4294967296) = false ∧ Instr.wellFormed (.dCodeKwk 4294967296) = false ∧
    Instr.wellFormed (.dCodeBad 4294967296) = false ∧ Instr.wellFormed (.dShort 0) = false ∧
    Instr.wellFormed (.dShort 4) = false ∧ Instr.wellFormed (.unpack [0, 0, 0]) = false ∧
    Instr.wellFormed (.writeBytes .enc []) = false ∧ Instr.wellFormed (.decompress [97, 4294967296]) = false := by decide

theorem test_wf_accepts :
    Instr.wellFormed (.tAddW [97, 98]) = true ∧ Instr.wellFormed (.dCode 4294967295) = true ∧
    Instr.wellFormed (.dShort 1) = true ∧ Instr.wellFormed (.dShort 3) = true ∧
    Instr.wellFormed (.unpack [0, 0, 0, 0]) = true ∧ Instr.wellFormed (.decompress [97, 4294967295]) = true := by decide

/-! ### Decode: words written out from the encodings (R81, R82, R83) -/

/-- Format `BYTE8`: bits 7:0 are `c`; 0x61 = 0110 0001. The rows `E.BYTE`, `E.BYTE.HIT`, `E.BYTE.MISS` share it. -/
theorem test_decode_byte8 :
    decode .byte8 [0b01100001] = .ok (.eByte 97) ∧ decodeTableWord 8 0b01100001 = some (.eByte 97) ∧
    decode .byte8 [0xff] = .ok (.eByte 255) ∧
    encode (.eByte 97) = some [0x61] ∧ encode (.eByteHit 97) = some [0x61] ∧ encode (.eByteMiss 97) = some [0x61] := by
  decide

/-- Format `CODE`: bits 31:0 are `k`, byte 0 lowest. 265 = 0x109 is `09 01 00 00` (V-C5). The five `D.CODE` rows share it. -/
theorem test_decode_code :
    decode .code [0x09, 0x01, 0x00, 0x00] = .ok (.dCode 265) ∧ decodeTableWord 32 0x00000109 = some (.dCode 265) ∧
    encode (.dCode 265) = some [0x09, 0x01, 0, 0] ∧ encode (.dCodeFirst 97) = some [0x61, 0, 0, 0] ∧
    encode (.dCodeRes 98) = some [0x62, 0, 0, 0] ∧ encode (.dCodeKwk 256) = some [0, 0x01, 0, 0] ∧
    encode (.dCodeBad 4294967295) = some [0xff, 0xff, 0xff, 0xff] := by decide

/-- V-C6, V-C9, V-C10 in either byte order. -/
theorem test_decode_big_endian :
    decodeFor { Config.hw with byteOrder := .be } .code [0x00, 0x01, 0x00, 0x00] = .ok (.dCode 65536) ∧
    packField { Config.hw with byteOrder := .be } 16909060 = some [1, 2, 3, 4] ∧
    packField Config.hw 16909060 = some [4, 3, 2, 1] := by decide

/-- Fields of no format, and operations without bits (R86, R89). -/
theorem test_decode_rejects :
    decode .byte8 [] = .error (.wrongLength .byte8 0) ∧ decode .byte8 [1, 2] = .error (.wrongLength .byte8 2) ∧
    decode .code [0, 1, 0] = .error (.wrongLength .code 3) ∧ decode .event [] = .error (.noBits .event) ∧
    decode .tableOp [0] = .error (.noBits .tableOp) ∧ decode .codec [0] = .error (.noBits .codec) ∧
    decode .host [0] = .error (.noBits .host) ∧ decode .composite [0] = .error (.noBits .composite) ∧
    decodeTableWord 16 0 = none := by decide

/-- No operation without bits has a field (R89). -/
theorem test_encode_none :
    [Instr.tInit .enc, .tContains [], .tLookupW [], .tLookupC 0, .tAddW [1], .tAddC [1], .eStart, .eEos, .dStart, .dEos,
      .dShort 1, .pack 0, .unpack [], .readByte .enc, .writeBytes .enc [1], .readCode, .compress [], .decompress [],
      .decompressBytes [], .compressBytes []].all (fun i => (encode i).isNone) = true := by decide

/-! ### Symbol-table operations (V-T) -/

/-- V-T1, between streams; within a stream (R100, R222), in `IDLE` (R221) and in `FAULT` (R204) it is refused. -/
theorem test_tInit :
    next (exec (.tInit .enc) (encIn .done (encWith [[97, 98]] [98]))) (fun t => t.enc.tbl.entries.length == 256 &&
      t.enc.tbl.next == 256 && t.enc.tbl.get [97, 98] == none && t.enc.tbl.get [0x41] == some 65) = true ∧
    (∀ s ∈ [State.reset, encFresh, encIn .fault encFresh], refuses (exec (.tInit .enc) s) (.wrongPhase .enc) = true) := by
  decide +kernel

/-- V-T2, V-T3, V-T4. -/
theorem test_tContains :
    next (exec (.tContains [0xff]) encFresh) (fun t => t.outputs == [.flag true]) = true ∧
    next (exec (.tContains [97, 97]) encFresh) (fun t => t.outputs == [.flag false]) = true ∧
    next (exec (.tContains []) encFresh) (fun t => t.outputs == [.flag false]) = true := by decide +kernel

/-- V-T5, V-T6, V-T9; no fault leaves `DONE` (R130). -/
theorem test_tLookupW :
    next (exec (.tLookupW [120]) encFresh) (fun t => t.outputs == [.code 120]) = true ∧
    next (exec (.tLookupW [97, 98]) (encWith [[97, 98], [98, 97]] [97])) (fun t => t.outputs == [.code 256]) = true ∧
    encFaults (exec (.tLookupW [120, 121]) encFresh) (.decodeError (.word [120, 121])) = true ∧
    refuses (exec (.tLookupW [120, 121]) (encIn .done encFresh)) (.wrongPhase .enc) = true := by decide +kernel

/-- V-T12, V-T13, V-T16. -/
theorem test_tLookupC :
    next (exec (.tLookupC 65) decFresh) (fun t => t.outputs == [.byte 0x41]) = true ∧
    decFaults (exec (.tLookupC 256) decFresh) (.decodeError (.code 256)) = true ∧
    next (exec (.tLookupC 257) (decWith [[97, 97], [97, 97]] [97])) (fun t => t.outputs == [.byte 97, .byte 97]) = true := by
  decide +kernel

/-- V-T7, V-T10, V-T11. -/
theorem test_tAddW :
    next (exec (.tAddW [97, 98]) encFresh) (fun t => t.enc.tbl.get [97, 98] == some 256 && t.enc.tbl.next == 257) = true ∧
    encFaults (exec (.tAddW [97, 98]) (encWith [[97, 98], [98, 97]] [97])) (.duplicateAdd [97, 98]) = true ∧
    refuses (exec (.tAddW []) encFresh) .emptyWord = true := by decide +kernel

/-- V-T15 (a word under two codes), V-T17. -/
theorem test_tAddC :
    next (exec (.tAddC [97, 97]) (decWith [[97, 97]] [97])) (fun t => t.dec.tbl.get 257 == some [97, 97] &&
      t.dec.tbl.get 256 == some [97, 97] && t.dec.tbl.next == 258) = true ∧
    decFaults (addCFor { Config.hw with capacity := some 257 } [1, 2] (decWith [[97, 97]] [97])) (.tableFull 257) = true ∧
    encFaults (addWFor { Config.hw with capacity := some 257 } [1, 2] (encWith [[97, 97]] [97])) (.tableFull 257) = true := by
  decide +kernel

/-! ### The encoder (V-E, V-X) -/

/-- P5: a start after a stream leaves nothing of it; R120: two starts in a row equal one, also where an input is open. -/
theorem test_eStart :
    next (exec .eStart (encWith [[97, 97]] [97])) (fun t => t.enc == encFresh.enc && t.outputs == []) = true ∧
    next (exec .eStart (withEncInput [0x61] encFresh)) (fun t => t == withEncInput [0x61] encFresh && t.fed .enc) = true := by
  decide +kernel

/-- V-E5, second byte: a miss emits 97, adds 256:"aa"; V-X10: refused in `IDLE`. -/
theorem test_eByte :
    next (exec (.eByte 0x61) (encWith [] [97])) (fun t => t.outputs == [.code 97] && t.enc.tbl.get [97, 97] == some 256 &&
      t.enc.tbl.next == 257 && t.enc.cur == [97] && t.encPort.sent == [0x61, 0, 0, 0]) = true ∧
    refuses (exec (.eByte 0x61) State.reset) (.wrongPhase .enc) = true := by decide +kernel

/-- The example of R122; V-E5, third byte. -/
theorem test_eByteHit :
    next (exec (.eByteHit 0x62) (encWith [[97, 98]] [97])) (fun t => t.enc.cur == [97, 98] && t.outputs == [] &&
      t.enc.tbl.next == 257 && t.encPort.sent == []) = true ∧
    refuses (exec (.eByteHit 0x62) (encWith [] [97])) .otherCase = true := by decide +kernel

/-- V-E7, fifth byte: emits 256, adds 258:"aba"; V-X8: the sink fails. -/
theorem test_eByteMiss :
    next (exec (.eByteMiss 0x61) (encWith [[97, 98], [98, 97]] [97, 98])) (fun t => t.outputs == [.code 256] &&
      t.enc.tbl.get [97, 98, 97] == some 258 && t.enc.cur == [97] && t.enc.tbl.next == 259) = true ∧
    encFaults (exec (.eByteMiss 0x62) (withEncWrites [.fails 7] (encWith [] [97]))) (.ioError 7) = true := by
  decide +kernel

/-- The example of R124: `cur = "OT"`, code 256 here; V-E1: an empty stream; V-X12: a second end. -/
theorem test_eEos :
    next (exec .eEos (encWith [[79, 84]] [79, 84])) (fun t => t.outputs == [.code 256] && t.enc.tbl.next == 257 &&
      t.enc.phase == .done && t.encPort.sent == [0, 1, 0, 0]) = true ∧
    next (exec .eEos encFresh) (fun t => t.outputs == [] && t.enc.phase == .done && t.encPort.sent == [] &&
      (match exec .eEos t with | .refused r => r == .wrongPhase .enc | _ => false)) = true := by decide +kernel

/-! ### The decoder (V-D, V-X) -/

/-- R140; P3: the start after a fault; two starts in a row equal one, also where an input is open. -/
theorem test_dStart :
    next (exec .dStart { decFresh with dec := { decFresh.dec with phase := .fault, fault := .decodeError (.code 260) } })
      (fun t => t.dec.phase == .first && t.dec.fault == .none && t.dec.tbl.next == 256) = true ∧
    next (exec .dStart (withDecInput [0x61, 0, 0, 0] decFresh))
      (fun t => t == withDecInput [0x61, 0, 0, 0] decFresh && t.fed .dec) = true := by decide +kernel

/-- V-D5, third code; V-X9: the sink fails before the code is classified. -/
theorem test_dCode :
    next (exec (.dCode 97) (decWith [[97, 97]] [97, 97])) (fun t => t.outputs == [.byte 97, .byte 97] &&
      t.dec.tbl.get 257 == some [97, 97, 97] && t.dec.cw == [97] && t.dec.tbl.next == 258 && t.dec.la == none) = true ∧
    decFaults (exec (.dCode 300) (withDecWrites [.fails 7] (decWith [] [97]))) (.ioError 7) = true := by decide +kernel

/-- V-D1 to V-D5, first code; V-X1. -/
theorem test_dCodeFirst :
    next (exec (.dCodeFirst 97) decFresh) (fun t => t.outputs == [] && t.dec.cw == [97] && t.dec.phase == .run &&
      t.dec.tbl.next == 256) = true ∧
    decFaults (exec (.dCodeFirst 256) decFresh) (.decodeError (.code 256)) = true := by decide +kernel

/-- The example of R144. -/
theorem test_dCodeRes :
    next (exec (.dCodeRes 98) (decWith [] [97])) (fun t => t.outputs == [.byte 97] && t.dec.tbl.get 256 == some [97, 98] &&
      t.dec.cw == [98] && t.dec.tbl.next == 257) = true := by decide +kernel

/-- The example of R145; V-D7, fourth code. -/
theorem test_dCodeKwk :
    next (exec (.dCodeKwk 256) (decWith [] [97])) (fun t => t.outputs == [.byte 97] && t.dec.tbl.get 256 == some [97, 97] &&
      t.dec.cw == [97, 97] && t.dec.tbl.next == 257) = true ∧
    next (exec (.dCodeKwk 258) (decWith [[97, 98], [98, 97]] [97, 98])) (fun t => t.dec.cw == [97, 98, 97]) = true := by
  decide +kernel

/-- The example of R146; V-X6. -/
theorem test_dCodeBad :
    decFaults (exec (.dCodeBad 257) (decWith [] [97])) (.decodeError (.code 257)) = true ∧
    decFaults (exec (.dCodeBad 4294967295) (decWith [] [97])) (.decodeError (.code 4294967295)) = true := by decide +kernel

/-- The example of R147; V-D1. -/
theorem test_dEos :
    next (exec .dEos (decWith [] [79, 84])) (fun t => t.outputs == [.byte 79, .byte 84] && t.dec.phase == .done &&
      t.decPort.sent == [79, 84]) = true ∧
    next (exec .dEos decFresh) (fun t => t.outputs == [] && t.dec.phase == .done && t.dec.tbl.next == 256) = true := by
  decide +kernel

/-- V-F1, `L` = 1 and 5. -/
theorem test_dShort :
    next (exec (.dShort 1) decFresh) (fun t => t.outputs == [] && t.dec.phase == .done && t.dec.fault == .none) = true ∧
    next (exec (.dShort 1) (decWith [] [97])) (fun t => t.outputs == [.byte 97] && t.dec.phase == .done) = true := by
  decide +kernel

/-! ### Token codec and host primitives (V-C, V-F) -/

/-- V-C6, V-C8; in `IDLE` nothing but a start can change the phase (R221), nor in `DONE` (R29, R130). -/
theorem test_pack :
    next (exec (.pack 16909060) State.reset) (fun t => t.outputs == [.byte 4, .byte 3, .byte 2, .byte 1]) = true ∧
    encFaults (exec (.pack 4294967296) encFresh) (.codeRange 4294967296) = true ∧
    (∀ s ∈ [State.reset, encIn .done encFresh], refuses (exec (.pack 4294967296) s) (.wrongPhase .enc) = true) := by
  decide +kernel

/-- V-C9, V-C11. -/
theorem test_unpack :
    next (exec (.unpack [0, 1, 0, 0]) State.reset) (fun t => t.outputs == [.code 256]) = true ∧
    next (exec (.unpack [0xff, 0xff, 0xff, 0xff]) State.reset) (fun t => t.outputs == [.code 4294967295]) = true := by
  decide +kernel

/-- R172: the byte, then the end, then nothing more. -/
theorem test_readByte :
    next (exec (.readByte .enc) (withEncInput [5, 6] encFresh)) (fun t => t.outputs == [.byte 5] && t.encPort.input == [6]) = true ∧
    next (exec (.readByte .dec) (withDecInput [] decFresh)) (fun t => t.outputs == [.endOfStream] &&
      (match exec (.readByte .dec) t with | .refused r => r == .readAfterEnd .dec | _ => false)) = true ∧
    refuses (exec (.readByte .dec) decFresh) (.notOpened .dec) = true := by decide +kernel

/-- R173. -/
theorem test_writeBytes :
    next (exec (.writeBytes .dec [2, 3]) { decFresh with decPort := { decFresh.decPort with sent := [1] } })
      (fun t => t.decPort.sent == [1, 2, 3] && t.outputs == [.success]) = true ∧
    encFaults (exec (.writeBytes .enc [1]) (withEncWrites [.fails 9] encFresh)) (.ioError 9) = true := by decide +kernel

/-- V-F2: `61 00 00 00 00 01 00` yields `Code(97)`, then `Short(3)`. -/
theorem test_readCode :
    next (exec .readCode (withDecInput [0x61, 0, 0, 0, 0, 1, 0] decFresh)) (fun t => t.outputs == [.code 97] &&
      next (exec .readCode t) fun u => u.outputs == [.short 3] && u.decPort.input == []) = true := by decide +kernel

/-! ### Composites -/

/-- V-E7, V-E4 (a flush of the newest entry). -/
theorem test_compress :
    next (exec (.compress [97, 98, 97, 98, 97, 98, 97, 98]) State.reset) (fun t =>
      t.outputs == [.code 97, .code 98, .code 256, .code 258, .code 98] && t.enc.tbl.next == 260 &&
      t.enc.tbl.get [97, 98, 97] == some 258 && t.enc.phase == .done) = true ∧
    next (exec (.compress [97, 97, 97]) State.reset) (fun t => t.outputs == [.code 97, .code 256]) = true := by
  decide +kernel

/-- V-D9, V-X4. -/
theorem test_decompress :
    next (exec (.decompress [97, 98, 257]) State.reset) (fun t =>
      t.outputs == [.byte 97, .byte 98, .byte 98, .byte 98] && t.dec.tbl.get 257 == some [98, 98] && t.dec.tbl.next == 258) = true ∧
    decFaults (exec (.decompress [97, 256, 258]) State.reset) (.decodeError (.code 258)) = true := by decide +kernel

/-- P2: self-reference and a short fragment. -/
theorem test_decompressBytes :
    next (exec (.decompressBytes [0x61, 0, 0, 0, 0, 1, 0, 0, 1, 1, 0, 0, 0x61, 0]) State.reset) (fun t =>
      t.outputs == List.replicate 6 (.byte 0x61) && t.dec.phase == .done && t.dec.tbl.next == 258) = true := by decide +kernel

/-- V-E5, packed. -/
theorem test_compressBytes :
    next (exec (.compressBytes [97, 97, 97, 97]) State.reset) (fun t =>
      t.encPort.sent == [0x61, 0, 0, 0, 0, 1, 0, 0, 0x61, 0, 0, 0] &&
      t.outputs == [0x61, 0, 0, 0, 0, 1, 0, 0, 0x61, 0, 0, 0].map .byte) = true := by decide +kernel

/-- V-X13, V-X7: other parameters. -/
theorem test_parameters :
    encFaults (compressFor { Config.hw with capacity := some 258 } [97, 98, 97, 98, 97, 98, 97, 98] State.reset) (.tableFull 258) = true ∧
    decFaults (decompressBytesFor { Config.hw with byteOrder := .be } [0x61, 0, 0, 0, 0x62, 0, 0, 0] State.reset)
      (.decodeError (.code 1627389952)) = true := by decide +kernel

/-! ### The step -/

/-- After reset, a field placed by the host is the first thing run. -/
theorem test_step_withFetchWord :
    next (step (State.reset.withFetchWord 8 0x61)) (fun t => t.enc.cur == [0x61] && t.enc.phase == .run) = true ∧
    next (step (State.reset.withFetchWord 32 0x61)) (fun t => t.dec.cw == [0x61] && t.dec.phase == .run) = true := by
  decide +kernel

/-- R178: during a stream no move of the host touches the table, writes to the sink, or feeds the stream beside its cursor;
R223: the host supplies no symbol before the output is open. -/
theorem test_step_host_contract :
    refuses (step (encFresh.setMoves [.issue (.tAddW [1, 2])])) (.hostContract .enc) = true ∧
    refuses (step (encFresh.setMoves [.issue (.writeBytes .enc [1])])) (.hostContract .enc) = true ∧
    refuses (step ((withEncInput [1] encFresh).setMoves [.issue (.eByte 2)])) (.hostContract .enc) = true ∧
    refuses (step (encFresh.setMoves [.issue (.eByte 2)])) (.hostContract .enc) = true ∧
    next (step ((openOutput .enc encFresh).setMoves [.issue (.eByte 2)])) (fun t => t.enc.cur == [2]) = true := by
  decide +kernel

/-- R7, R174, R225: the host opens before a stream and closes after it; a start closes nothing, and neither does its end. -/
theorem test_step_open_close :
    next (step (State.reset.setMoves [.openStream .enc [0x61]])) (fun t => t.encPort.inOpen && t.encPort.outOpen &&
      next (exec .eStart t) fun u => u.fed .enc && u.encPort.input == [0x61]) = true ∧
    next (exec .eEos (withEncInput [] encFresh)) (fun t => t.encPort.inOpen && t.encPort.outOpen &&
      next (step (t.setMoves [.close .enc])) fun u => !u.encPort.inOpen && !u.encPort.outOpen && u.moves == []) = true ∧
    refuses (step ((withEncInput [] encFresh).setMoves [.close .enc])) (.hostContract .enc) = true := by decide +kernel

/-! ### Witnesses: a concrete state and operands that meet the hypotheses of each statement, clause by clause

Named `witness_<statement>`; each lists the statement's hypotheses, at boundary values of their ranges. -/

/-- A next state exists where the check `next` says so. -/
theorem exists_of_next {o : Out} {p : State → Bool} (h : next o p = true) : ∃ t, o = .next t ∧ p t = true := by
  cases o with
  | next t => exact ⟨t, rfl, h⟩
  | fault r => cases h
  | refused r => cases h

/-- The state of a run: `ENC` has consumed "a". -/
theorem encInv_run : EncInv (encWith [] [97]) :=
  ⟨fun _ => ⟨rfl, EncTable.sound_literals⟩, fun _ => .inr (by decide +kernel), fun _ => by decide, fun _ => rfl,
    fun _ => rfl, (by cases ·), fun _ h => by cases h⟩

/-- The state of a run: `DEC` has consumed 97. -/
theorem decInv_run : DecInv (decWith [] [97]) :=
  ⟨fun _ => ⟨rfl, DecTable.sound_literals⟩, fun _ => rfl, fun h => (by cases h), fun _ => ⟨by decide, by decide, 97, by decide +kernel⟩,
    rfl, fun _ => rfl⟩

/-- The two clauses of each unit: `DONE`, and the other phases. -/
theorem witness_TInitLeavesExactlyTheSingletons :
    (encIn .done encFresh).enc.phase = .done ∧ (decIn .done decFresh).dec.phase = .done ∧ State.reset.enc.phase ≠ .done ∧
    encFresh.enc.phase ≠ .done ∧ State.reset.dec.phase ≠ .done ∧ decFresh.dec.phase ≠ .done := by decide

theorem witness_TContainsAnswersPresence :
    encFresh.enc.ready = true ∧ encFresh.tableLive .enc = true ∧ encFresh.enc.tbl.Sound ∧ ([255#8] : Word).length = 1 :=
  ⟨rfl, by decide, EncTable.sound_literals, rfl⟩

theorem witness_TLookupWAnswersTheCodeOrFaults :
    encFresh.enc.tbl.wf ∧ encFresh.enc.ready = true ∧ encFresh.tableLive .enc = true ∧
    ([255#8], 255) ∈ encFresh.enc.tbl.entries ∧ encFresh.enc.phase = .run ∧
    ((encIn .done encFresh).enc.phase = .done ∧ (encIn .done encFresh).tableLive .enc = true ∧
      (encIn .done encFresh).enc.tbl = encFresh.enc.tbl) ∧
    (∀ k, (([] : Word), k) ∉ encFresh.enc.tbl.entries) := by
  refine ⟨EncTable.wf_literals, rfl, by decide, mem_of_assocGet (by decide +kernel), rfl, ⟨rfl, rfl, rfl⟩, fun k h => ?_⟩
  obtain ⟨b, hb, _⟩ := EncTable.mem_literals.1 h
  cases hb

theorem witness_TLookupCAnswersTheWordOrFaults :
    decFresh.dec.tbl.wf ∧ decFresh.dec.ready = true ∧ decFresh.tableLive .dec = true ∧
    (255, [255#8]) ∈ decFresh.dec.tbl.entries ∧ decFresh.dec.tbl.next ≤ 256 ∧ decFresh.streaming .dec = true ∧
    (decIn .done decFresh).dec.phase = .done ∧ (decIn .done decFresh).tableLive .dec = true ∧
    (decIn .done decFresh).dec.tbl = decFresh.dec.tbl :=
  ⟨DecTable.wf_literals, rfl, by decide, mem_of_assocGet (by decide +kernel), by decide, rfl, rfl, rfl, rfl⟩

theorem witness_TAddWAppendsOneRow :
    encFresh.enc.ready = true ∧ encFresh.tableLive .enc = true ∧ ([97, 98] : Word) ≠ [] ∧ encFresh.enc.tbl.get [97, 98] = none :=
  ⟨rfl, by decide, by decide, by decide +kernel⟩

theorem witness_TAddCAppendsOneRow :
    decFresh.dec.tbl.wf ∧ decFresh.dec.ready = true ∧ decFresh.tableLive .dec = true ∧ ([97] : Word) ≠ [] :=
  ⟨DecTable.wf_literals, rfl, by decide, by decide⟩

theorem witness_TableMisuseStopsByName :
    (encFresh.enc.ready = true ∧ encFresh.tableLive .enc = true ∧ ([97] : Word) ≠ [] ∧ encFresh.enc.tbl.get [97] ≠ none ∧
      encFresh.enc.phase = .run ∧ (encIn .done encFresh).enc.phase = .done ∧ (encIn .done encFresh).enc.ready = true ∧
      (encIn .done encFresh).enc.tbl.get [97] ≠ none) ∧
    (decFresh.dec.ready = true ∧ decFresh.tableLive .dec = true) ∧
    (State.reset.enc.phase = .idle ∧ (encIn .done State.reset).enc.ready = false ∧ (encIn .done State.reset).enc.phase ≠ .fault) ∧
    (State.reset.dec.phase = .idle ∧ (decIn .done State.reset).dec.ready = false ∧ (decIn .done State.reset).dec.phase ≠ .fault) ∧
    (enterFault .enc (.ioError 7) encFresh encFresh).enc.phase = .fault ∧
    (enterFault .dec (.ioError 7) decFresh decFresh).dec.phase = .fault :=
  ⟨by decide +kernel, by decide +kernel, by decide, by decide, rfl, rfl⟩

/-- The counter at 256 and at 257, with room for 257 entries. -/
theorem witness_AFullTableFaultsOnBothUnits :
    ({ Config.hw with capacity := some 257 } : Config).capacity = some 257 ∧ ([1, 2] : Word) ≠ [] ∧
    (∀ s ∈ [encFresh, encWith [[97, 97]] [97], encIn .done (encWith [[97, 97]] [97])], s.enc.ready = true ∧ s.tableLive .enc = true ∧ s.enc.tbl.get [1, 2] = none) ∧
    encFresh.enc.tbl.next < 257 ∧ 257 ≤ (encWith [[97, 97]] [97]).enc.tbl.next ∧
    (∀ s ∈ [decFresh, decWith [[97, 97]] [97], decIn .done (decWith [[97, 97]] [97])], s.dec.ready = true ∧ s.tableLive .dec = true) ∧
    decFresh.dec.tbl.next < 257 ∧ 257 ≤ (decWith [[97, 97]] [97]).dec.tbl.next ∧
    (encWith [[97, 97]] [97]).enc.phase = .run ∧ (encIn .done (encWith [[97, 97]] [97])).enc.phase = .done ∧
    (decWith [[97, 97]] [97]).streaming .dec = true ∧ (decIn .done (decWith [[97, 97]] [97])).dec.phase = .done := by
  decide +kernel

theorem witness_TablesAreAppendOnly :
    initialisesATable (.eByte 97) = false ∧ ∃ t, exec (.eByte 97) (encWith [] [97]) = .next t ∧ (t.enc.tbl.next == 257) = true :=
  ⟨rfl, exists_of_next (by decide +kernel)⟩

theorem witness_CanonicalTablesThatReadAlikeAreEqual :
    (EncTable.literals Config.hw).wf ∧ (DecTable.literals Config.hw).wf ∧ (EncTable.literals Config.hw).next = 256 ∧ (DecTable.literals Config.hw).next = 256 :=
  ⟨EncTable.wf_literals, DecTable.wf_literals, rfl, rfl⟩

theorem witness_EByteHitExtendsTheCurrentWord :
    encFresh.enc.phase = .run ∧ encFresh.enc.tbl.get (encFresh.enc.cur ++ [255]) ≠ none ∧
    (encWith [[97, 98]] [97]).enc.phase = .run ∧ (encWith [[97, 98]] [97]).enc.tbl.get [97, 98] ≠ none := by decide +kernel

/-- A code of the largest value a field holds, and an ordinary one. -/
def encLargest : State :=
  { encFresh with enc := { encFresh.enc with tbl := { entries := [([97], 4294967295)], next := 4294967296 }, cur := [97] } }

theorem witness_EByteMissEmitsAddsAndRestarts :
    ∀ s ∈ [encWith [] [97], encLargest], s.enc.phase = .run ∧ s.enc.tbl.get (s.enc.cur ++ [97]) = none ∧
      (∃ k ∈ [97, 4294967295], s.enc.tbl.get s.enc.cur = some k ∧ k < 2 ^ 32) ∧
      (nextAnswer s.encPort.writes).1 = .returns := by decide +kernel

theorem witness_EEosFlushesWithoutGrowth :
    encFresh.enc.phase = .run ∧ encFresh.enc.cur = [] ∧
    encLargest.enc.phase = .run ∧ encLargest.enc.cur ≠ [] ∧
    encLargest.enc.tbl.get encLargest.enc.cur = some 4294967295 ∧ 4294967295 < 2 ^ 32 ∧
    (nextAnswer encLargest.encPort.writes).1 = .returns := by decide +kernel

theorem witness_EncWriteFailureAbortsTheStream :
    ∃ s : State, s = withEncWrites [.fails 7] (encWith [] [97]) ∧ s.enc.phase = .run ∧ s.enc.cur ≠ [] ∧
      s.enc.tbl.get s.enc.cur = some 97 ∧ 97 < 2 ^ 32 ∧ (nextAnswer s.encPort.writes).1 = .fails 7 ∧
      s.enc.tbl.get (s.enc.cur ++ [98]) = none := ⟨_, rfl, by decide +kernel⟩

/-- The least code that fits no field. -/
def encTooLarge : State :=
  { encFresh with enc := { encFresh.enc with tbl := { entries := [([97], 4294967296)], next := 4294967297 }, cur := [97] } }

theorem witness_ACodeTooLargeFaultsBeforeItIsWritten :
    2 ^ 32 ≤ 4294967296 ∧ encTooLarge.enc.phase = .run ∧ encTooLarge.enc.cur ≠ [] ∧
    encTooLarge.enc.tbl.get encTooLarge.enc.cur = some 4294967296 ∧ encTooLarge.enc.tbl.get (encTooLarge.enc.cur ++ [0]) = none ∧
    encFresh.enc.phase = .run ∧ (encIn .done encFresh).enc.phase ≠ .run ∧ State.reset.enc.phase ≠ .run := by decide +kernel

/-- A hit, a miss, a flush, and a miss whose write fails. -/
theorem witness_EncoderHasNoFaultOfItsOwn :
    ((encWith [] [97]).enc.tbl.Sound ∧ (encWith [] [97]).enc.tbl.has (encWith [] [97]).enc.cur = true ∧
      (encWith [] [97]).enc.phase = .run ∧ encFresh.enc.tbl.Sound ∧ encFresh.enc.cur = [] ∧ encFresh.enc.phase = .run) ∧
    (∃ t, exec (.eByte 97) (encWith [] [97]) = .next t ∧ (t.enc.phase == .run) = true) ∧
    (∃ t, exec .eEos (encWith [] [97]) = .next t ∧ (t.enc.phase == .done) = true) ∧
    (withEncWrites [.fails 7] (encWith [] [97])).enc = (encWith [] [97]).enc ∧
    ∃ t, exec (.eByte 97) (withEncWrites [.fails 7] (encWith [] [97])) = .next t ∧ (t.enc.phase == .fault) = true :=
  ⟨⟨EncTable.sound_literals, by decide +kernel, rfl, EncTable.sound_literals, rfl, rfl⟩, exists_of_next (by decide +kernel),
    exists_of_next (by decide +kernel), rfl, exists_of_next (by decide +kernel)⟩

theorem witness_EveryByteIsALegalInput :
    (encWith [] [97]).enc.tbl.Sound ∧ (encWith [] [97]).enc.tbl.has (encWith [] [97]).enc.cur = true ∧
    (encWith [] [97]).enc.phase = .run ∧ (encWith [] [97]).enc.tbl.next ≤ 2 ^ 32 ∧
    (encWith [] [97]).encPort.writeReturns ∧ encFresh.enc.cur = [] :=
  ⟨EncTable.sound_literals, by decide +kernel, rfl, by decide, rfl, rfl⟩

/-- With 255, 256 and the largest code of a field for `k`. -/
theorem witness_DCodeFirstTakesALiteralOnly :
    decFresh.dec.phase = .first ∧ decFresh.dec.tbl = DecTable.literals Config.hw ∧ 255 ≤ 255 ∧ (256 ≤ 256 ∧ 256 < 2 ^ 32) ∧
    (256 ≤ 4294967295 ∧ 4294967295 < 2 ^ 32) := ⟨rfl, rfl, by decide, by decide, by decide⟩

/-- With the newest code, 256, for `k`. -/
theorem witness_DCodeResolvesAPresentCode :
    (decWith [[97, 97]] [97]).dec.tbl.wf ∧ (decWith [[97, 97]] [97]).dec.phase = .run ∧ (decWith [[97, 97]] [97]).dec.la = none ∧
    (decWith [[97, 97]] [97]).dec.cw ≠ [] ∧ 256 < 2 ^ 32 ∧ (decWith [[97, 97]] [97]).dec.tbl.get 256 = some [97, 97] ∧
    ([97, 97] : Word).head? = some 97 ∧ (decWith [[97, 97]] [97]).decPort.writeReturns :=
  ⟨DecTable.wf_append _ DecTable.wf_literals, rfl, rfl, by decide, by decide, by decide +kernel, rfl, rfl⟩

theorem witness_DCodeResolvesTheSelfReferentialCode :
    (decWith [] [97]).dec.tbl.wf ∧ (decWith [] [97]).dec.phase = .run ∧ (decWith [] [97]).dec.la = none ∧
    (decWith [] [97]).dec.cw.head? = some 97 ∧ (decWith [] [97]).dec.tbl.next < 2 ^ 32 ∧ (decWith [] [97]).decPort.writeReturns :=
  ⟨DecTable.wf_literals, rfl, rfl, rfl, by decide, rfl⟩

/-- With the counter plus one, and the largest code of a field, for `k`. -/
theorem witness_DCodeAboveTheCounterFaults :
    (decWith [] [97]).dec.phase = .run ∧ (decWith [] [97]).dec.cw ≠ [] ∧
    ((decWith [] [97]).dec.tbl.next < 257 ∧ 257 < 2 ^ 32) ∧ ((decWith [] [97]).dec.tbl.next < 4294967295 ∧ 4294967295 < 2 ^ 32) ∧
    (decWith [] [97]).decPort.writeReturns := ⟨rfl, by decide, by decide, by decide, rfl⟩

theorem witness_DEosEmitsTheHeldBackWord :
    decFresh.dec.phase = .first ∧ (decWith [] [97]).dec.phase = .run ∧ (decWith [] [97]).dec.cw ≠ [] ∧
    (decWith [] [97]).decPort.writeReturns := ⟨rfl, rfl, by decide, rfl⟩

/-- Fragments of 1 and 3 bytes; 0 and 4, which are none. -/
theorem witness_DShortIsDEos :
    (1 ≤ 1 ∧ 1 ≤ 3 ∧ 3 ≤ 3) ∧ (0 = 0 ∨ 4 ≤ 0) ∧ (4 = 0 ∨ 4 ≤ 4) ∧ decFresh.dec.phase = .first ∧
    (decWith [] [97]).dec.phase = .run ∧ (decWith [] [97]).dec.cw ≠ [] ∧ (decWith [] [97]).decPort.writeReturns :=
  ⟨by decide, by decide, by decide, rfl, rfl, by decide, rfl⟩

/-- With the largest code of a field, which would be unresolvable. -/
theorem witness_DecWriteFailureComesBeforeClassification :
    ∃ s : State, s = withDecWrites [.fails 7] (decWith [] [97]) ∧ s.dec.phase = .run ∧ s.dec.cw ≠ [] ∧
      4294967295 < 2 ^ 32 ∧ 1 ≤ 3 ∧ 3 ≤ 3 ∧ (nextAnswer s.decPort.writes).1 = .fails 7 := ⟨_, rfl, by decide⟩

/-- At code number 2: 256, the largest legal code, and 257. -/
theorem witness_TheBoundOnALegalCode :
    DecInv (decWith [] [97]) ∧ (decWith [] [97]).dec.phase = .run ∧ 256 < 2 ^ 32 ∧ 257 < 2 ^ 32 ∧
    (decWith [] [97]).decPort.writeReturns ∧ 256 ≤ 254 + ((decWith [] [97]).dec.codesIn + 1) ∧
    254 + ((decWith [] [97]).dec.codesIn + 1) < 257 := ⟨decInv_run, rfl, by decide, by decide, rfl, by decide, by decide⟩

theorem witness_EventsInTheWrongPhaseAreRefused :
    4294967295 < 2 ^ 32 ∧ 1 ≤ 3 ∧ 3 ≤ 3 ∧ State.reset.enc.phase ≠ .run ∧ State.reset.dec.phase ≠ .first ∧
    State.reset.dec.phase ≠ .run := by decide

theorem witness_TheOnlyTransfersOfControl :
    (∃ t, exec .eStart State.reset = .next t ∧ true) ∧ (∃ t, exec (.eByte 97) encFresh = .next t ∧ true) ∧
    (∃ t, exec .eEos encFresh = .next t ∧ true) ∧ (∃ t, exec .dStart State.reset = .next t ∧ true) ∧
    (∃ t, exec (.dCode 97) decFresh = .next t ∧ true) ∧ (∃ t, exec .dEos decFresh = .next t ∧ true) ∧
    (∃ t, exec (.dShort 3) (decWith [] [97]) = .next t ∧ true) ∧
    (∃ t, exec (.compress [97]) (encIn .fault encFresh) = .next t ∧ (t.enc.phase == .done) = true) ∧
    (∃ t, exec (.decompressBytes [97, 0, 0, 0]) State.reset = .next t ∧ (t.dec.phase == .done) = true) ∧
    (∃ t, exec (.tLookupW [1, 2]) encFresh = .next t ∧ (t.enc.phase == .fault) = true) ∧
    (∃ t, exec .readCode (withDecReads [.fails 7] (withDecInput [] decFresh)) = .next t ∧ (t.dec.phase == .fault) = true) :=
  ⟨exists_of_next (p := fun _ => true) (by decide +kernel), exists_of_next (p := fun _ => true) (by decide +kernel),
    exists_of_next (p := fun _ => true) (by decide +kernel), exists_of_next (p := fun _ => true) (by decide +kernel),
    exists_of_next (p := fun _ => true) (by decide +kernel), exists_of_next (p := fun _ => true) (by decide +kernel),
    exists_of_next (p := fun _ => true) (by decide +kernel), exists_of_next (by decide +kernel), exists_of_next (by decide +kernel),
    exists_of_next (by decide +kernel), exists_of_next (by decide +kernel)⟩

theorem witness_SubCaseRowsAreTheirEventWhereSelected :
    4294967295 < 2 ^ 32 ∧ 2 ^ 32 ≤ 4294967296 ∧ encFresh.enc.phase = .run ∧ decFresh.dec.phase = .first ∧ (decWith [] [97]).dec.phase = .run := by decide

theorem witness_PackGivesTheFourBytes : (0 : Nat) < 2 ^ 32 ∧ 4294967295 < 2 ^ 32 := by decide

theorem witness_UnpackGivesTheCode : ([] : ByteSeq).length ≠ 4 ∧ ([1, 2, 3, 4, 5] : ByteSeq).length ≠ 4 := by decide

/-- One-byte codes, big-endian, 256 entries, words of one byte: each parameter at its least value. -/
def cfgLeast : Config := { Config.hw with codeBytes := 1, byteOrder := .be, capacity := some 256, maxWordLen := some 1 }

theorem witness_PackAndUnpackAreInverse :
    cfgLeast.valid = true ∧ Config.hw.valid = true ∧ 255 < cfgLeast.codeLimit ∧ ([255] : ByteSeq).length = cfgLeast.codeBytes ∧
    cfgLeast.codeLimit ≤ 256 := by decide

theorem witness_PackedOffsetsHoldTheirLanes :
    packField Config.hw 265 = some [9, 1, 0, 0] ∧ 0 < Config.hw.codeBytes ∧ 3 < Config.hw.codeBytes := by decide

theorem witness_ReadByteMovesTheCursor :
    (∀ u, (withDecInput [9] (withEncInput [9] (decBegin Config.hw encFresh))).fed u = true) ∧
    (∀ u, ((withDecInput [9] (withEncInput [9] (decBegin Config.hw encFresh))).port u).reads = [] ∧
      ((withDecInput [9] (withEncInput [9] (decBegin Config.hw encFresh))).port u).ended = false ∧
      ((withDecInput [9] (withEncInput [9] (decBegin Config.hw encFresh))).port u).input = [9]) ∧
    (encFresh.encPort.ended = false ∧ encFresh.encPort.input = []) ∧
    (encFresh.setPort .enc { encFresh.encPort with ended := true }).encPort.ended = true ∧
    (nextAnswer (encFresh.setPort .enc { encFresh.encPort with reads := [.fails 7] }).encPort.reads).1 = .fails 7 ∧
    (∀ u, (decBegin Config.hw encFresh).streaming u = true ∧ ((decBegin Config.hw encFresh).port u).inOpen = false) ∧
    (∀ u, State.reset.streaming u = false) := by
  refine ⟨?_, ?_, by decide, rfl, rfl, ?_, ?_⟩ <;> intro u <;> cases u <;> decide

theorem witness_WriteBytesAppendsToTheSink :
    encFresh.streaming .enc = true ∧ decFresh.streaming .dec = true ∧ ([1] : ByteSeq) ≠ [] ∧ encFresh.encPort.writeReturns ∧
    (nextAnswer (withDecWrites [.fails 7] decFresh).decPort.writes).1 = .fails 7 ∧ State.reset.streaming .enc = false ∧
    State.reset.streaming .dec = false := ⟨rfl, rfl, by decide, rfl, rfl, rfl, rfl⟩

theorem witness_ReadCodeFramesTheStream :
    (withDecInput [] decFresh).fed .dec = true ∧ decFresh.decPort.reads = [] ∧ decFresh.decPort.ended = false ∧
    decFresh.decPort.input = [] ∧ (withDecInput [1, 2, 3, 4] decFresh).decPort.input = 1 :: 2 :: 3 :: 4 :: [] ∧
    1 ≤ (withDecInput [1] decFresh).decPort.input.length ∧ (withDecInput [1, 2, 3] decFresh).decPort.input.length ≤ 3 ∧
    (decFresh.setPort .dec { decFresh.decPort with ended := true }).decPort.ended = true ∧
    ((withDecInput [] decFresh).setPort .dec { (withDecInput [] decFresh).decPort with ended := true }).fed .dec = true ∧
    (decFresh.streaming .dec = true ∧ decFresh.decPort.inOpen = false) ∧ State.reset.streaming .dec = false := by decide

/-- Both calls of `ENC` block, in a miss and in a step; those of `DEC` at the first byte of a code and at the last. -/
theorem witness_ABlockedCallHasNoNextState :
    (∃ s : State, s = withEncReads [.blocks] (withEncWrites [.blocks] (withEncInput [1] (encWith [] [97]))) ∧
      s.streaming .enc = true ∧ ([1] : ByteSeq) ≠ [] ∧ s.fed .enc = true ∧ s.encPort.ended = false ∧
      (nextAnswer s.encPort.reads).1 = .blocks ∧ (nextAnswer s.encPort.writes).1 = .blocks ∧ s.enc.phase = .run ∧
      s.enc.cur ≠ [] ∧ s.enc.tbl.get s.enc.cur = some 97 ∧ 97 < 2 ^ 32 ∧ s.enc.tbl.get (s.enc.cur ++ [98]) = none ∧
      s.moves = [] ∧ (s.setMoves [.poll .enc]).moves = .poll .enc :: []) ∧
    (∀ m ∈ [0, 3], ∃ s : State, s = withDecReads (List.replicate m .returns ++ [.blocks]) (withDecWrites [.blocks]
        (withDecInput [1, 2, 3] (decWith [] [97]))) ∧
      s.streaming .dec = true ∧ s.fed .dec = true ∧ s.fed .enc = false ∧ s.decPort.ended = false ∧
      s.decPort.reads = List.replicate m .returns ++ .blocks :: [] ∧ m ≤ 3 ∧ m ≤ s.decPort.input.length ∧
      (nextAnswer s.decPort.writes).1 = .blocks ∧ s.dec.phase = .run ∧ s.dec.cw ≠ [] ∧ 1 ≤ 3 ∧ 3 ≤ 3 ∧
      (97 < s.dec.tbl.next ∧ 256 = s.dec.tbl.next ∧ s.dec.tbl.next < 4294967295 ∧ 4294967295 < 2 ^ 32) ∧
      s.moves = [] ∧ (s.setMoves [.poll .dec]).moves = .poll .dec :: []) := by
  refine ⟨⟨_, rfl, by decide +kernel⟩, fun m hm => ⟨_, rfl, ?_⟩⟩
  revert m hm; decide +kernel

theorem witness_DecodeUndoesEncode :
    cfgLeast.valid = true ∧ Instr.wellFormedFor cfgLeast (.dCode 255) = true ∧ (Instr.dCode 255).format = .code ∧
    Config.hw.valid = true ∧ Instr.wellFormedFor Config.hw (.dCodeKwk 4294967295) = true ∧
    Instr.wellFormedFor Config.hw (.eByteMiss 255) = true ∧ (Instr.eByteMiss 255).format = .byte8 := by decide

theorem witness_EveryFieldHasOneMeaning :
    cfgLeast.valid = true ∧ Config.hw.valid = true ∧ ([0] : ByteSeq).length = 1 ∧
    ([0, 0, 0, 0] : ByteSeq).length = Config.hw.codeBytes ∧ ([] : ByteSeq).length ≠ 1 ∧
    ([0, 0, 0] : ByteSeq).length ≠ Config.hw.codeBytes := by decide

theorem witness_AStepOfEncRunsTheDecodedByte :
    ∃ s : State, s = withEncInput [0xff] encFresh ∧ s.moves = [] ∧ s.fed .enc = true ∧ s.encPort.ended = false ∧
      s.encPort.reads = [] ∧ s.encPort.input = 0xff :: [] ∧ decode .byte8 [0xff] = .ok (.eByte 0xff) ∧
      (withEncInput [] encFresh).fed .enc = true ∧ (withEncInput [] encFresh).encPort.input = [] := ⟨_, rfl, by decide⟩

theorem witness_AStepOfDecRunsTheDecodedField :
    ∃ s : State, s = withDecInput [0x61, 0, 0, 0, 7] decFresh ∧ s.moves = [] ∧ s.fed .enc = false ∧ s.fed .dec = true ∧
      s.decPort.ended = false ∧ s.decPort.reads = [] ∧ s.decPort.input = [0x61, 0, 0, 0] ++ [7] ∧
      decode .code [0x61, 0, 0, 0] = .ok (.dCode 97) ∧ decFresh.decPort.input = [] ∧
      1 ≤ (withDecInput [1] decFresh).decPort.input.length ∧ (withDecInput [1, 2, 3] decFresh).decPort.input.length ≤ 3 :=
  ⟨_, rfl, by decide⟩

theorem witness_AStepTakesTheHostsNextMove :
    ((State.reset.setMoves [.issue (.unpack [])]).moves = .issue (.unpack []) :: [] ∧
      disturbs State.reset (.unpack []) = none ∧ disturbs (openOutput .enc encFresh) (.eByte 97) = none) ∧
    (State.reset.setMoves [.issue .eStart]).moves = .issue .eStart :: [] ∧
    (encFresh.enc.phase = .run ∧ decFresh.streaming .dec = true ∧ (decWith [] [97]).streaming .dec = true ∧
      (withEncInput [] encFresh).fed .enc = true ∧ (withDecInput [] decFresh).fed .dec = true) ∧
    ((∀ u, State.reset.streaming u = false ∧ (decBegin Config.hw encFresh).streaming u = true) ∧
      (∀ u, ∀ m ∈ [HostMove.openStream u [1], .openOutput u, .close u], (State.reset.setMoves [m]).moves = m :: []) ∧
      encFresh.encPort.outOpen = false ∧ decFresh.decPort.outOpen = false) ∧
    (State.reset.setMoves [.startStream .enc [1]]).moves = .startStream .enc [1] :: [] ∧
    (State.reset.setMoves [.startStream .dec [1]]).moves = .startStream .dec [1] :: [] ∧
    (∃ s : State, s = (withEncInput [1] encFresh).setMoves [.poll .enc] ∧ s.moves = .poll .enc :: [] ∧ s.fed .enc = true ∧
      s.encPort.ended = false ∧ s.encPort.reads = [] ∧ s.encPort.input = 1 :: []) ∧
    (∃ s : State, s = (withDecInput [1, 0, 0, 0] decFresh).setMoves [.poll .dec] ∧ s.moves = .poll .dec :: [] ∧
      s.fed .dec = true ∧ s.decPort.ended = false ∧ s.decPort.reads = [] ∧ s.decPort.input = [1, 0, 0, 0] ++ [] ∧
      decode .code [1, 0, 0, 0] = .ok (.dCode 1)) ∧
    (State.reset.moves = [] ∧ State.reset.fed .enc = false ∧ State.reset.fed .dec = false) :=
  ⟨by decide, rfl, by decide,
    ⟨fun u => by cases u <;> decide, fun u m hm => by cases u <;> revert m hm <;> decide, by decide⟩,
    rfl, rfl, ⟨_, rfl, by decide⟩, ⟨_, rfl, by decide⟩, by decide⟩

theorem witness_AReadFailureComesBeforeTheEvent :
    (∃ s : State, s = withEncReads [.fails 7] (withEncInput [] encFresh) ∧ s.moves = [] ∧ s.fed .enc = true ∧
      s.encPort.ended = false ∧ s.encPort.reads = .fails 7 :: [] ∧ (s.setMoves [.poll .enc]).moves = .poll .enc :: []) ∧
    (∀ m ∈ [0, 3], ∃ s : State, s = withDecReads (List.replicate m .returns ++ [.fails 7]) (withDecInput [1, 2, 3] decFresh) ∧
      s.moves = [] ∧ s.fed .enc = false ∧ s.fed .dec = true ∧ s.decPort.ended = false ∧
      s.decPort.reads = List.replicate m .returns ++ .fails 7 :: [] ∧ m ≤ 3 ∧ m ≤ s.decPort.input.length ∧
      (s.setMoves [.poll .dec]).moves = .poll .dec :: []) := by
  refine ⟨⟨_, rfl, by decide +kernel⟩, fun m hm => ⟨_, rfl, ?_⟩⟩
  revert m hm; decide +kernel

theorem witness_EveryStepKeepsTheTablesCanonical :
    Memory.wf (withEncInput [97] (encWith [] [97])) ∧
    ∃ t, step (withEncInput [97] (encWith [] [97])) = .next t ∧ (t.enc.tbl.next == 257) = true :=
  ⟨⟨EncTable.wf_literals, Memory.wf_reset.2⟩, exists_of_next (by decide +kernel)⟩

/-- A step that adds a row to `ET`. -/
theorem witness_EveryStepKeepsTheInvariantsOfTheUnits :
    EncInv (withEncInput [97] (encWith [] [97])) ∧ DecInv (withEncInput [97] (encWith [] [97])) ∧
    (withEncInput [97] (encWith [] [97])).resultsStand = true ∧
    ∃ t, step (withEncInput [97] (encWith [] [97])) = .next t ∧ (t.enc.tbl.next == 257) = true :=
  ⟨encInv_run.congr rfl rfl, .of_not_live (.inl rfl) rfl, rfl, exists_of_next (by decide +kernel)⟩

theorem witness_AUnitLeavesTheOtherAlone :
    isEncOp (.eByte 97) = true ∧ isDecOp (.dCode 97) = true ∧ (∃ t, exec (.eByte 97) encFresh = .next t ∧ (t.enc.cur == [97]) = true) ∧
    (∃ t, exec (.dCode 97) decFresh = .next t ∧ (t.dec.cw == [97]) = true) ∧
    ((withEncInput [1] State.reset).encPort.inOpen = true ∧ (withEncInput [1] State.reset).encPort.outOpen = true ∧
      ∃ t, exec .eStart (withEncInput [1] State.reset) = .next t ∧ t.encPort.inOpen = true) ∧
    ∃ t, exec (.decompressBytes []) State.reset = .next t ∧ t.decPort.inOpen = true :=
  ⟨rfl, rfl, exists_of_next (by decide +kernel), exists_of_next (by decide +kernel), ⟨rfl, rfl, exists_of_next (by decide +kernel)⟩,
    exists_of_next (by decide +kernel)⟩

/-- Two states that agree on one unit and differ in the other. -/
theorem witness_AUnitLearnsNothingOfTheOther :
    (encFresh.freeIdx = (decBegin Config.hw encFresh).freeIdx ∧ encFresh.enc = (decBegin Config.hw encFresh).enc ∧
      encFresh.encPort = (decBegin Config.hw encFresh).encPort ∧ encFresh.dec ≠ (decBegin Config.hw encFresh).dec ∧ isEncOp (.eByte 97) = true ∧
      ∃ t, exec (.eByte 97) encFresh = .next t ∧ (t.enc.cur == [97]) = true) ∧
    (decFresh.freeIdx = (encBegin Config.hw decFresh).freeIdx ∧ decFresh.dec = (encBegin Config.hw decFresh).dec ∧
      decFresh.decPort = (encBegin Config.hw decFresh).decPort ∧ decFresh.enc ≠ (encBegin Config.hw decFresh).enc ∧ isDecOp (.dCode 97) = true ∧
      ∃ t, exec (.dCode 97) decFresh = .next t ∧ (t.dec.cw == [97]) = true) :=
  ⟨⟨rfl, rfl, rfl, by decide +kernel, rfl, exists_of_next (by decide +kernel)⟩,
    ⟨rfl, rfl, rfl, by decide +kernel, rfl, exists_of_next (by decide +kernel)⟩⟩

/-- The hypotheses of the statements about `COMPRESS` (CompressEndsInDone, CompressIsTheGreedyParse,
CompressBytesPacksTheCodes): an empty and a non-empty input. -/
theorem witness_CompressEndsInDone :
    State.reset.encPort.writes = [] ∧ ([] : ByteSeq).length ≤ 2 ^ 32 - 256 ∧ ([97, 97] : ByteSeq).length ≤ 2 ^ 32 - 256 ∧
    ([97, 97] : ByteSeq) ≠ [] := by decide

theorem witness_CompressIsTheGreedyParse :
    State.reset.encPort.writes = [] ∧ ([97, 97] : ByteSeq).length ≤ 2 ^ 32 - 256 := by decide

theorem witness_CompressBytesPacksTheCodes :
    State.reset.encPort.writes = [] ∧ ([97, 97] : ByteSeq).length ≤ 2 ^ 32 - 256 := by decide

theorem witness_DecompressIsThePreviousTokenDecoder :
    State.reset.decPort.writes = [] ∧ (∀ k ∈ [97, 256, 4294967295], k < 2 ^ 32) := by decide

theorem witness_DecompressBytesDecodesTheFramedCodes :
    State.reset.decPort.reads = [] ∧ State.reset.decPort.writes = [] := by decide

theorem witness_ATruncatedStreamDecodesAsItsWholeCodes :
    State.reset.decPort.reads = [] ∧ State.reset.decPort.writes = [] := by decide

theorem witness_DecompressUndoesCompress :
    State.reset.encPort.writes = [] ∧ State.reset.decPort.writes = [] ∧ ([] : ByteSeq).length ≤ 2 ^ 32 - 256 ∧
    ([97, 97, 97] : ByteSeq).length ≤ 2 ^ 32 - 256 := by decide

/-- For "aaa" (V-E4: codes 97, 256) the clause about an entry speaks of `j = 1`: the entry of code 256. -/
theorem witness_TheTwoTablesEndInLockstep :
    (State.reset.encPort.writes = [] ∧ State.reset.decPort.writes = [] ∧ ([97, 97, 97] : ByteSeq).length ≤ 2 ^ 32 - 256) ∧
    (∃ t, exec (.compress [97, 97, 97]) State.reset = .next t ∧ (t.outputs == [97, 256].map .code) = true) ∧
    1 ≤ 1 ∧ 1 < ([97, 256] : CodeSeq).length :=
  ⟨by decide, exists_of_next (by decide +kernel), by decide, by decide⟩

theorem witness_DecompressBytesUndoesCompressBytes :
    State.reset.noFailures .enc = true ∧ State.reset.noFailures .dec = true ∧
    ([97, 97, 97] : ByteSeq).length ≤ 2 ^ 32 - 256 := by decide

theorem witness_ACutAtACodeBoundaryIsNotDetected :
    State.reset.decPort.writes = [] ∧
    ∃ t, exec (.decompress [97, 256]) State.reset = .next t ∧ (t.dec.phase == .done) = true :=
  ⟨rfl, exists_of_next (by decide +kernel)⟩

end Sys2Proof.Tests
end

section
/-! PROOFS, family 00_scope: canonical tables as maps (O10), the lanes of a packed code (O34), and the move of the host
that a step takes (O44). -/

namespace Sys2Proof.Machine

/-! ### Maps in canonical form (R11, R21, R22) -/

/-- With no key twice, the pairs of a map are the keys and values that reading gives. -/
theorem mem_iff_assocGet {α β : Type} [DecidableEq α] {l : List (α × β)} (hn : (l.map (·.1)).Nodup) (p : α × β) :
    p ∈ l ↔ assocGet p.1 l = some p.2 :=
  ⟨assocGet_of_mem hn, mem_of_assocGet⟩

/-- Two maps that read alike are equal lists when each has its rows in strictly rising order of one and the same measure:
they hold the same pairs, and the order leaves one arrangement of them. -/
theorem eq_of_assocGet_eq {α β : Type} [DecidableEq α] {l m : List (α × β)} (f : α × β → Nat)
    (hl : (l.map (·.1)).Nodup) (hm : (m.map (·.1)).Nodup) (sl : (l.map f).Pairwise (· < ·))
    (sm : (m.map f).Pairwise (· < ·)) (h : ∀ k, assocGet k l = assocGet k m) : l = m := by
  have hperm : l.Perm m := (List.perm_ext_iff_of_nodup (.of_map _ hl) (.of_map _ hm)).2 fun p => by
    rw [mem_iff_assocGet hl, mem_iff_assocGet hm, h]
  exact hperm.eq_of_pairwise (fun _ _ _ _ hlt hgt => absurd hlt hgt.asymm) (List.pairwise_map.1 sl) (List.pairwise_map.1 sm)

/-- A canonical encode table is fixed by its counter and by what its words read as. -/
theorem EncTable.ext_get {t u : EncTable} (ht : t.wf) (hu : u.wf) (hn : t.next = u.next) (h : ∀ w, t.get w = u.get w) :
    t = u := by
  obtain ⟨risingT, -, keysT⟩ := ht
  obtain ⟨risingU, -, keysU⟩ := hu
  have he : t.entries = u.entries := eq_of_assocGet_eq (·.2) keysT keysU risingT risingU h
  cases t; cases u; simp_all

/-- A canonical decode table is fixed by its counter and by what its codes read as. -/
theorem DecTable.ext_get {t u : DecTable} (ht : t.wf) (hu : u.wf) (hn : t.next = u.next) (h : ∀ k, t.get k = u.get k) :
    t = u := by
  obtain ⟨risingT, -⟩ := ht
  obtain ⟨risingU, -⟩ := hu
  have he : t.entries = u.entries := eq_of_assocGet_eq (·.1) risingT.nodup risingU.nodup risingT risingU h
  cases t; cases u; simp_all

/-- Settles O10: both tables are lists of rows in rising order of code, which what they read as determines. -/
theorem canonicalTablesThatReadAlikeAreEqual : Obligations.CanonicalTablesThatReadAlikeAreEqual :=
  ⟨fun _ _ => EncTable.ext_get, fun _ _ => DecTable.ext_get⟩

/-! ### The bytes of a packed code (R10, R83, R170) -/

/-- A packed code is the lanes of the code, in the byte order of the wire. -/
theorem eq_lanes_of_packField {cfg : Config} {k : Nat} {f : ByteSeq} (h : packField cfg k = some f) :
    f = cfg.ordered (lanes cfg.codeBytes k) := by
  unfold packField at h
  split_ifs at h
  exact (Option.some.inj h).symm

/-- Settles O34: offset `i` under `LE` is lane `i`; under `BE` the lanes are read from the last. -/
theorem packedOffsetsHoldTheirLanes : Obligations.PackedOffsetsHoldTheirLanes := by
  intro cfg k f i hf hi
  rw [eq_lanes_of_packField hf]
  cases ho : cfg.byteOrder with
  | le => simp only [Config.ordered, ho, lanes_getElem? _ _ _ hi]
  | be =>
    simp only [Config.ordered, ho]
    rw [List.getElem?_reverse (by simpa using hi), lanes_length, lanes_getElem? _ _ _ (by omega)]

/-! ### One equation of `step` per kind of move (R7) -/

section StepEquations
variable {s : State} {rest : List HostMove} {u : UnitId} {bs : ByteSeq}

theorem step_issue {i : Instr} (h : s.moves = .issue i :: rest) : step s = issueStep i (s.setMoves rest) := by
  simp [step, h]

theorem step_openStream (h : s.moves = .openStream u bs :: rest) :
    step s = resourceStep u (openStream u bs) (s.setMoves rest) := by
  simp [step, h]

theorem step_openOutput (h : s.moves = .openOutput u :: rest) :
    step s = resourceStep u (openOutput u) (s.setMoves rest) := by
  simp [step, h]

theorem step_close (h : s.moves = .close u :: rest) : step s = resourceStep u (closeStream u) (s.setMoves rest) := by
  simp [step, h]

theorem step_startStream (h : s.moves = .startStream u bs :: rest) : step s = startStep u bs (s.setMoves rest) := by
  simp [step, h]

theorem step_poll (h : s.moves = .poll u :: rest) : step s = pollStep u (s.setMoves rest) := by
  simp [step, h]

/-- With no move and no stream read from a cursor there is no event (R7). -/
theorem step_noEvent (h : s.moves = []) (he : s.fed .enc = false) (hd : s.fed .dec = false) :
    step s = .refused .noEvent := by
  simp [step, h, he, hd]

end StepEquations

/-! ### What the host may issue (R178, R223) -/

@[simp] theorem setMoves_closedToEvents (s : State) (m : List HostMove) (u : UnitId) :
    (s.setMoves m).closedToEvents u = s.closedToEvents u := by
  simp [State.closedToEvents]

/-- Which stream an operation disturbs does not depend on the moves still to come. -/
@[simp] theorem disturbs_setMoves (s : State) (m : List HostMove) (i : Instr) : disturbs (s.setMoves m) i = disturbs s i := by
  cases i <;> simp [disturbs]

/-- A move that issues an operation which disturbs no stream runs the operation. -/
theorem step_issue_of_undisturbed {s : State} {rest : List HostMove} {i : Instr} (h : s.moves = .issue i :: rest)
    (hd : disturbs s i = none) : step s = exec i (s.setMoves rest) := by
  rw [step_issue h, issueStep_eq (by simpa using hd)]

/-- A move that issues an operation which disturbs a stream has no step. -/
theorem step_issue_of_disturbs {s : State} {rest : List HostMove} {i : Instr} {u : UnitId}
    (h : s.moves = .issue i :: rest) (hd : disturbs s i = some u) : step s = .refused (.hostContract u) := by
  simp [step_issue h, issueStep, hd]

/-- A start, and a composite, which begins with one, disturbs nothing (R120, R140, R174). -/
theorem disturbs_start (s : State) (b : ByteSeq) (ks : CodeSeq) :
    ∀ i ∈ [Instr.eStart, .dStart, .compress b, .compressBytes b, .decompress ks, .decompressBytes b], disturbs s i = none := by
  simp [disturbs]

/-- During a stream of `ENC` its table and its sink are not the host's (R178). -/
theorem disturbs_encTable {s : State} (h : s.streaming .enc = true) (w : Word) :
    ∀ i ∈ [Instr.tInit .enc, .tContains w, .tLookupW w, .tAddW w, .writeBytes .enc w], disturbs s i = some .enc := by
  simp [disturbs, h]

/-- During a stream of `DEC` its table and its sink are not the host's (R178). -/
theorem disturbs_decTable {s : State} (h : s.streaming .dec = true) (w : Word) (k : Nat) :
    ∀ i ∈ [Instr.tInit .dec, .tLookupC k, .tAddC w, .writeBytes .dec w], disturbs s i = some .dec := by
  simp [disturbs, h]

/-- A stream of `u` that is read from its cursor is one in progress, with its input open. -/
theorem fed_iff {s : State} {u : UnitId} : s.fed u = true ↔ s.streaming u = true ∧ (s.port u).inOpen = true := by
  simp [State.fed]

/-- A stream that its cursor feeds takes no symbol from elsewhere (R178). -/
theorem closedToEvents_of_fed {s : State} {u : UnitId} (h : s.fed u = true) : s.closedToEvents u = true := by
  obtain ⟨hs, hopen⟩ := fed_iff.1 h
  simp [State.closedToEvents, hs, hopen]

/-- A stream whose output is not open takes no symbol (R223). -/
theorem closedToEvents_of_outputClosed {s : State} {u : UnitId} (hs : s.streaming u = true)
    (ho : (s.port u).outOpen = false) : s.closedToEvents u = true := by
  simp [State.closedToEvents, hs, ho]

theorem disturbs_encEvent {s : State} (h : s.closedToEvents .enc = true) (c : Byte) :
    ∀ i ∈ [Instr.eByte c, .eByteHit c, .eByteMiss c, .eEos], disturbs s i = some .enc := by
  simp [disturbs, h]

theorem disturbs_decEvent {s : State} (h : s.closedToEvents .dec = true) (k n : Nat) :
    ∀ i ∈ [Instr.dCode k, .dCodeFirst k, .dCodeRes k, .dCodeKwk k, .dCodeBad k, .dEos, .dShort n], disturbs s i = some .dec := by
  simp [disturbs, h]

/-- Beside a cursor that feeds `ENC` the host issues no event of `ENC`, and no read from under it (R178, R224). -/
theorem disturbs_encFed {s : State} (h : s.fed .enc = true) (c : Byte) :
    ∀ i ∈ [Instr.eByte c, .eByteHit c, .eByteMiss c, .eEos, .readByte .enc], disturbs s i = some .enc := by
  simp [disturbs, h, closedToEvents_of_fed h]

/-- Beside a cursor that feeds `DEC` the host issues no event of `DEC`, and no read from under it (R178, R224). -/
theorem disturbs_decFed {s : State} (h : s.fed .dec = true) (k n : Nat) :
    ∀ i ∈ [Instr.dCode k, .dCodeFirst k, .dCodeRes k, .dCodeKwk k, .dCodeBad k, .dEos, .dShort n, .readByte .dec, .readCode],
      disturbs s i = some .dec := by
  simp [disturbs, h, closedToEvents_of_fed h]

/-! ### Opening and closing (R174, R223, R225) -/

theorem setPort_setOutputs (s : State) (u : UnitId) (p : Port) (o : List Output) :
    (s.setPort u p).setOutputs o = (s.setOutputs o).setPort u p := by
  cases u <;> rfl

theorem resourceStep_of_not_streaming {s : State} {u : UnitId} (h : s.streaming u = false) (f : State → State) :
    resourceStep u f s = .next ((f s).setOutputs []) := by
  simp [resourceStep, h]

theorem resourceStep_of_streaming {s : State} {u : UnitId} (h : s.streaming u = true) (f : State → State) :
    resourceStep u f s = .refused (.hostContract u) := by
  simp [resourceStep, h]

/-- Between streams of `u` a move opens or closes its resources, and changes nothing else. -/
theorem step_resource_of_not_streaming {s : State} {u : UnitId} (h : s.streaming u = false) (rest : List HostMove)
    (bs : ByteSeq) :
    (s.moves = .openStream u bs :: rest → step s = .next (((s.setMoves rest).setOutputs []).setPort u
      { s.port u with inOpen := true, outOpen := true, input := bs, ended := false })) ∧
    (s.moves = .openOutput u :: rest →
      step s = .next (((s.setMoves rest).setOutputs []).setPort u { s.port u with outOpen := true })) ∧
    (s.moves = .close u :: rest →
      step s = .next (((s.setMoves rest).setOutputs []).setPort u { s.port u with inOpen := false, outOpen := false })) := by
  have hs : (s.setMoves rest).streaming u = false := by simpa using h
  refine ⟨fun hm => ?_, fun hm => ?_, fun hm => ?_⟩
  · rw [step_openStream hm, resourceStep_of_not_streaming hs, openStream, setPort_setOutputs, setMoves_port]
  · rw [step_openOutput hm, resourceStep_of_not_streaming hs, openOutput, setPort_setOutputs, setMoves_port]
  · rw [step_close hm, resourceStep_of_not_streaming hs, closeStream, setPort_setOutputs, setMoves_port]

/-- During a stream of `u` no move opens or closes its resources (R178). -/
theorem step_resource_of_streaming {s : State} {u : UnitId} (h : s.streaming u = true) (rest : List HostMove)
    (bs : ByteSeq) : ∀ m ∈ [HostMove.openStream u bs, .openOutput u, .close u], s.moves = m :: rest →
      step s = .refused (.hostContract u) := by
  have hs : (s.setMoves rest).streaming u = true := by simpa using h
  simp only [List.forall_mem_cons]
  refine ⟨fun hm => ?_, fun hm => ?_, fun hm => ?_, by simp⟩
  · rw [step_openStream hm, resourceStep_of_streaming hs]
  · rw [step_openOutput hm, resourceStep_of_streaming hs]
  · rw [step_close hm, resourceStep_of_streaming hs]

/-! ### The event at a cursor (R126, R150, R172, R175) -/

/-- A read of an open cursor whose reads return answers the next byte and moves the cursor by one, and nothing else. -/
theorem callReadByte_moves_cursor {u : UnitId} {s : State} {c : Byte} {more : ByteSeq} (hf : (s.port u).inOpen = true)
    (he : (s.port u).ended = false) (hr : (s.port u).reads = []) (hi : (s.port u).input = c :: more) :
    callReadByte u s = .ok (.byte c) (s.setPort u { s.port u with input := more }) := by
  rw [callReadByte_cons hf he hr hi, ← hr]

/-- The loop of `ReadCode` reads a whole field: it answers its code, the cursor past it. -/
theorem readField_append {cfg : Config} {s : State} {g more : ByteSeq} (f : ByteSeq) (hf : s.decPort.inOpen = true)
    (he : s.decPort.ended = false) (hr : s.decPort.reads = []) (hi : s.decPort.input = g ++ more) :
    readField cfg g.length f s =
      .ok (.code (unpackField cfg (f ++ g))) (s.setPort .dec { s.decPort with input := more }) := by
  induction g generalizing f s with
  | nil =>
    have hs : s.setPort .dec { s.decPort with input := more } = s := by
      rw [show more = s.decPort.input from hi.symm]; rfl
    simp [readField, hs]
  | cons c g ih =>
    have hrest := ih (s := s.setPort .dec { s.decPort with input := g ++ more }) (f ++ [c]) hf he hr rfl
    rw [List.length_cons, readField, callReadByte_moves_cursor (u := .dec) hf he hr hi, bind_ok]
    simpa using hrest

/-- `ENC` takes the byte at its cursor (R126). -/
theorem pollStep_enc_byte {s : State} {c : Byte} {more : ByteSeq} (hf : s.fed .enc = true)
    (he : s.encPort.ended = false) (hr : s.encPort.reads = []) (hi : s.encPort.input = c :: more) :
    pollStep .enc s = exec (.eByte c) (s.setPort .enc { s.encPort with input := more }) := by
  obtain ⟨hs, hopen⟩ := fed_iff.1 hf
  have hfetch : fetch Config.hw .enc s = .ok (.eByte c) (s.setPort .enc { s.encPort with input := more }) := by
    simp only [fetch, hs, if_true, fetchEnc, callReadByte_moves_cursor hopen he hr hi, bind_ok, decodeFor, port_enc]
  rw [pollStep, hfetch]

/-- `DEC` takes the code of the field at its cursor (R150, R175). -/
theorem pollStep_dec_code {s : State} {f more : ByteSeq} (hf : s.fed .dec = true) (he : s.decPort.ended = false)
    (hr : s.decPort.reads = []) (hi : s.decPort.input = f ++ more) (hlen : f.length = Config.hw.codeBytes) :
    pollStep .dec s = exec (.dCode (unpackField Config.hw f)) (s.setPort .dec { s.decPort with input := more }) := by
  obtain ⟨hs, hopen⟩ := fed_iff.1 hf
  have hread : callReadCode Config.hw s =
      .ok (.code (unpackField Config.hw f)) (s.setPort .dec { s.decPort with input := more }) := by
    rw [callReadCode, ← hlen, readField_append [] hopen he hr hi, List.nil_append]
  have hfetch : fetch Config.hw .dec s =
      .ok (.dCode (unpackField Config.hw f)) (s.setPort .dec { s.decPort with input := more }) := by
    simp only [fetch, hs, if_true, fetchDec, hread, bind_ok]
  rw [pollStep, hfetch]

/-- A field that decodes to a code has the wire's width, and the code is what `Unpack` gives (R82, R171). -/
theorem decode_code_eq_ok {f : ByteSeq} {k : Nat} (h : decode .code f = .ok (.dCode k)) :
    f.length = Config.hw.codeBytes ∧ unpackField Config.hw f = k := by
  simp only [decode, decodeFor] at h
  split_ifs at h with hlen
  exact ⟨hlen, Instr.dCode.inj (Except.ok.inj h)⟩

/-- Settles O44: clause by clause, the equation of `step` for the move, with what the operation issued disturbs. -/
theorem aStepTakesTheHostsNextMove : Obligations.AStepTakesTheHostsNextMove := by
  intro s rest
  refine ⟨?issue, ?start, ?encTable, ?decTable, ?resource, ?resourceInStream, ?encOutputClosed, ?decOutputClosed,
    ?encFed, ?decFed, ?startEnc, ?startDec, ?pollEnc, ?pollDec, step_noEvent⟩
  case issue => exact fun i hm hd => step_issue_of_undisturbed hm hd
  case start => exact fun b ks i hi hm => step_issue_of_undisturbed hm (disturbs_start s b ks i hi)
  case encTable => exact fun w hp i hi hm => step_issue_of_disturbs hm (disturbs_encTable (decide_eq_true hp) w i hi)
  case decTable => exact fun w k hs i hi hm => step_issue_of_disturbs hm (disturbs_decTable hs w k i hi)
  case resource => exact fun u bs hs => step_resource_of_not_streaming hs rest bs
  case resourceInStream => exact fun u bs hs => step_resource_of_streaming hs rest bs
  case encOutputClosed =>
    intro c hp ho i hi hm
    have hc : s.closedToEvents .enc = true := closedToEvents_of_outputClosed (decide_eq_true hp) ho
    exact step_issue_of_disturbs hm (disturbs_encEvent hc c i hi)
  case decOutputClosed =>
    intro k n hs ho i hi hm
    have hc : s.closedToEvents .dec = true := closedToEvents_of_outputClosed hs ho
    exact step_issue_of_disturbs hm (disturbs_decEvent hc k n i hi)
  case encFed => exact fun c hf i hi hm => step_issue_of_disturbs hm (disturbs_encFed hf c i hi)
  case decFed => exact fun k n hf i hi hm => step_issue_of_disturbs hm (disturbs_decFed hf k n i hi)
  case startEnc => exact fun bs hm => step_startStream hm
  case startDec => exact fun bs hm => step_startStream hm
  case pollEnc =>
    intro c more hm hf he hr hi
    rw [step_poll hm]
    exact pollStep_enc_byte ((setMoves_fed s rest .enc).trans hf) he hr hi
  case pollDec =>
    intro f more k hm hf he hr hi hk
    obtain ⟨hlen, rfl⟩ := decode_code_eq_ok hk
    rw [step_poll hm]
    exact pollStep_dec_code ((setMoves_fed s rest .dec).trans hf) he hr hi hlen

end Sys2Proof.Machine
end

section
/-! PROOFS, family 10_state: an operation reads and writes its own unit alone (O50, O49). -/

namespace Sys2Proof.Machine

/-! ### One unit within another state

Every operation of unit `u` commutes with replacing everything but the side of `u`. That is both halves of the independence
of the units (R20, R62): what an operation leaves alone, and what its outcome does not depend on. -/

/-- The side of `u` in `s` (the unit, its port, the counter of free values), within what `x` holds of everything else. -/
def State.within (s : State) (u : UnitId) (x : State) : State :=
  match u with
  | .enc => { x with enc := s.enc, encPort := s.encPort, freeIdx := s.freeIdx }
  | .dec => { x with dec := s.dec, decPort := s.decPort, freeIdx := s.freeIdx }

/-- The result of an operation of `u`, within `x`. -/
def Res.within {α : Type} (r : Res α) (u : UnitId) (x : State) : Res α :=
  match r with
  | .ok a s => .ok a (s.within u x)
  | .raise c s => .raise c (s.within u x)
  | .stuck f => .stuck f
  | .refuse r => .refuse r

/-- The outcome of a step of `u`, within `x`: the output symbols are the step's. -/
def outWithin (o : Out) (u : UnitId) (x : State) : Out :=
  match o with
  | .next t => .next ((t.within u x).setOutputs t.outputs)
  | .fault f => .fault f
  | .refused r => .refused r

/-- An operation that looks at unit `u` alone and changes it alone. -/
def Local {α : Type} (u : UnitId) (f : State → Res α) : Prop := ∀ s x, f (s.within u x) = (f s).within u x

/-- A step that looks at unit `u` alone and changes it alone. -/
def LocalStep (u : UnitId) (f : State → Out) : Prop := ∀ s x, f (s.within u x) = outWithin (f s) u x

section
variable {α β : Type} {u : UnitId} {s x : State}

@[simp] theorem within_self : s.within u s = s := by cases u <;> rfl

@[simp] theorem within_port : (s.within u x).port u = s.port u := by cases u <;> rfl

@[simp] theorem within_streaming : (s.within u x).streaming u = s.streaming u := by cases u <;> rfl

@[simp] theorem within_tableLive : (s.within u x).tableLive u = s.tableLive u := by cases u <;> rfl

@[simp] theorem within_faulted : (s.within u x).faulted u = s.faulted u := by cases u <;> rfl

theorem within_setPort {p : Port} : (s.within u x).setPort u p = (s.setPort u p).within u x := by cases u <;> rfl

@[simp] theorem setOutputs_within {o : List Output} : (s.setOutputs o).within u x = s.within u x := by cases u <;> rfl

theorem within_setOutputs {o : List Output} : (s.within u x).setOutputs o = s.within u (x.setOutputs o) := by
  cases u <;> rfl

@[simp] theorem within_outputs : (s.within u x).outputs = x.outputs := by cases u <;> rfl

theorem outWithin_next : outWithin (.next s) u x = .next (s.within u (x.setOutputs s.outputs)) := by cases u <;> rfl

@[simp] theorem outWithin_setOutputs {r : Out} {o : List Output} : outWithin r u (x.setOutputs o) = outWithin r u x := by
  cases r with
  | next t => cases u <;> rfl
  | fault f => rfl
  | refused r => rfl

theorem enterFault_within {c : Cause} {s0 : State} :
    enterFault u c (s0.within u x) (s.within u x) = ((enterFault u c s0 s).within u x).setOutputs [] := by
  cases u <;> rfl

/-- One local operation after another. -/
theorem within_bind {r : Res α} {k k' : α → State → Res β} (h : ∀ a t, k' a (t.within u x) = (k a t).within u x) :
    (r.within u x).bind k' = (r.bind k).within u x := by
  cases r with
  | ok a t => exact h a t
  | raise c t => rfl
  | stuck f => rfl
  | refuse r => rfl

theorem ite_within {p : Prop} [Decidable p] {r r' : Res α} :
    (if p then r else r').within u x = if p then r.within u x else r'.within u x := by split <;> rfl

theorem Local.bind {f : State → Res α} {k : α → State → Res β} (hf : Local u f) (hk : ∀ a, Local u (k a)) :
    Local u fun s => (f s).bind k := fun s x => by
  show (f (s.within u x)).bind k = ((f s).bind k).within u x
  rw [hf]; exact within_bind fun a t => hk a t x

/-- A step of `u` whose statements are local is local, the faults it takes included (R202). -/
theorem Local.finish {f : State → Res (List Output)} (hf : Local u f) :
    LocalStep u fun s => finish u s (f s) := fun s x => by
  show Machine.finish u (s.within u x) (f (s.within u x)) = outWithin (Machine.finish u s (f s)) u x
  rw [hf]
  cases f s with
  | ok o t => cases u <;> rfl
  | raise c t =>
    cases hs : s.streaming u
    · simp [Machine.finish, Res.within, hs, outWithin]
    · simp [Machine.finish, Res.within, hs, outWithin, enterFault_within]
  | stuck g => rfl
  | refuse g => rfl

theorem Local.withTable {f : State → Res (List Output)} (hf : Local u f) :
    Local u fun s => withTable u s (f s) := fun s x => by
  show Machine.withTable u (s.within u x) (f (s.within u x)) = _
  rw [hf]
  cases u <;> simp only [Machine.withTable, within_faulted, within_tableLive, ite_within] <;> rfl

theorem Local.betweenStreams {f : State → Res (List Output)} (hf : Local u f) :
    Local u fun s => betweenStreams u s (f s) := fun s x => by
  show Machine.betweenStreams u (s.within u x) (f (s.within u x)) = _
  rw [hf]
  simp only [Machine.betweenStreams, within_streaming, within_tableLive, ite_within]; rfl

theorem Local.withStream {f : State → Res (List Output)} (hf : Local u f) :
    Local u fun s => withStream u s (f s) := fun s x => by
  show Machine.withStream u (s.within u x) (f (s.within u x)) = _
  rw [hf]
  simp only [Machine.withStream, within_streaming, ite_within]; rfl

end

/-! ### The shared operations are local -/

section
variable (s x : State)

@[simp] theorem within_enc : (s.within .enc x).enc = s.enc := rfl
@[simp] theorem within_dec : (s.within .dec x).dec = s.dec := rfl

end

theorem local_refuse {u : UnitId} {α : Type} {r : Refusal} : Local u fun _ => (.refuse r : Res α) := fun _ _ => rfl

theorem Local.ite {u : UnitId} {α : Type} {p : State → Prop} [DecidablePred p] {f g : State → Res α}
    (hp : ∀ s x, p (s.within u x) ↔ p s) (hf : Local u f) (hg : Local u g) :
    Local u fun s => if p s then f s else g s := fun s x => by
  simp only [hp, hf s x, hg s x, ite_within]

theorem tblLookupW_local (w : Word) : Local .enc (tblLookupW w) := fun s x => by
  simp only [tblLookupW, within_enc]; cases s.enc.tbl.get w <;> rfl

theorem tblLookupC_local (k : Nat) : Local .dec (tblLookupC k) := fun s x => by
  simp only [tblLookupC, within_dec, ite_within]; cases s.dec.tbl.get k <;> rfl

theorem tblAddW_local (cfg : Config) (w : Word) : Local .enc (tblAddW cfg w) := fun s x => by
  simp only [tblAddW, within_enc, ite_within]; rfl

theorem tblAddC_local (cfg : Config) (w : Word) : Local .dec (tblAddC cfg w) := fun s x => by
  simp only [tblAddC, within_dec, ite_within]; rfl

theorem callReadByte_local (u : UnitId) : Local u (callReadByte u) := fun s x => by
  simp only [callReadByte, within_port, within_setPort, ite_within]
  rcases nextAnswer (s.port u).reads with ⟨_ | _ | _, rest⟩
  · cases (s.port u).input <;> rfl
  · rfl
  · rfl

theorem callWriteBytes_local (u : UnitId) (bs : ByteSeq) : Local u (callWriteBytes u bs) := fun s x => by
  simp only [callWriteBytes, within_port, within_setPort, ite_within]
  rcases nextAnswer (s.port u).writes with ⟨_ | _ | _, rest⟩ <;> rfl

theorem readField_local (cfg : Config) (m : Nat) (f : ByteSeq) : Local .dec (readField cfg m f) := by
  induction m generalizing f with
  | zero => exact fun _ _ => rfl
  | succ m ih =>
    refine (callReadByte_local .dec).bind fun r => ?_
    cases r with
    | endOfStream => exact fun s x => by simp only [ite_within]; rfl
    | byte c => exact ih _

theorem emitCode_local (cfg : Config) (k : Nat) : Local .enc (emitCode cfg k) := fun s x => by
  unfold emitCode
  cases packField cfg k with
  | none => rfl
  | some bs => exact (callWriteBytes_local .enc bs).bind (fun _ _ _ => rfl) s x

theorem emitWord_local (w : Word) : Local .dec (emitWord w) :=
  (callWriteBytes_local .dec w).bind fun _ _ _ => rfl

/-! ### The events are local -/

theorem Local.encRunning {f : State → Res (List Output)} (hf : Local .enc f) : Local .enc fun s => encRunning s (f s) :=
  .ite (fun _ _ => Iff.rfl) hf local_refuse

theorem encHit_local (c : Byte) : Local .enc (encHit c) := fun _ _ => rfl

theorem encMiss_local (cfg : Config) (c : Byte) : Local .enc (encMiss cfg c) := fun s x => by
  unfold encMiss
  rw [show countByte (s.within .enc x) = (countByte s).within .enc x from rfl, tblLookupW_local]
  refine within_bind fun k s1 => ?_
  rw [emitCode_local]
  refine within_bind fun _ s2 => ?_
  rw [tblAddW_local]
  exact within_bind fun _ s3 => rfl

theorem encByte_local (cfg : Config) (c : Byte) : Local .enc (encByte cfg c) :=
  .encRunning (.ite (fun _ _ => Iff.rfl) (encHit_local c) (encMiss_local cfg c))

theorem encEos_local (cfg : Config) : Local .enc (encEos cfg) := by
  refine .encRunning (.ite (fun _ _ => Iff.rfl) (fun _ _ => rfl) fun s x => ?_)
  rw [tblLookupW_local]
  refine within_bind fun k s1 => ?_
  rw [emitCode_local]
  exact within_bind fun _ s2 => rfl

theorem Local.withWireCode {cfg : Config} {k : Nat} {f : State → Res (List Output)} (hf : Local .dec f) :
    Local .dec fun s => withWireCode cfg k (f s) :=
  .ite (fun _ _ => Iff.rfl) hf local_refuse

theorem Local.decAccept {f g : State → Res (List Output)} (hf : Local .dec f) (hg : Local .dec g) :
    Local .dec fun s => decAccept s (f s) (g s) := fun s x => by
  simp only [Machine.decAccept, within_dec, hf s x, hg s x]
  cases s.dec.phase <;> rfl

theorem decFirst_local (k : Nat) : Local .dec (decFirst k) :=
  .ite (fun _ _ => Iff.rfl)
    (fun s x => by
      rw [show countCode (s.within .dec x) = (countCode s).within .dec x from rfl, tblLookupC_local]
      exact within_bind fun _ _ => rfl)
    fun _ _ => rfl

theorem firstByte_local (w : Word) : Local .dec (firstByte w) := fun _ _ => by cases w <;> rfl

theorem lookaheadByte_local (la : Nat) : Local .dec (lookaheadByte la) := fun s x => by
  unfold lookaheadByte
  rw [within_dec]
  cases codeClass s.dec.tbl.next la with
  | res => exact (tblLookupC_local la).bind firstByte_local s x
  | kwk => exact firstByte_local s.dec.cw s x
  | bad => rfl

theorem resolveLookahead_local (cfg : Config) : Local .dec (resolveLookahead cfg) := fun s x => by
  unfold resolveLookahead
  rw [within_dec]
  cases s.dec.la with
  | none => rfl
  | some la =>
    show (lookaheadByte la (s.within .dec x)).bind _ = Res.within ((lookaheadByte la s).bind _) .dec x
    rw [lookaheadByte_local]
    refine within_bind fun f s1 => ?_
    rw [tblAddC_local]
    refine within_bind fun _ s2 => ?_
    rw [tblLookupC_local]
    exact within_bind fun _ s3 => rfl

theorem decRun_local (cfg : Config) (k : Nat) : Local .dec (decRun cfg k) := fun s x => by
  show (emitWord s.dec.cw (((countCode s).setDec { (countCode s).dec with la := heldAhead cfg k }).within .dec x)).bind _ = _
  rw [emitWord_local]
  refine within_bind fun _ s1 => ?_
  rw [resolveLookahead_local]
  exact within_bind fun _ s2 => rfl

theorem decCode_local (cfg : Config) (k : Nat) : Local .dec (decCode cfg k) :=
  .withWireCode (.decAccept (decFirst_local k) (decRun_local cfg k))

theorem decRunCase_local (cfg : Config) (cl : CodeClass) (k : Nat) : Local .dec (decRunCase cfg cl k) :=
  .withWireCode (.decAccept local_refuse (.ite (fun _ _ => Iff.rfl) (decRun_local cfg k) local_refuse))

theorem decEos_local : Local .dec decEos :=
  .decAccept (fun _ _ => rfl) fun s x => by
    rw [emitWord_local]
    exact within_bind fun _ _ => rfl

theorem decShort_local (cfg : Config) (n : Nat) : Local .dec (decShort cfg n) :=
  .ite (fun _ _ => Iff.rfl) decEos_local local_refuse

/-! ### The composites are local: each is local steps, run one after the other (R91) -/

theorem runSteps_local {u : UnitId} {l : List (State → Out)} (hl : ∀ f ∈ l, LocalStep u f) (acc : List Output) :
    LocalStep u (runSteps u l acc) := by
  intro s x
  induction l generalizing acc s x with
  | nil => simp only [runSteps, outWithin, setOutputs_within, setOutputs_outputs, within_setOutputs]
  | cons f l ih =>
    obtain ⟨hf, hl⟩ := List.forall_mem_cons.1 hl
    simp only [runSteps, hf s x]
    cases f s with
    | next t =>
      simp only [outWithin_next, within_faulted, within_outputs, setOutputs_outputs]
      split
      · rw [outWithin_next]
      · rw [ih hl, outWithin_setOutputs]
    | fault g => rfl
    | refused g => rfl

theorem eStartStep_local (cfg : Config) : LocalStep .enc (eStartStep cfg) := Local.finish fun _ _ => rfl

theorem dStartStep_local (cfg : Config) : LocalStep .dec (dStartStep cfg) := Local.finish fun _ _ => rfl

theorem compressFor_local (cfg : Config) (b : ByteSeq) : LocalStep .enc (compressFor cfg b) := by
  refine runSteps_local (fun f hf => ?_) []
  simp only [compressSteps, List.mem_cons, List.mem_append, List.mem_map, List.not_mem_nil, or_false] at hf
  obtain rfl | ⟨c, _, rfl⟩ | rfl := hf
  · exact eStartStep_local cfg
  · exact (encByte_local cfg c).finish
  · exact (encEos_local cfg).finish

theorem decompressFor_local (cfg : Config) (ks : CodeSeq) : LocalStep .dec (decompressFor cfg ks) := by
  refine runSteps_local (fun f hf => ?_) []
  simp only [decompressSteps, List.mem_cons, List.mem_append, List.mem_map, List.not_mem_nil, or_false] at hf
  obtain rfl | ⟨k, _, rfl⟩ | rfl := hf
  · exact dStartStep_local cfg
  · exact (decCode_local cfg k).finish
  · exact decEos_local.finish

theorem compressBytesFor_local (cfg : Config) (b : ByteSeq) : LocalStep .enc (compressBytesFor cfg b) := fun s x => by
  simp only [compressBytesFor, compressFor_local cfg b s x]
  cases compressFor cfg b s with
  | next t =>
    simp only [outWithin, within_setOutputs, within_faulted]
    split <;> rfl
  | fault g => rfl
  | refused g => rfl

theorem fetchDec_local (cfg : Config) : Local .dec (fetchDec cfg) :=
  (readField_local cfg cfg.codeBytes []).bind fun r _ _ => by cases r <;> rfl

theorem dEventStep_local (cfg : Config) (i : Instr) : LocalStep .dec (dEventStep cfg i) := by
  unfold dEventStep
  split
  · exact (decCode_local cfg _).finish
  · exact (decShort_local cfg _).finish
  · exact decEos_local.finish

theorem pumpDec_local (cfg : Config) : LocalStep .dec (pumpDec cfg) := fun s x => by
  simp only [pumpDec, fetchDec_local cfg s x]
  cases fetchDec cfg s with
  | ok i t => exact dEventStep_local cfg i t x
  | raise c t => simp only [Res.within, enterFault_within, outWithin, enterFault_outputs]
  | stuck g => rfl
  | refuse g => rfl

theorem pumpDecAll_local (cfg : Config) (n : Nat) (acc : List Output) : LocalStep .dec (pumpDecAll cfg n acc) := by
  intro s x
  induction n generalizing acc s x with
  | zero => simp only [pumpDecAll, outWithin, setOutputs_within, setOutputs_outputs, within_setOutputs]
  | succ n ih =>
    simp only [pumpDecAll, pumpDec_local cfg s x]
    cases pumpDec cfg s with
    | next t =>
      simp only [outWithin_next, within_faulted, within_dec, within_outputs, setOutputs_outputs]
      split_ifs
      · rw [outWithin_next]
      · rw [outWithin_next, within_setOutputs, setOutputs_within]; rfl
      · rw [ih, outWithin_setOutputs]
    | fault g => rfl
    | refused g => rfl

theorem decompressBytesFor_local (cfg : Config) (bs : ByteSeq) : LocalStep .dec (decompressBytesFor cfg bs) := fun s x => by
  have := pumpDecAll_local cfg (bs.length + 1) [] ((decBegin cfg (openStream .dec bs s)).setOutputs []) (x.setOutputs [])
  rwa [outWithin_setOutputs] at this

/-! ### Every operation is local to its unit -/

/-- The unit an operation belongs to. -/
def unitOf (i : Instr) : UnitId := if isEncOp i then .enc else .dec

theorem unitOf_of_isEncOp {i : Instr} (h : isEncOp i = true) : unitOf i = .enc := if_pos h

theorem unitOf_of_isDecOp {i : Instr} (h : isDecOp i = true) : unitOf i = .dec := by
  have : isEncOp i = false := by unfold isDecOp at h; split at h <;> first | rfl | cases h
  simp [unitOf, this]

/-- What an operation does depends on its unit alone, and changes its unit alone (R20, R62, R209). -/
theorem exec_local (i : Instr) : LocalStep (unitOf i) (exec i) := by
  cases i with
  | tInit u => cases u <;> exact Local.finish (.betweenStreams fun _ _ => rfl)
  | tContains w => exact Local.finish (.withTable fun _ _ => rfl)
  | tLookupW w => exact Local.finish (.withTable ((tblLookupW_local w).bind fun _ _ _ => rfl))
  | tLookupC k => exact Local.finish (.withTable ((tblLookupC_local k).bind fun _ _ _ => rfl))
  | tAddW w => exact Local.finish (.withTable ((tblAddW_local _ w).bind fun _ _ _ => rfl))
  | tAddC w => exact Local.finish (.withTable ((tblAddC_local _ w).bind fun _ _ _ => rfl))
  | eStart => exact eStartStep_local _
  | eByte c => exact (encByte_local _ c).finish
  | eByteHit c => exact Local.finish (.encRunning (.ite (fun _ _ => Iff.rfl) (encHit_local c) local_refuse))
  | eByteMiss c => exact Local.finish (.encRunning (.ite (fun _ _ => Iff.rfl) local_refuse (encMiss_local _ c)))
  | eEos => exact (encEos_local _).finish
  | dStart => exact dStartStep_local _
  | dCode k => exact (decCode_local _ k).finish
  | dCodeFirst k => exact Local.finish (.withWireCode (.decAccept (decFirst_local k) local_refuse))
  | dCodeRes k => exact (decRunCase_local _ .res k).finish
  | dCodeKwk k => exact (decRunCase_local _ .kwk k).finish
  | dCodeBad k => exact (decRunCase_local _ .bad k).finish
  | dEos => exact decEos_local.finish
  | dShort n => exact (decShort_local _ n).finish
  | pack k => exact Local.finish fun s x => by cases packField Config.hw k <;> rfl
  | unpack f => exact Local.finish (.ite (fun _ _ => Iff.rfl) (fun _ _ => rfl) local_refuse)
  | readByte u =>
    cases u <;> exact Local.finish (.withStream ((callReadByte_local _).bind fun r _ _ => by cases r <;> rfl))
  | writeBytes u bs => cases u <;> exact Local.finish (.withStream ((callWriteBytes_local _ bs).bind fun _ _ _ => rfl))
  | readCode => exact Local.finish (.withStream ((readField_local _ _ _).bind fun r _ _ => by cases r <;> rfl))
  | compress b => exact compressFor_local _ b
  | decompress ks => exact decompressFor_local _ ks
  | decompressBytes bs => exact decompressBytesFor_local _ bs
  | compressBytes b => exact compressBytesFor_local _ b

/-- An operation run on `s` and on a state with the same side of its unit ends alike (R62). -/
theorem exec_eq_within {i : Instr} {s s' t : State} (hs : s' = s.within (unitOf i) s') (h : exec i s = .next t) :
    exec i s' = .next ((t.within (unitOf i) s').setOutputs t.outputs) := by
  rw [hs, exec_local, h]
  simp only [outWithin, ← hs]

/-- What an operation ends in is what it left of everything but its unit, with its unit's new side in it. -/
theorem exec_frame {i : Instr} {s t : State} (h : exec i s = .next t) :
    t = (t.within (unitOf i) s).setOutputs t.outputs := by
  have := exec_eq_within (s' := s) within_self.symm h
  rw [h] at this
  exact Host.Outcome.next.inj this

theorem exec_frame_of_isEncOp {i : Instr} {s t : State} (hi : isEncOp i = true) (h : exec i s = .next t) :
    t.dec = s.dec ∧ t.decPort = s.decPort ∧ t.moves = s.moves := by
  have := exec_frame h
  rw [unitOf_of_isEncOp hi] at this
  rw [this]
  exact ⟨rfl, rfl, rfl⟩

theorem exec_frame_of_isDecOp {i : Instr} {s t : State} (hi : isDecOp i = true) (h : exec i s = .next t) :
    t.enc = s.enc ∧ t.encPort = s.encPort ∧ t.moves = s.moves := by
  have := exec_frame h
  rw [unitOf_of_isDecOp hi] at this
  rw [this]
  exact ⟨rfl, rfl, rfl⟩

/-- Settles O50: the operation on the second state is the one on the first, put within what the second holds otherwise. -/
theorem aUnitLearnsNothingOfTheOther : Obligations.AUnitLearnsNothingOfTheOther := by
  intro i s s' t hfree h
  refine ⟨fun hi hu hp => ⟨_, exec_eq_within ?_ h, ?_⟩, fun hi hu hp => ⟨_, exec_eq_within ?_ h, ?_⟩⟩
  · rw [unitOf_of_isEncOp hi]; simp only [State.within, hu, hp, hfree]
  · rw [unitOf_of_isEncOp hi]; exact ⟨rfl, rfl, rfl⟩
  · rw [unitOf_of_isDecOp hi]; simp only [State.within, hu, hp, hfree]
  · rw [unitOf_of_isDecOp hi]; exact ⟨rfl, rfl, rfl⟩

/-! ### What is open stays open (R7, R174) -/

theorem keepsOpen_withTable {u : UnitId} {s : State} {r : Res (List Output)} (h : KeepsOpen s r) :
    KeepsOpen s (withTable u s r) :=
  keepsOpen_ite keepsOpen_refuse (keepsOpen_ite h keepsOpen_refuse)

theorem keepsOpen_decAccept {s : State} {r r' : Res (List Output)} (h : KeepsOpen s r) (h' : KeepsOpen s r') :
    KeepsOpen s (decAccept s r r') := by
  unfold decAccept
  cases s.dec.phase with
  | first => exact h
  | run => exact h'
  | idle | done | fault => exact keepsOpen_refuse

theorem encHit_keepsOpen (c : Byte) (s : State) : KeepsOpen s (encHit c s) :=
  keepsOpen_ok ((setEnc_sameOpen s _).trans (setEnc_sameOpen _ _))

theorem encMiss_keepsOpen (cfg : Config) (c : Byte) (s : State) : KeepsOpen s (encMiss cfg c s) :=
  keepsOpen_bind (.of_same (setEnc_sameOpen s _) (tblLookupW_keepsOpen _ _)) fun _ _ =>
  keepsOpen_bind (emitCode_keepsOpen ..) fun _ _ =>
  keepsOpen_bind (tblAddW_keepsOpen ..) fun _ s3 => keepsOpen_ok (setEnc_sameOpen s3 _)

theorem encByte_keepsOpen (cfg : Config) (c : Byte) (s : State) : KeepsOpen s (encByte cfg c s) :=
  keepsOpen_ite (keepsOpen_ite (encHit_keepsOpen c s) (encMiss_keepsOpen cfg c s)) keepsOpen_refuse

theorem encEos_keepsOpen (cfg : Config) (s : State) : KeepsOpen s (encEos cfg s) :=
  keepsOpen_ite (keepsOpen_ite (keepsOpen_ok (setEnc_sameOpen s _)) <|
    keepsOpen_bind (tblLookupW_keepsOpen _ _) fun _ _ =>
    keepsOpen_bind (emitCode_keepsOpen ..) fun _ s2 => keepsOpen_ok (setEnc_sameOpen s2 _)) keepsOpen_refuse

theorem decFirst_keepsOpen (k : Nat) (s : State) : KeepsOpen s (decFirst k s) :=
  keepsOpen_ite (keepsOpen_bind (.of_same (setDec_sameOpen s _) (tblLookupC_keepsOpen _ _)) fun _ s1 =>
    keepsOpen_ok (setDec_sameOpen s1 _)) (keepsOpen_raise (.refl s))

theorem firstByte_keepsOpen (w : Word) (s : State) : KeepsOpen s (firstByte w s) := by
  cases w with
  | nil => exact keepsOpen_refuse
  | cons f r => exact keepsOpen_ok (.refl s)

theorem lookaheadByte_keepsOpen (la : Nat) (s : State) : KeepsOpen s (lookaheadByte la s) := by
  unfold lookaheadByte
  cases codeClass s.dec.tbl.next la with
  | res => exact keepsOpen_bind (tblLookupC_keepsOpen la s) firstByte_keepsOpen
  | kwk => exact firstByte_keepsOpen _ s
  | bad => exact keepsOpen_raise (.refl s)

theorem resolveLookahead_keepsOpen (cfg : Config) (s : State) : KeepsOpen s (resolveLookahead cfg s) := by
  unfold resolveLookahead
  cases s.dec.la with
  | none => exact keepsOpen_ok (.refl s)
  | some la =>
    exact keepsOpen_bind (lookaheadByte_keepsOpen la s) fun _ s1 =>
      keepsOpen_bind (tblAddC_keepsOpen ..) fun _ s2 =>
      keepsOpen_bind (tblLookupC_keepsOpen ..) fun _ s3 => keepsOpen_ok (setDec_sameOpen s3 _)

theorem decRun_keepsOpen (cfg : Config) (k : Nat) (s : State) : KeepsOpen s (decRun cfg k s) :=
  keepsOpen_bind (.of_same ((setDec_sameOpen s _).trans (setDec_sameOpen _ _)) (emitWord_keepsOpen _ _)) fun _ s1 =>
  keepsOpen_bind (resolveLookahead_keepsOpen cfg s1) fun _ s2 => keepsOpen_ok (.refl s2)

theorem decCode_keepsOpen (cfg : Config) (k : Nat) (s : State) : KeepsOpen s (decCode cfg k s) :=
  keepsOpen_ite (keepsOpen_decAccept (decFirst_keepsOpen k s) (decRun_keepsOpen cfg k s)) keepsOpen_refuse

theorem decRunCase_keepsOpen (cfg : Config) (cl : CodeClass) (k : Nat) (s : State) :
    KeepsOpen s (decRunCase cfg cl k s) :=
  keepsOpen_ite (keepsOpen_decAccept keepsOpen_refuse (keepsOpen_ite (decRun_keepsOpen cfg k s) keepsOpen_refuse))
    keepsOpen_refuse

theorem decEos_keepsOpen (s : State) : KeepsOpen s (decEos s) :=
  keepsOpen_decAccept (keepsOpen_ok (setDec_sameOpen s _)) <|
    keepsOpen_bind (emitWord_keepsOpen ..) fun _ s1 => keepsOpen_ok (setDec_sameOpen s1 _)

theorem decShort_keepsOpen (cfg : Config) (n : Nat) (s : State) : KeepsOpen s (decShort cfg n s) :=
  keepsOpen_ite (decEos_keepsOpen s) keepsOpen_refuse

theorem fetchDec_keepsOpen (cfg : Config) (s : State) : KeepsOpen s (fetchDec cfg s) :=
  keepsOpen_bind (readField_keepsOpen ..) fun r t => by cases r <;> exact keepsOpen_ok (.refl t)

/-! ### A composite keeps what each of its events keeps (R91) -/

/-- The events that the expansion of a composite of `ENC` runs (R91). -/
def IsEncEvent (i : Instr) : Prop := i = .eStart ∨ i = .eEos ∨ ∃ c, i = .eByte c

/-- The events that the expansion of a composite of `DEC` runs (R91). -/
def IsDecEvent (i : Instr) : Prop := i = .dStart ∨ i = .dEos ∨ (∃ k, i = .dCode k) ∨ ∃ n, i = .dShort n

/-- Everything a cursor-driven step of `DEC` can do: run the event it read, or take the fault of a failed read. -/
theorem pumpDec_next {s t : State} (h : pumpDec Config.hw s = .next t) :
    (∃ i v, fetchDec Config.hw s = .ok i v ∧ IsDecEvent i ∧ exec i v = .next t) ∨
    ∃ c v, fetchDec Config.hw s = .raise c v ∧ t = enterFault .dec c s v := by
  unfold pumpDec at h
  split at h
  · next i v hi =>
    obtain ⟨p, rfl, -, -, -, rfl | ⟨k, rfl⟩ | ⟨n, rfl⟩⟩ := fetchDec_ok hi
    · exact .inl ⟨_, _, hi, .inr (.inl rfl), h⟩
    · exact .inl ⟨_, _, hi, .inr (.inr (.inl ⟨k, rfl⟩)), h⟩
    · exact .inl ⟨_, _, hi, .inr (.inr (.inr ⟨n, rfl⟩)), h⟩
  · next c v hi => exact .inr ⟨c, v, hi, by simpa using h.symm⟩
  · cases h
  · cases h

section
variable {P : State → Prop} {s t : State}

theorem exec_compress_keeps {b : ByteSeq} (ho : ∀ s o, P s → P (s.setOutputs o))
    (hev : ∀ i, IsEncEvent i → ∀ s t, P s → exec i s = .next t → P t) (hs : P s) (h : exec (.compress b) s = .next t) :
    P t := by
  refine runSteps_inv ho (fun f hf => ?_) hs h
  simp only [compressSteps, List.mem_cons, List.mem_append, List.mem_map, List.not_mem_nil, or_false] at hf
  obtain rfl | ⟨c, _, rfl⟩ | rfl := hf
  · exact hev .eStart (.inl rfl)
  · exact hev (.eByte c) (.inr (.inr ⟨c, rfl⟩))
  · exact hev .eEos (.inr (.inl rfl))

theorem exec_compressBytes_keeps {b : ByteSeq} (ho : ∀ s o, P s → P (s.setOutputs o))
    (hev : ∀ i, IsEncEvent i → ∀ s t, P s → exec i s = .next t → P t) (hs : P s)
    (h : exec (.compressBytes b) s = .next t) : P t := by
  obtain ⟨v, hv, rfl | ⟨o, rfl⟩⟩ := compressBytes_cases h
  · exact exec_compress_keeps ho hev hs hv
  · exact ho v o (exec_compress_keeps ho hev hs hv)

theorem exec_decompress_keeps {ks : CodeSeq} (ho : ∀ s o, P s → P (s.setOutputs o))
    (hev : ∀ i, IsDecEvent i → ∀ s t, P s → exec i s = .next t → P t) (hs : P s)
    (h : exec (.decompress ks) s = .next t) : P t := by
  refine runSteps_inv ho (fun f hf => ?_) hs h
  simp only [decompressSteps, List.mem_cons, List.mem_append, List.mem_map, List.not_mem_nil, or_false] at hf
  obtain rfl | ⟨k, _, rfl⟩ | rfl := hf
  · exact hev .dStart (.inl rfl)
  · exact hev (.dCode k) (.inr (.inr (.inl ⟨k, rfl⟩)))
  · exact hev .dEos (.inr (.inl rfl))

/-- Beside the events, the reads between them and the fault of a failed read have to keep it. -/
theorem exec_decompressBytes_keeps {bs : ByteSeq} (ho : ∀ s o, P s → P (s.setOutputs o))
    (hev : ∀ i, IsDecEvent i → ∀ s t, P s → exec i s = .next t → P t)
    (hread : ∀ s i v, P s → fetchDec Config.hw s = .ok i v → P v)
    (hfail : ∀ s c v, P s → fetchDec Config.hw s = .raise c v → P (enterFault .dec c s v))
    (hs : P (openStream .dec bs s)) (h : exec (.decompressBytes bs) s = .next t) : P t := by
  refine pumpDecAll_inv ho (fun s t hs h => ?_) (hev .dStart (.inl rfl) _ _ hs rfl) h
  obtain ⟨i, v, hi, hd, hx⟩ | ⟨c, v, hc, rfl⟩ := pumpDec_next h
  · exact hev i hd v t (hread s i v hs hi) hx
  · exact hfail s c v hs hc

end

/-! ### No operation opens or closes a resource but `DECOMPRESSBYTES` -/

/-- A fault of `u` keeps what is open, as the step that raised it did. -/
theorem sameOpen_enterFault {u : UnitId} {c : Cause} {s v : State} (h : SameOpen s v) : SameOpen s (enterFault u c s v) := by
  intro w
  cases u <;> cases w
  · exact h .enc
  · exact ⟨rfl, rfl⟩
  · exact ⟨rfl, rfl⟩
  · exact h .dec

theorem exec_encEvent_sameOpen {i : Instr} (hi : IsEncEvent i) {s t : State} (h : exec i s = .next t) : SameOpen s t := by
  obtain rfl | rfl | ⟨c, rfl⟩ := hi
  · exact sameOpen_finish (u := .enc) (keepsOpen_ok (encBegin_sameOpen _ s)) h
  · exact sameOpen_finish (encEos_keepsOpen _ s) h
  · exact sameOpen_finish (encByte_keepsOpen _ c s) h

theorem exec_decEvent_sameOpen {i : Instr} (hi : IsDecEvent i) {s t : State} (h : exec i s = .next t) : SameOpen s t := by
  obtain rfl | rfl | ⟨k, rfl⟩ | ⟨n, rfl⟩ := hi
  · exact sameOpen_finish (u := .dec) (keepsOpen_ok (decBegin_sameOpen _ s)) h
  · exact sameOpen_finish (decEos_keepsOpen s) h
  · exact sameOpen_finish (decCode_keepsOpen _ k s) h
  · exact sameOpen_finish (decShort_keepsOpen _ n s) h

/-- `DECOMPRESSBYTES` opens its operand and leaves open what it then finds (R174; assumption 20). -/
theorem exec_decompressBytes_sameOpen {bs : ByteSeq} {s t : State} (h : exec (.decompressBytes bs) s = .next t) :
    SameOpen (openStream .dec bs s) t :=
  exec_decompressBytes_keeps (P := SameOpen (openStream .dec bs s)) (fun _ _ hs u => by simpa using hs u)
    (fun _ hi _ _ hs h => hs.trans (exec_decEvent_sameOpen hi h))
    (fun s i v hs h => hs.trans ((fetchDec_keepsOpen _ s).1 i v h))
    (fun s c v hs h => hs.trans (sameOpen_enterFault ((fetchDec_keepsOpen _ s).2 c v h))) (.refl _) h

/-- A directly issued table operation that answers what it found, or nothing. -/
theorem tableOp_sameOpen {u : UnitId} {α : Type} {s t : State} {r : Res α} {o : α → List Output} (hr : KeepsOpen s r)
    (h : finish u s (withTable u s (r.bind fun a v => .ok (o a) v)) = .next t) : SameOpen s t :=
  sameOpen_finish (keepsOpen_withTable (keepsOpen_bind hr fun _ _ => keepsOpen_ok (.refl _))) h

/-- Every other operation leaves open what was open, and closed what was closed (R7, R174). -/
theorem exec_sameOpen {i : Instr} {s t : State} (hi : ∀ bs, i ≠ .decompressBytes bs) (h : exec i s = .next t) :
    SameOpen s t := by
  have hcomp : ∀ v : State, ∀ o, SameOpen s v → SameOpen s (v.setOutputs o) := fun _ _ hs u => by simpa using hs u
  cases i with
  | tInit u =>
    refine sameOpen_finish (keepsOpen_ite (keepsOpen_ok ?_) keepsOpen_refuse) h
    cases u
    · exact setEnc_sameOpen s _
    · exact setDec_sameOpen s _
  | tContains w => exact sameOpen_finish (keepsOpen_withTable (keepsOpen_ok (.refl s))) h
  | tLookupW w => exact tableOp_sameOpen (tblLookupW_keepsOpen w s) h
  | tLookupC k => exact tableOp_sameOpen (tblLookupC_keepsOpen k s) h
  | tAddW w => exact tableOp_sameOpen (tblAddW_keepsOpen _ w s) h
  | tAddC w => exact tableOp_sameOpen (tblAddC_keepsOpen _ w s) h
  | eStart => exact exec_encEvent_sameOpen (.inl rfl) h
  | eByte c => exact exec_encEvent_sameOpen (.inr (.inr ⟨c, rfl⟩)) h
  | eByteHit c =>
    exact sameOpen_finish (keepsOpen_ite (keepsOpen_ite (encHit_keepsOpen c s) keepsOpen_refuse) keepsOpen_refuse) h
  | eByteMiss c =>
    exact sameOpen_finish (keepsOpen_ite (keepsOpen_ite keepsOpen_refuse (encMiss_keepsOpen _ c s)) keepsOpen_refuse) h
  | eEos => exact exec_encEvent_sameOpen (.inr (.inl rfl)) h
  | dStart => exact exec_decEvent_sameOpen (.inl rfl) h
  | dCode k => exact exec_decEvent_sameOpen (.inr (.inr (.inl ⟨k, rfl⟩))) h
  | dCodeFirst k =>
    exact sameOpen_finish (keepsOpen_ite (keepsOpen_decAccept (decFirst_keepsOpen k s) keepsOpen_refuse) keepsOpen_refuse) h
  | dCodeRes k => exact sameOpen_finish (decRunCase_keepsOpen _ .res k s) h
  | dCodeKwk k => exact sameOpen_finish (decRunCase_keepsOpen _ .kwk k s) h
  | dCodeBad k => exact sameOpen_finish (decRunCase_keepsOpen _ .bad k s) h
  | dEos => exact exec_decEvent_sameOpen (.inr (.inl rfl)) h
  | dShort n => exact exec_decEvent_sameOpen (.inr (.inr (.inr ⟨n, rfl⟩))) h
  | pack k =>
    refine sameOpen_finish ?_ h
    cases packField Config.hw k
    · exact keepsOpen_raise (.refl s)
    · exact keepsOpen_ok (.refl s)
  | unpack f => exact sameOpen_finish (keepsOpen_ite (keepsOpen_ok (.refl s)) keepsOpen_refuse) h
  | readByte u =>
    exact sameOpen_finish (keepsOpen_ite (keepsOpen_bind (callReadByte_keepsOpen u s) fun r v => by
      cases r <;> exact keepsOpen_ok (.refl v)) keepsOpen_refuse) h
  | writeBytes u bs =>
    exact sameOpen_finish (keepsOpen_ite (keepsOpen_bind (callWriteBytes_keepsOpen u bs s) fun _ v =>
      keepsOpen_ok (.refl v)) keepsOpen_refuse) h
  | readCode =>
    exact sameOpen_finish (keepsOpen_ite (keepsOpen_bind (readField_keepsOpen _ _ _ s) fun r v => by
      cases r <;> exact keepsOpen_ok (.refl v)) keepsOpen_refuse) h
  | compress b =>
    exact exec_compress_keeps hcomp (fun _ hi _ _ hs h => hs.trans (exec_encEvent_sameOpen hi h)) (.refl s) h
  | decompress ks =>
    exact exec_decompress_keeps hcomp (fun _ hi _ _ hs h => hs.trans (exec_decEvent_sameOpen hi h)) (.refl s) h
  | decompressBytes bs => exact absurd rfl (hi bs)
  | compressBytes b =>
    exact exec_compressBytes_keeps hcomp (fun _ hi _ _ hs h => hs.trans (exec_encEvent_sameOpen hi h)) (.refl s) h

/-- Settles O49: the frame of a local operation, and the bookkeeping of what is open. -/
theorem aUnitLeavesTheOtherAlone : Obligations.AUnitLeavesTheOtherAlone := by
  intro i s t h
  refine ⟨fun hi => exec_frame_of_isEncOp hi h, fun hi => exec_frame_of_isDecOp hi h, fun u => ?_,
    fun u hi => exec_sameOpen hi h u, ?_⟩
  · by_cases hi : ∃ bs, i = .decompressBytes bs
    · obtain ⟨bs, rfl⟩ := hi
      obtain ⟨hin, hout⟩ := exec_decompressBytes_sameOpen h u
      rw [hin, hout]
      cases u
      · exact ⟨id, id⟩
      · exact ⟨fun _ => rfl, fun _ => rfl⟩
    · obtain ⟨hin, hout⟩ := exec_sameOpen (fun bs e => hi ⟨bs, e⟩) h u
      rw [hin, hout]
      exact ⟨id, id⟩
  · rintro bs rfl
    exact exec_decompressBytes_sameOpen h .dec

end Sys2Proof.Machine
end

section
/-! PROOFS, family 10_state: what every operation, and so every step, keeps of the tables (O9, O46) and of the units (O47),
and what power-on accepts (O48). -/

namespace Sys2Proof.Machine

/-! ### Inversion of the guards -/

section
variable {u : UnitId} {s v : State} {r : Res (List Output)} {o : List Output}

theorem withTable_ok (h : withTable u s r = .ok o v) : s.tableLive u = true ∧ r = .ok o v := by
  unfold withTable at h
  split_ifs at h with hf hl
  exact ⟨(Bool.and_eq_true_iff.1 hl).1, h⟩

theorem betweenStreams_ok (h : betweenStreams u s r = .ok o v) :
    s.tableLive u = true ∧ s.streaming u = false ∧ r = .ok o v := by
  unfold betweenStreams at h
  split_ifs at h with hl
  simp only [Bool.and_eq_true, Bool.not_eq_true'] at hl
  exact ⟨hl.1, hl.2, h⟩

theorem withStream_ok (h : withStream u s r = .ok o v) : s.streaming u = true ∧ r = .ok o v := by
  unfold withStream at h
  split_ifs at h with hs
  exact ⟨hs, h⟩

end

/-- A step that has a next state has the same where its statements are those of another step, or else refused. -/
theorem finish_next_of_or_refuse {u : UnitId} {s t : State} {r r' : Res (List Output)} (hr : r = r' ∨ ∃ q, r = .refuse q)
    (h : finish u s r = .next t) : finish u s r' = .next t := by
  obtain rfl | ⟨q, rfl⟩ := hr
  · exact h
  · cases h

theorem decRunCase_eq_or_refuse (cfg : Config) (cl : CodeClass) (k : Nat) (s : State) :
    decRunCase cfg cl k s = decCode cfg k s ∨ ∃ q, decRunCase cfg cl k s = .refuse q := by
  unfold decRunCase decCode withWireCode decAccept
  cases s.dec.phase <;> split_ifs <;> simp

/-- Where a sub-case row has a next state, it is that of its event (R89; assumption 6). -/
theorem exec_event {i : Instr} {s t : State} (h : exec i s = .next t) : exec i.event s = .next t := by
  cases i with
  | eByteHit c =>
    refine finish_next_of_or_refuse ?_ h
    unfold encByte encRunning; split_ifs <;> simp
  | eByteMiss c =>
    refine finish_next_of_or_refuse ?_ h
    unfold encByte encRunning; split_ifs <;> simp
  | dCodeFirst k =>
    refine finish_next_of_or_refuse ?_ h
    unfold decCode withWireCode decAccept; cases s.dec.phase <;> split_ifs <;> simp
  | dCodeRes k => exact finish_next_of_or_refuse (decRunCase_eq_or_refuse _ .res k s) h
  | dCodeKwk k => exact finish_next_of_or_refuse (decRunCase_eq_or_refuse _ .kwk k s) h
  | dCodeBad k => exact finish_next_of_or_refuse (decRunCase_eq_or_refuse _ .bad k s) h
  | _ => exact h

/-! ### Growth of the tables (R24, R106) -/

/-- `t'` is `t`, or `t` with one row more: an absent word under the counter's code. -/
def EncTable.Grown (t t' : EncTable) : Prop := t' = t ∨ ∃ w, t.has w = false ∧ t' = t.append w

/-- `t'` is `t`, or `t` with one row more, under the counter's code. -/
def DecTable.Grown (t t' : DecTable) : Prop := t' = t ∨ ∃ w, t' = t.append w

theorem EncTable.Grown.wf {t t' : EncTable} (h : t.Grown t') (ht : t.wf) : t'.wf := by
  obtain rfl | ⟨w, hw, rfl⟩ := h
  · exact ht
  · exact EncTable.wf_append ht hw

theorem DecTable.Grown.wf {t t' : DecTable} (h : t.Grown t') (ht : t.wf) : t'.wf := by
  obtain rfl | ⟨w, rfl⟩ := h
  · exact ht
  · exact DecTable.wf_append w ht

/-- Each table of `t` is that of `s`, or has one row more. -/
structure TablesGrown (s t : State) : Prop where
  enc : s.enc.tbl.Grown t.enc.tbl
  dec : s.dec.tbl.Grown t.dec.tbl

theorem TablesGrown.refl (s : State) : TablesGrown s s := ⟨.inl rfl, .inl rfl⟩

theorem TablesGrown.wf {s t : State} (h : TablesGrown s t) (hs : Memory.wf s) : Memory.wf t :=
  ⟨h.enc.wf hs.1, h.dec.wf hs.2⟩

theorem tablesGrown_setPort (s : State) (u : UnitId) (p : Port) : TablesGrown s (s.setPort u p) :=
  ⟨.inl (by rw [setPort_enc]), .inl (by rw [setPort_dec])⟩

theorem tablesGrown_enterFault (u : UnitId) (c : Cause) (s v : State) : TablesGrown s (enterFault u c s v) := by
  cases u <;> exact ⟨.inl rfl, .inl rfl⟩

/-- A fault drops the table writes of its step (R202), so only what completes has to be looked at. -/
theorem tablesGrown_finish {u : UnitId} {s t : State} {r : Res (List Output)} (hr : ∀ o v, r = .ok o v → TablesGrown s v)
    (h : finish u s r = .next t) : TablesGrown s t := by
  obtain ⟨o, v, hv, rfl⟩ | ⟨c, v, -, -, rfl⟩ := finish_cases h
  · exact ⟨(hr o v hv).enc, (hr o v hv).dec⟩
  · exact tablesGrown_enterFault u c s v

theorem eByte_tablesGrown {c : Byte} {s t : State} (h : exec (.eByte c) s = .next t) : TablesGrown s t := by
  refine tablesGrown_finish (fun o v hv => ?_) h
  obtain ⟨-, ⟨-, -, rfl⟩ | ⟨hn, hm⟩⟩ := encByte_ok hv
  · exact ⟨.inl rfl, .inl rfl⟩
  · obtain ⟨k, bs, -, -, -, -, -, rfl⟩ := encMiss_ok hm
    exact ⟨.inr ⟨_, hn, rfl⟩, .inl rfl⟩

theorem eEos_tablesGrown {s t : State} (h : exec .eEos s = .next t) : TablesGrown s t := by
  refine tablesGrown_finish (fun o v hv => ?_) h
  obtain ⟨-, ⟨-, -, rfl⟩ | ⟨-, k, bs, -, -, -, rfl⟩⟩ := encEos_ok hv <;> exact ⟨.inl rfl, .inl rfl⟩

theorem dCode_tablesGrown {k : Nat} {s t : State} (h : exec (.dCode k) s = .next t) : TablesGrown s t := by
  refine tablesGrown_finish (fun o v hv => ?_) h
  obtain ⟨-, ⟨-, hf⟩ | ⟨-, hr⟩⟩ := decCode_ok hv
  · obtain ⟨w, -, -, -, rfl⟩ := decFirst_ok hf
    exact ⟨.inl rfl, .inl rfl⟩
  · obtain ⟨f, w, -, -, -, -, -, -, rfl⟩ := decRun_ok lookahead_hw hr
    exact ⟨.inl rfl, .inr ⟨_, rfl⟩⟩

theorem decEos_tablesGrown {s v : State} {o : List Output} (h : decEos s = .ok o v) : TablesGrown s v := by
  obtain ⟨-, -, rfl⟩ | ⟨-, -, -, rfl⟩ := decEos_ok h <;> exact ⟨.inl rfl, .inl rfl⟩

theorem decShort_ok {cfg : Config} {n : Nat} {s v : State} {o : List Output} (h : decShort cfg n s = .ok o v) :
    decEos s = .ok o v := by
  unfold decShort at h
  split_ifs at h
  exact h

/-- A directly issued table operation that does not initialise: it reads, or it is one addition. -/
theorem tableOp_tablesGrown {u : UnitId} {α : Type} {s t : State} {r : Res α} {o : α → List Output}
    (hr : ∀ a v, r = .ok a v → TablesGrown s v)
    (h : finish u s (withTable u s (r.bind fun a v => .ok (o a) v)) = .next t) : TablesGrown s t := by
  refine tablesGrown_finish (fun _ v hv => ?_) h
  obtain ⟨a, v', ha, he⟩ := bind_eq_ok (withTable_ok hv).2
  cases he
  exact hr a v ha

/-- No operation but one that initialises a table does anything to a table but add one row (R24, R106). -/
theorem exec_tablesGrown {i : Instr} {s t : State} (hi : initialisesATable i = false) (h : exec i s = .next t) :
    TablesGrown s t := by
  cases i with
  | tContains w =>
    refine tablesGrown_finish (fun o v hv => ?_) h
    cases (withTable_ok hv).2
    exact .refl s
  | tLookupW w => exact tableOp_tablesGrown (fun _ _ ha => (tblLookupW_ok ha).2 ▸ .refl s) h
  | tLookupC k => exact tableOp_tablesGrown (fun _ _ ha => (tblLookupC_ok ha).2.2 ▸ .refl s) h
  | tAddW w =>
    refine tableOp_tablesGrown (fun _ v ha => ?_) h
    obtain ⟨-, hn, -, rfl⟩ := tblAddW_ok ha
    exact ⟨.inr ⟨w, hn, rfl⟩, .inl rfl⟩
  | tAddC w =>
    refine tableOp_tablesGrown (fun _ v ha => ?_) h
    obtain ⟨-, -, rfl⟩ := tblAddC_ok ha
    exact ⟨.inl rfl, .inr ⟨w, rfl⟩⟩
  | eByte c | eByteHit c | eByteMiss c => exact eByte_tablesGrown (exec_event h)
  | eEos => exact eEos_tablesGrown h
  | dCode k | dCodeFirst k | dCodeRes k | dCodeKwk k | dCodeBad k => exact dCode_tablesGrown (exec_event h)
  | dEos => exact tablesGrown_finish (fun _ _ => decEos_tablesGrown) h
  | dShort n => exact tablesGrown_finish (fun _ _ hv => decEos_tablesGrown (decShort_ok hv)) h
  | pack k =>
    refine tablesGrown_finish (fun o v hv => ?_) h
    split at hv <;> cases hv
    exact .refl s
  | unpack f =>
    refine tablesGrown_finish (fun o v hv => ?_) h
    split_ifs at hv; cases hv
    exact .refl s
  | readByte u =>
    refine tablesGrown_finish (fun o v hv => ?_) h
    obtain ⟨a, v', ha, he⟩ := bind_eq_ok (withStream_ok hv).2
    obtain ⟨-, p, rfl, -⟩ := callReadByte_ok ha
    cases a <;> cases he <;> exact tablesGrown_setPort s u p
  | writeBytes u bs =>
    refine tablesGrown_finish (fun o v hv => ?_) h
    obtain ⟨a, v', ha, he⟩ := bind_eq_ok (withStream_ok hv).2
    obtain ⟨-, rfl⟩ := callWriteBytes_ok ha
    cases he; exact tablesGrown_setPort s u _
  | readCode =>
    refine tablesGrown_finish (fun o v hv => ?_) h
    obtain ⟨a, v', ha, he⟩ := bind_eq_ok (withStream_ok hv).2
    obtain ⟨p, rfl, -⟩ := readField_ok ha
    cases a <;> cases he <;> exact tablesGrown_setPort s .dec p
  | tInit | eStart | dStart | compress | compressBytes | decompress | decompressBytes => cases hi

/-- Settles O9: an operation that does not initialise a table grows each by one row at most. -/
theorem tablesAreAppendOnly : Obligations.TablesAreAppendOnly := by
  intro i s t hi h
  obtain ⟨he, hd⟩ := exec_tablesGrown hi h
  exact ⟨he.imp_right fun ⟨w, _, hw⟩ => ⟨w, hw⟩, hd⟩

/-! ### From operations to steps -/

/-- The events of either unit. -/
def IsEvent (i : Instr) : Prop := IsEncEvent i ∨ IsDecEvent i

/-- A property of the units and of what they wrote holds after every step when the events and the faults keep it, and the
operations that the host may issue: the rest of a step moves the host's side of the streams only (R7, R178). -/
theorem step_keeps {P : State → Prop} {s t : State} (hmoves : ∀ s m, P s → P (s.setMoves m))
    (ho : ∀ s o, P s → P (s.setOutputs o)) (hport : ∀ s u p, p.sent = (s.port u).sent → P s → P (s.setPort u p))
    (hfault : ∀ u c s v, P s → P (enterFault u c s v)) (hev : ∀ i, IsEvent i → ∀ s t, P s → exec i s = .next t → P t)
    (hissue : ∀ i rest, s.moves = .issue i :: rest → disturbs s i = none → exec i (s.setMoves rest) = .next t → P t)
    (hs : P s) (h : step s = .next t) : P t := by
  obtain ⟨i, rest, hm, hd, hx⟩ | ⟨bs, rest, -, hx⟩ | ⟨bs, rest, -, hx⟩ | ⟨u, m, p, rest, -, -, rfl, hp⟩ |
    ⟨u, rest, -, hx⟩ := step_cases h
  · exact hissue i rest hm (by simpa using hd) hx
  · refine hev .eStart (.inl (.inl rfl)) _ _ ?_ hx
    exact hport _ .enc _ rfl (hmoves s rest hs)
  · refine hev .dStart (.inr (.inl rfl)) _ _ ?_ hx
    exact hport _ .dec _ rfl (hmoves s rest hs)
  · refine ho _ _ (hport _ _ _ ?_ (hmoves s rest hs))
    rw [setMoves_port]
    obtain ⟨bs, -, rfl⟩ | ⟨-, rfl⟩ | ⟨-, rfl⟩ := hp <;> rfl
  · obtain ⟨-, ⟨i, p, hp, -, -, hi, hx⟩ | ⟨e, p, rfl⟩⟩ := pollStep_cases hx
    · refine hev i ?_ _ _ (hport _ _ _ hp (hmoves s rest hs)) hx
      cases u
      · exact .inl (.inr hi)
      · exact .inr (.inr hi)
    · exact hfault _ _ _ _ (hmoves s rest hs)

/-! ### The canonical form of the tables -/

theorem exec_event_wf {i : Instr} (hi : IsEvent i) {s t : State} (hs : Memory.wf s) (h : exec i s = .next t) :
    Memory.wf t := by
  obtain (rfl | rfl | ⟨c, rfl⟩) | (rfl | rfl | ⟨k, rfl⟩ | ⟨n, rfl⟩) := hi
  case inl.inl => cases h; exact ⟨EncTable.wf_literals, hs.2⟩
  case inr.inl => cases h; exact ⟨hs.1, DecTable.wf_literals⟩
  all_goals exact (exec_tablesGrown rfl h).wf hs

theorem tInit_wf {u : UnitId} {s t : State} (hs : Memory.wf s) (h : exec (.tInit u) s = .next t) : Memory.wf t := by
  obtain ⟨o, v, hv, rfl⟩ | ⟨c, v, -, -, rfl⟩ := finish_cases h
  · cases (betweenStreams_ok hv).2.2
    cases u
    · exact Memory.wf_tblInitEnc (s := s) hs
    · exact Memory.wf_tblInitDec (s := s) hs
  · exact (tablesGrown_enterFault u c s v).wf hs

/-- Every operation keeps both tables canonical. -/
theorem exec_wf {i : Instr} {s t : State} (hs : Memory.wf s) (h : exec i s = .next t) : Memory.wf t := by
  have ho : ∀ (s : State) (o : List Output), Memory.wf s → Memory.wf (s.setOutputs o) := fun _ _ => id
  cases hi : initialisesATable i with
  | false => exact (exec_tablesGrown hi h).wf hs
  | true =>
    cases i with
    | tInit u => exact tInit_wf hs h
    | eStart => exact exec_event_wf (.inl (.inl rfl)) hs h
    | dStart => exact exec_event_wf (.inr (.inl rfl)) hs h
    | compress b => exact exec_compress_keeps ho (fun _ hi _ _ => exec_event_wf (.inl hi)) hs h
    | compressBytes b => exact exec_compressBytes_keeps ho (fun _ hi _ _ => exec_event_wf (.inl hi)) hs h
    | decompress ks => exact exec_decompress_keeps ho (fun _ hi _ _ => exec_event_wf (.inr hi)) hs h
    | decompressBytes bs =>
      refine exec_decompressBytes_keeps (P := Memory.wf) ho (fun _ hi _ _ => exec_event_wf (.inr hi))
        (fun s i v hs h => ?_) (fun s c v hs _ => (tablesGrown_enterFault .dec c s v).wf hs) hs h
      obtain ⟨p, rfl, -⟩ := fetchDec_ok h
      exact hs
    | _ => cases hi

/-- Settles O46: every operation keeps the form, and the rest of a step does not touch a table. -/
theorem everyStepKeepsTheTablesCanonical : Obligations.EveryStepKeepsTheTablesCanonical := by
  intro s t hs h
  exact step_keeps (P := Memory.wf) (fun _ _ => id) (fun _ _ => id) (fun s u p _ => (tablesGrown_setPort s u p).wf)
    (fun u c s v => (tablesGrown_enterFault u c s v).wf) (fun _ hi _ _ => exec_event_wf hi)
    (fun i rest _ _ hx => exec_wf (s := s.setMoves rest) hs hx) hs h

end Sys2Proof.Machine
end

section
/-! PROOFS, family 10_state: the invariants of the units (O47), and power-on (O48). -/

namespace Sys2Proof.Machine

/-! ### A table outside a stream is that of a finished one -/

/-- A live table that no stream is using was left by a stream that ended. -/
theorem enc_done_of_live {s : State} (hl : s.tableLive .enc = true) (hs : s.streaming .enc = false) :
    s.enc.phase = .done := by
  cases hp : s.enc.phase <;> simp [State.tableLive, State.streaming, hp] at hl hs ⊢

theorem dec_done_of_live {s : State} (hl : s.tableLive .dec = true) (hs : s.streaming .dec = false) :
    s.dec.phase = .done := by
  cases hp : s.dec.phase <;> simp [State.tableLive, State.streaming, hp] at hl hs ⊢

/-! ### The invariant of `ENC` (R36, R128, R31) -/

/-- In `FAULT` there is nothing to say of `ENC`. -/
theorem EncInv.of_fault (c : Cause) (s v : State) : EncInv (enterFault .enc c s v) := .of_not_live (.inr rfl)

theorem EncInv.setOutputs {s : State} (o : List Output) (h : EncInv s) : EncInv (s.setOutputs o) := h.congr rfl rfl

/-- A fault keeps the invariant, so only what completes has to be looked at. -/
theorem encInv_finish {s t : State} {r : Res (List Output)} (hr : ∀ o v, r = .ok o v → EncInv v)
    (h : finish .enc s r = .next t) : EncInv t := by
  obtain ⟨o, v, hv, rfl⟩ | ⟨c, v, -, -, rfl⟩ := finish_cases h
  · exact (hr o v hv).setOutputs o
  · exact .of_fault c s v

theorem tableLive_of_run {s : State} (h : s.enc.phase = .run) : s.tableLive .enc = true := by
  simp [State.tableLive, h]

/-- A hit makes `cur` a longer word of the table (R122). -/
theorem EncInv.hit {s : State} {c : Byte} (hs : EncInv s)
    (hc : s.enc.tbl.has (s.enc.cur ++ [c]) = true) :
    EncInv { s with enc := { s.enc with cur := s.enc.cur ++ [c], bytesIn := s.enc.bytesIn + 1 } } where
  table := hs.table
  cur := fun _ => .inr hc
  fresh := by simp
  sink := hs.sink
  count := hs.count
  flushed := hs.flushed
  empty := by simp

/-- A miss adds a word one byte longer than a present one, for the code it emits (R123, R31). -/
theorem EncInv.miss {s t : State} {c : Byte} {o : List Output} (hs : EncInv s) (hp : s.enc.phase = .run)
    (h : encMiss Config.hw c s = .ok o t) : EncInv t := by
  obtain ⟨k, bs, hk, hbs, hn, -, -, rfl⟩ := encMiss_ok h
  obtain ⟨hready, hsound⟩ := hs.table (tableLive_of_run hp)
  have hgrown := hsound.append hn (EncTable.has_iff_get.2 ⟨k, hk⟩)
  refine ⟨fun _ => ⟨hready, hgrown⟩, fun _ => .inr (hgrown.has_single c), by simp, fun _ => ?_, fun _ => ?_, ?_,
    by simp⟩
  · have hsink := hs.sink (tableLive_of_run hp)
    simp only [List.length_append, packField_length hbs, hsink]; ring
  · simp only [EncTable.append_next, hs.count hp]; ring
  · intro hd; simp [hp] at hd

/-- The flush emits one code more than there are additions; an empty stream has neither (R124, R31). -/
theorem EncInv.eos {s t : State} {o : List Output} (hs : EncInv s) (h : encEos Config.hw s = .ok o t) : EncInv t := by
  obtain ⟨hp, hcase⟩ := encEos_ok h
  have hlive := tableLive_of_run hp
  have hcount := hs.count hp
  obtain ⟨hcur, -, rfl⟩ | ⟨hcur, k, bs, hk, hbs, -, rfl⟩ := hcase
  · refine ⟨fun _ => hs.table hlive, nofun, nofun, fun _ => hs.sink hlive, nofun, fun _ => ?_, nofun⟩
    simp [hcount, hs.empty hp hcur]
  · refine ⟨fun _ => hs.table hlive, nofun, nofun, fun _ => ?_, nofun, fun _ => ?_, nofun⟩
    · simp only [List.length_append, packField_length hbs, hs.sink hlive]; ring
    · simp [hcount]

theorem encEvent_encInv {i : Instr} (hi : IsEncEvent i) {s t : State} (hs : EncInv s) (h : exec i s = .next t) :
    EncInv t := by
  obtain rfl | rfl | ⟨c, rfl⟩ := hi
  · cases h; exact EncInv.encBegin.setOutputs []
  · exact encInv_finish (fun _ _ hv => hs.eos hv) h
  · refine encInv_finish (fun o v hv => ?_) h
    obtain ⟨hp, ⟨hc, -, rfl⟩ | ⟨-, hm⟩⟩ := encByte_ok hv
    · exact hs.hit hc
    · exact hs.miss hp hm

/-- During a stream a move that would touch the table or the sink has no step (R178); between streams the premise excludes
it. So no operation of `ENC` that the host may issue breaks the invariant. -/
theorem encOp_encInv {i : Instr} {s t : State} (hi : isEncOp i = true) (hs : EncInv s) (hd : disturbs s i = none)
    (hr : HostMove.rewritesResult s (.issue i) = false) (h : exec i s = .next t) : EncInv t := by
  cases i with
  | tInit u =>
    cases u with
    | dec => cases hi
    | enc =>
      refine encInv_finish (fun o v hv => ?_) h
      obtain ⟨hlive, hstream, -⟩ := betweenStreams_ok hv
      simp [HostMove.rewritesResult, enc_done_of_live hlive hstream] at hr
  | tContains w =>
    refine encInv_finish (fun o v hv => ?_) h
    cases (withTable_ok hv).2
    exact hs
  | tLookupW w =>
    refine encInv_finish (fun o v hv => ?_) h
    obtain ⟨k, v', hk, he⟩ := bind_eq_ok (withTable_ok hv).2
    obtain ⟨-, rfl⟩ := tblLookupW_ok hk
    cases he
    exact hs
  | tAddW w =>
    refine encInv_finish (fun o v hv => ?_) h
    have hstream : s.streaming .enc = false := by simpa [disturbs] using hd
    simp [HostMove.rewritesResult, enc_done_of_live (withTable_ok hv).1 hstream] at hr
  | eStart => exact encEvent_encInv (.inl rfl) hs h
  | eByte c | eByteHit c | eByteMiss c => exact encEvent_encInv (.inr (.inr ⟨c, rfl⟩)) hs (exec_event h)
  | eEos => exact encEvent_encInv (.inr (.inl rfl)) hs h
  | pack k =>
    refine encInv_finish (fun o v hv => ?_) h
    split at hv <;> cases hv
    exact hs
  | readByte u =>
    cases u with
    | dec => cases hi
    | enc =>
      refine encInv_finish (fun o v hv => ?_) h
      obtain ⟨a, v', ha, he⟩ := bind_eq_ok (withStream_ok hv).2
      obtain ⟨-, p, rfl, hp, -⟩ := callReadByte_ok ha
      cases a <;> cases he <;> exact hs.congr rfl hp
  | writeBytes u bs =>
    cases u with
    | dec => cases hi
    | enc =>
      refine encInv_finish (fun o v hv => ?_) h
      simp [disturbs, (withStream_ok hv).1] at hd
  | compress b => exact exec_compress_keeps (fun _ o => .setOutputs o) (fun _ hi _ _ => encEvent_encInv hi) hs h
  | compressBytes b => exact exec_compressBytes_keeps (fun _ o => .setOutputs o) (fun _ hi _ _ => encEvent_encInv hi) hs h
  | _ => cases hi

/-! ### The invariant of `DEC` (R37, R28, R31) -/

/-- In `FAULT` there is only `la` to say of `DEC`: it holds nothing, since the step's writes are dropped (R28, R202). -/
theorem DecInv.of_fault {s : State} (h : DecInv s) (c : Cause) (v : State) : DecInv (enterFault .dec c s v) :=
  .of_not_live (.inr rfl) h.la

theorem DecInv.setOutputs {s : State} (o : List Output) (h : DecInv s) : DecInv (s.setOutputs o) := h.congr rfl rfl

theorem decInv_finish {s t : State} {r : Res (List Output)} (hs : DecInv s) (hr : ∀ o v, r = .ok o v → DecInv v)
    (h : finish .dec s r = .next t) : DecInv t := by
  obtain ⟨o, v, hv, rfl⟩ | ⟨c, v, -, -, rfl⟩ := finish_cases h
  · exact (hr o v hv).setOutputs o
  · exact hs.of_fault c v

theorem tableLive_of_first {s : State} (h : s.dec.phase = .first) : s.tableLive .dec = true := by
  simp [State.tableLive, h]

theorem tableLive_of_decRun {s : State} (h : s.dec.phase = .run) : s.tableLive .dec = true := by
  simp [State.tableLive, h]

/-- The first code makes its word `cw` and adds nothing (R142). -/
theorem DecInv.firstCode {s t : State} {k : Nat} {o : List Output} (hs : DecInv s) (hp : s.dec.phase = .first)
    (h : decFirst k s = .ok o t) : DecInv t := by
  obtain ⟨w, -, hw, -, rfl⟩ := decFirst_ok h
  have hlive := tableLive_of_first hp
  have hcount := hs.count hlive
  have hzero := hs.first hp
  refine ⟨fun _ => hs.table hlive, fun _ => ?_, nofun, fun _ => ⟨?_, ?_, k, hw⟩, hs.la, fun _ => hs.sink hlive⟩
  · simpa [hzero] using hcount
  · exact Nat.le_add_left 1 _
  · exact (hs.table hlive).2.ne_nil hw

/-- Every later code emits `cw`, adds `cw` and one byte, and makes its word the new `cw` (R143). -/
theorem DecInv.laterCode {s t : State} {k : Nat} {o : List Output} (hs : DecInv s) (hp : s.dec.phase = .run)
    (h : decRun Config.hw k s = .ok o t) : DecInv t := by
  obtain ⟨f, w, hcw, -, -, -, -, hw, rfl⟩ := decRun_ok lookahead_hw h
  have hlive := tableLive_of_decRun hp
  obtain ⟨hpos, -, p, hpw⟩ := hs.run hp
  obtain ⟨hready, hsound⟩ := hs.table hlive
  have hgrown := hsound.append (c := f) hpw hcw
  refine ⟨fun _ => ⟨hready, hgrown⟩, fun _ => ?_, ?_, fun _ => ⟨?_, hgrown.ne_nil hw, k, hw⟩, rfl, fun _ => ?_⟩
  · simp only [DecTable.append_next, hs.count hlive]; omega
  · intro hf; simp [hp] at hf
  · exact Nat.le_add_left 1 _
  · simp only [List.length_append, hs.sink hlive]

/-- The end emits the word held back and adds nothing (R147). -/
theorem DecInv.eos {s t : State} {o : List Output} (hs : DecInv s) (h : decEos s = .ok o t) : DecInv t := by
  obtain ⟨hp, -, rfl⟩ | ⟨hp, -, -, rfl⟩ := decEos_ok h
  · have hlive := tableLive_of_first hp
    exact ⟨fun _ => hs.table hlive, fun _ => hs.count hlive, nofun, nofun, hs.la, fun _ => hs.sink hlive⟩
  · have hlive := tableLive_of_decRun hp
    refine ⟨fun _ => hs.table hlive, fun _ => hs.count hlive, nofun, nofun, hs.la, fun _ => ?_⟩
    simp only [List.length_append, hs.sink hlive]

theorem decEvent_decInv {i : Instr} (hi : IsDecEvent i) {s t : State} (hs : DecInv s) (h : exec i s = .next t) :
    DecInv t := by
  obtain rfl | rfl | ⟨k, rfl⟩ | ⟨n, rfl⟩ := hi
  · cases h; exact (DecInv.decBegin hs.la).setOutputs []
  · exact decInv_finish hs (fun _ _ hv => hs.eos hv) h
  · refine decInv_finish hs (fun o v hv => ?_) h
    obtain ⟨-, ⟨hp, hf⟩ | ⟨hp, hr⟩⟩ := decCode_ok hv
    · exact hs.firstCode hp hf
    · exact hs.laterCode hp hr
  · exact decInv_finish hs (fun _ _ hv => hs.eos (decShort_ok hv)) h

/-- No operation of `DEC` that the host may issue breaks the invariant, for the same reasons. -/
theorem decOp_decInv {i : Instr} {s t : State} (hi : isDecOp i = true) (hs : DecInv s) (hd : disturbs s i = none)
    (hr : HostMove.rewritesResult s (.issue i) = false) (h : exec i s = .next t) : DecInv t := by
  cases i with
  | tInit u =>
    cases u with
    | enc => cases hi
    | dec =>
      refine decInv_finish hs (fun o v hv => ?_) h
      obtain ⟨hlive, hstream, -⟩ := betweenStreams_ok hv
      simp [HostMove.rewritesResult, dec_done_of_live hlive hstream] at hr
  | tLookupC k =>
    refine decInv_finish hs (fun o v hv => ?_) h
    obtain ⟨w, v', hw, he⟩ := bind_eq_ok (withTable_ok hv).2
    obtain ⟨-, -, rfl⟩ := tblLookupC_ok hw
    cases he
    exact hs
  | tAddC w =>
    refine decInv_finish hs (fun o v hv => ?_) h
    have hstream : s.streaming .dec = false := by simpa [disturbs] using hd
    simp [HostMove.rewritesResult, dec_done_of_live (withTable_ok hv).1 hstream] at hr
  | dStart => exact decEvent_decInv (.inl rfl) hs h
  | dCode k | dCodeFirst k | dCodeRes k | dCodeKwk k | dCodeBad k =>
    exact decEvent_decInv (.inr (.inr (.inl ⟨k, rfl⟩))) hs (exec_event h)
  | dEos => exact decEvent_decInv (.inr (.inl rfl)) hs h
  | dShort n => exact decEvent_decInv (.inr (.inr (.inr ⟨n, rfl⟩))) hs h
  | unpack f =>
    refine decInv_finish hs (fun o v hv => ?_) h
    split_ifs at hv; cases hv
    exact hs
  | readByte u =>
    cases u with
    | enc => cases hi
    | dec =>
      refine decInv_finish hs (fun o v hv => ?_) h
      obtain ⟨a, v', ha, he⟩ := bind_eq_ok (withStream_ok hv).2
      obtain ⟨-, p, rfl, hp, -⟩ := callReadByte_ok ha
      cases a <;> cases he <;> exact hs.congr rfl hp
  | writeBytes u bs =>
    cases u with
    | enc => cases hi
    | dec =>
      refine decInv_finish hs (fun o v hv => ?_) h
      simp [disturbs, (withStream_ok hv).1] at hd
  | readCode =>
    refine decInv_finish hs (fun o v hv => ?_) h
    obtain ⟨a, v', ha, he⟩ := bind_eq_ok (withStream_ok hv).2
    obtain ⟨p, rfl, hp, -⟩ := readField_ok ha
    cases a <;> cases he <;> exact hs.congr rfl hp
  | decompress ks => exact exec_decompress_keeps (fun _ o => .setOutputs o) (fun _ hi _ _ => decEvent_decInv hi) hs h
  | decompressBytes bs =>
    refine exec_decompressBytes_keeps (P := DecInv) (fun _ o => .setOutputs o) (fun _ hi _ _ => decEvent_decInv hi)
      (fun s i v hs h => ?_) (fun s c v hs _ => hs.of_fault c v) (hs.congr rfl rfl) h
    obtain ⟨p, rfl, hp, -⟩ := fetchDec_ok h
    exact hs.congr rfl hp
  | _ => cases hi

/-! ### Both units -/

/-- The invariants of the two units. -/
structure UnitsInv (s : State) : Prop where
  enc : EncInv s
  dec : DecInv s

/-- Every operation belongs to a unit. -/
theorem isEncOp_or_isDecOp (i : Instr) : isEncOp i = true ∨ isDecOp i = true := by
  cases i with
  | tInit u | readByte u | writeBytes u => cases u <;> simp [isEncOp, isDecOp]
  | _ => simp [isEncOp, isDecOp]

/-- An operation of one unit leaves the invariant of the other as it was (R20). -/
theorem UnitsInv.of_encOp {i : Instr} {s t : State} (hs : UnitsInv s) (hi : isEncOp i = true) (h : exec i s = .next t)
    (ht : EncInv t) : UnitsInv t := by
  obtain ⟨hd, hp, -⟩ := exec_frame_of_isEncOp hi h
  exact ⟨ht, hs.dec.congr hd (by rw [hp])⟩

theorem UnitsInv.of_decOp {i : Instr} {s t : State} (hs : UnitsInv s) (hi : isDecOp i = true) (h : exec i s = .next t)
    (ht : DecInv t) : UnitsInv t := by
  obtain ⟨he, hp, -⟩ := exec_frame_of_isDecOp hi h
  exact ⟨hs.enc.congr he (by rw [hp]), ht⟩

theorem IsEncEvent.isEncOp {i : Instr} (hi : IsEncEvent i) : isEncOp i = true := by
  obtain rfl | rfl | ⟨c, rfl⟩ := hi <;> rfl

theorem IsDecEvent.isDecOp {i : Instr} (hi : IsDecEvent i) : isDecOp i = true := by
  obtain rfl | rfl | ⟨k, rfl⟩ | ⟨n, rfl⟩ := hi <;> rfl

theorem event_unitsInv {i : Instr} (hi : IsEvent i) {s t : State} (hs : UnitsInv s) (h : exec i s = .next t) :
    UnitsInv t := by
  obtain hi | hi := hi
  · exact hs.of_encOp hi.isEncOp h (encEvent_encInv hi hs.enc h)
  · exact hs.of_decOp hi.isDecOp h (decEvent_decInv hi hs.dec h)

theorem exec_unitsInv {i : Instr} {s t : State} (hs : UnitsInv s) (hd : disturbs s i = none)
    (hr : HostMove.rewritesResult s (.issue i) = false) (h : exec i s = .next t) : UnitsInv t := by
  obtain hi | hi := isEncOp_or_isDecOp i
  · exact hs.of_encOp hi h (encOp_encInv hi hs.enc hd hr h)
  · exact hs.of_decOp hi h (decOp_decInv hi hs.dec hd hr h)

theorem UnitsInv.setPort {s : State} (hs : UnitsInv s) (u : UnitId) {p : Port} (hp : p.sent = (s.port u).sent) :
    UnitsInv (s.setPort u p) := by
  cases u
  · exact ⟨hs.enc.congr rfl hp, hs.dec.congr rfl rfl⟩
  · exact ⟨hs.enc.congr rfl rfl, hs.dec.congr rfl hp⟩

theorem UnitsInv.enterFault {s : State} (hs : UnitsInv s) (u : UnitId) (c : Cause) (v : State) :
    UnitsInv (enterFault u c s v) := by
  cases u
  · exact ⟨.of_fault c s v, hs.dec.congr rfl rfl⟩
  · exact ⟨hs.enc.congr rfl rfl, hs.dec.of_fault c v⟩

/-- Settles O47: each unit's own events keep its invariant, the other unit's operations do not touch it, and a move that
would break it is refused or excluded. -/
theorem everyStepKeepsTheInvariantsOfTheUnits : Obligations.EveryStepKeepsTheInvariantsOfTheUnits := by
  intro s t he hd hstand h
  have hissue : ∀ i rest, s.moves = .issue i :: rest → disturbs s i = none → exec i (s.setMoves rest) = .next t →
      UnitsInv t := by
    intro i rest hm hdist hx
    have hr : HostMove.rewritesResult s (.issue i) = false := by simpa [State.resultsStand, hm] using hstand
    exact exec_unitsInv (s := s.setMoves rest) ⟨he.congr rfl rfl, hd.congr rfl rfl⟩ (by simpa using hdist) hr hx
  obtain ⟨het, hdt⟩ := step_keeps (P := UnitsInv) (fun _ _ hs => ⟨hs.enc.congr rfl rfl, hs.dec.congr rfl rfl⟩)
    (fun _ o hs => ⟨hs.enc.setOutputs o, hs.dec.setOutputs o⟩) (fun _ u _ hp hs => hs.setPort u hp)
    (fun u c _ v hs => hs.enterFault u c v) (fun _ hi _ _ => event_unitsInv hi) hissue ⟨he, hd⟩ h
  exact ⟨het, hdt⟩

/-! ### Power-on (R35, R221) -/

theorem EncInv.reset : EncInv State.reset := .of_not_live (.inl rfl)

theorem DecInv.reset : DecInv State.reset := .of_not_live (.inl rfl) rfl

/-- At power-on no unit has a stream, so a step has a next state only where its statements complete. -/
theorem finish_reset_ne_next {u : UnitId} {r : Res (List Output)} {t : State} (hr : ∀ o v, r ≠ .ok o v) :
    finish u State.reset r ≠ .next t := by
  intro h
  obtain ⟨o, v, hv, -⟩ | ⟨c, v, -, hs, -⟩ := finish_cases h
  · exact hr o v hv
  · cases u <;> cases hs

/-- In `IDLE` no code is accepted, whether a field holds it or not (R158). -/
theorem dCode_reset_ne_next (k : Nat) (t : State) : exec (.dCode k) State.reset ≠ .next t := by
  refine finish_reset_ne_next fun o v h => ?_
  obtain ⟨-, ⟨hp, -⟩ | ⟨hp, -⟩⟩ := decCode_ok h <;> cases hp

/-- In `IDLE` no fragment is accepted, of any length (R158). -/
theorem dShort_reset_ne_next (n : Nat) (t : State) : exec (.dShort n) State.reset ≠ .next t := by
  refine finish_reset_ne_next fun o v h => ?_
  obtain ⟨hp, -⟩ | ⟨hp, -⟩ := decEos_ok (decShort_ok h) <;> cases hp

/-- A code that no field holds is packed by no unit that has no stream (R130; assumption 7). -/
theorem pack_reset_ne_next (k : Nat) (t : State) : exec (.pack (2 ^ 32 + k)) State.reset ≠ .next t := by
  have hpack : packField Config.hw (2 ^ 32 + k) = none :=
    if_neg (by rw [codeLimit_hw]; exact Nat.not_lt.2 (Nat.le_add_right _ _))
  refine finish_reset_ne_next fun o v h => ?_
  rw [hpack] at h
  cases h

/-- Settles O48: an operation that looks at the phase or at the table first (R131, R172, R197, R221) evaluates to a refusal
(`nofun`); the operations whose operand is looked at first have a lemma each, and a row is refused with its event. -/
theorem powerOnAcceptsOnlyAStart : Obligations.PowerOnAcceptsOnlyAStart := by
  refine ⟨rfl, rfl, rfl, rfl, Memory.wf_reset, .reset, .reset, step_noEvent rfl rfl rfl, fun c k w t => ?_,
    ⟨_, rfl, rfl, rfl⟩, ⟨_, rfl, rfl, rfl⟩⟩
  have hCode := dCode_reset_ne_next k t
  simp only [List.forall_mem_cons]
  exact ⟨nofun, nofun, nofun, nofun, hCode, hCode ∘ exec_event, hCode ∘ exec_event, hCode ∘ exec_event, hCode ∘ exec_event,
    nofun, dShort_reset_ne_next k t, nofun, nofun, nofun, nofun, nofun, nofun, nofun, nofun, nofun, nofun, nofun, nofun,
    pack_reset_ne_next k t, by simp⟩

end Sys2Proof.Machine
end

section
/-! PROOFS, family 10_state: the two tables in lockstep (O58). The encoder is followed byte by byte, a decoder code by code,
one code behind: after every miss the decode table lacks one row of the encode table, and holds the others inverted. -/

namespace Sys2Proof.Machine

/-! ### The decode table as the inverse of the encode table (R38 (b), R63) -/

/-- The decode table with the rows of an encode table, inverted. -/
def EncTable.mirror (t : EncTable) : DecTable := { entries := t.entries.map Prod.swap, next := t.next }

@[simp] theorem EncTable.mirror_append (t : EncTable) (w : Word) : (t.append w).mirror = t.mirror.append w := by
  simp [EncTable.mirror, EncTable.append, DecTable.append]

@[simp] theorem EncTable.mirror_literals (cfg : Config) : (EncTable.literals cfg).mirror = DecTable.literals cfg := by
  simp [EncTable.mirror, EncTable.literals, DecTable.literals]

theorem EncTable.mirror_codes (t : EncTable) : t.mirror.entries.map (·.1) = t.entries.map (·.2) := by
  simp [EncTable.mirror, Function.comp_def]

theorem EncTable.Sound.mirror_wf {t : EncTable} (h : t.Sound) : t.mirror.wf := by
  rw [DecTable.wf, EncTable.mirror_codes, h.codes]
  exact ⟨List.pairwise_lt_range, fun k hk => List.mem_range.1 hk⟩

/-- The mirror reads as the inverse map. -/
theorem EncTable.Sound.mirror_get {t : EncTable} (h : t.Sound) {k : Nat} {w : Word} :
    t.mirror.get k = some w ↔ t.get w = some k := by
  have hcodes : (t.mirror.entries.map (·.1)).Nodup := h.mirror_wf.1.nodup
  rw [EncTable.get, DecTable.get, ← mem_iff_assocGet hcodes (k, w), ← mem_iff_assocGet h.keys (w, k)]
  simp [EncTable.mirror]

/-- No two words share a code (R36 item 1). -/
theorem EncTable.Sound.get_inj {t : EncTable} (h : t.Sound) {k : Nat} {v w : Word} (hv : t.get v = some k)
    (hw : t.get w = some k) : v = w :=
  Option.some.inj ((h.mirror_get.2 hv).symm.trans (h.mirror_get.2 hw))

/-- No word has the counter's code yet. -/
theorem EncTable.Sound.get_ne_next {t : EncTable} (h : t.Sound) (v : Word) : t.get v ≠ some t.next :=
  fun hv => absurd (h.code_lt hv) (lt_irrefl _)

/-! ### What an event of `ENC` does in a stream whose writes succeed -/

/-- `ENC` is in a stream, and no write of it will fail. -/
structure EncRuns (e : State) : Prop where
  inv : EncInv e
  run : e.enc.phase = .run
  writes : e.encPort.writes = []

section
variable {e : State} {c : Byte}

theorem EncRuns.sound (he : EncRuns e) : e.enc.tbl.Sound := (he.inv.table (tableLive_of_run he.run)).2

/-- A word that is not empty has a code that a field holds. -/
theorem EncRuns.code (he : EncRuns e) (hcur : e.enc.cur ≠ []) (hfit : e.enc.tbl.next ≤ 2 ^ 32) :
    ∃ k, e.enc.tbl.get e.enc.cur = some k ∧ k < 2 ^ 32 := by
  obtain ⟨k, hk⟩ := EncTable.has_iff_get.1 ((he.inv.cur he.run).resolve_left hcur)
  exact ⟨k, hk, (he.sound.code_lt hk).trans_le hfit⟩

/-- An emission whose code fits and whose write returns, completes (R125). -/
theorem emitCode_returns {s : State} {k : Nat} (hk : k < 2 ^ 32) (hw : s.encPort.writes = []) :
    ∃ t, emitCode Config.hw k s = .ok () t := by
  have hbs : Config.hw.ordered (lanes Config.hw.codeBytes k) ≠ [] :=
    List.ne_nil_of_length_pos (by simp [Config.hw])
  rw [emitCode, packField_of_fits (by rwa [codeLimit_hw])]
  simp only [callWriteBytes_returns (u := .enc) (s := s) hbs (by simp [hw, nextAnswer]), bind_ok]
  exact ⟨_, rfl⟩

theorem tblLookupW_eq_ok {s : State} {w : Word} {k : Nat} (h : s.enc.tbl.get w = some k) : tblLookupW w s = .ok k s := by
  simp [tblLookupW, h]

/-- A hit only extends `cur` (R122). -/
theorem EncRuns.hit (he : EncRuns e) (hc : e.enc.tbl.has (e.enc.cur ++ [c]) = true) :
    ∃ e', exec (.eByte c) e = .next e' ∧ EncRuns e' ∧ e'.enc.tbl = e.enc.tbl ∧ e'.enc.cur = e.enc.cur ++ [c] ∧
      e'.outputs = [] := by
  have hx : exec (.eByte c) e = finish .enc e (encHit c e) :=
    congrArg (finish .enc e) (by simp only [encByte, encRunning, he.run, if_true, isHit, tblContains, hc])
  exact ⟨_, hx, ⟨(he.inv.hit hc).setOutputs [], he.run, he.writes⟩, rfl, rfl, rfl⟩

/-- A miss whose code fits completes (R123). -/
theorem encMiss_completes {k : Nat} (hk : e.enc.tbl.get e.enc.cur = some k) (hlt : k < 2 ^ 32)
    (hn : e.enc.tbl.has (e.enc.cur ++ [c]) = false) (hw : e.encPort.writes = []) :
    ∃ o t, encMiss Config.hw c e = .ok o t := by
  obtain ⟨v, hv⟩ := emitCode_returns (s := countByte e) hlt hw
  have htbl : v.enc.tbl = e.enc.tbl := by obtain ⟨bs, -, rfl⟩ := emitCode_ok hv; rfl
  have hadd : tblAddW Config.hw (e.enc.cur ++ [c]) v =
      .ok () (v.setEnc { v.enc with tbl := v.enc.tbl.append (e.enc.cur ++ [c]) }) := by
    simp [tblAddW, htbl, hn, tableIsFull, Config.hw]
  rw [encMiss, tblLookupW_eq_ok (s := countByte e) hk, bind_ok, hv, bind_ok, hadd]
  exact ⟨_, _, rfl⟩

/-- A miss emits the code of `cur`, adds one row, and starts a new `cur` (R123). -/
theorem EncRuns.miss (he : EncRuns e) (hn : e.enc.tbl.has (e.enc.cur ++ [c]) = false) (hfit : e.enc.tbl.next ≤ 2 ^ 32) :
    ∃ k e', e.enc.tbl.get e.enc.cur = some k ∧ k < 2 ^ 32 ∧ exec (.eByte c) e = .next e' ∧ EncRuns e' ∧
      e'.enc.tbl = e.enc.tbl.append (e.enc.cur ++ [c]) ∧ e'.enc.cur = [c] ∧ e'.outputs = [.code k] := by
  obtain ⟨k, hk, hlt⟩ := he.code (he.sound.cur_ne_nil hn) hfit
  obtain ⟨o, v, hv⟩ := encMiss_completes hk hlt hn he.writes
  have hbyte : encByte Config.hw c e = encMiss Config.hw c e := by
    simp [encByte, encRunning, he.run, isHit, tblContains, hn]
  have hx : exec (.eByte c) e = .next (v.setOutputs o) := congrArg (finish .enc e) (hbyte.trans hv)
  obtain ⟨k', bs, hk', -, -, -, rfl, rfl⟩ := encMiss_ok hv
  obtain rfl : k' = k := Option.some.inj (hk'.symm.trans hk)
  refine ⟨k', _, hk, hlt, hx, ⟨(he.inv.miss he.run hv).setOutputs _, he.run, ?_⟩, rfl, rfl, rfl⟩
  simp [he.writes, nextAnswer]

/-- The end of the stream flushes what `cur` holds and adds nothing (R124). -/
theorem EncRuns.eos (he : EncRuns e) (hfit : e.enc.tbl.next ≤ 2 ^ 32) :
    ∃ t, exec .eEos e = .next t ∧ t.enc.phase = .done ∧ t.enc.tbl = e.enc.tbl ∧
      ((e.enc.cur = [] ∧ t.outputs = []) ∨
        ∃ k, e.enc.tbl.get e.enc.cur = some k ∧ k < 2 ^ 32 ∧ t.outputs = [.code k]) := by
  have hdone : ∃ o v, encEos Config.hw e = .ok o v := by
    by_cases hcur : e.enc.cur = []
    · simp only [encEos, encRunning, he.run, hcur, if_true]; exact ⟨_, _, rfl⟩
    · obtain ⟨k, hk, hlt⟩ := he.code hcur hfit
      obtain ⟨v, hv⟩ := emitCode_returns (s := e) hlt he.writes
      simp only [encEos, encRunning, he.run, hcur, if_true, if_false, tblLookupW_eq_ok hk, bind_ok, hv]
      exact ⟨_, _, rfl⟩
  obtain ⟨o, v, hv⟩ := hdone
  refine ⟨v.setOutputs o, congrArg (finish .enc e) hv, ?_⟩
  obtain ⟨-, ⟨hcur, rfl, rfl⟩ | ⟨hcur, k, bs, hk, -, rfl, rfl⟩⟩ := encEos_ok hv
  · exact ⟨rfl, rfl, .inl ⟨hcur, rfl⟩⟩
  · exact ⟨rfl, rfl, .inr ⟨k, hk, (he.sound.code_lt hk).trans_le hfit, rfl⟩⟩

end

/-! ### What an event of `DEC` does in a stream whose writes succeed -/

section
variable {s : State} {k : Nat} {w : Word} {f : Byte}

theorem tblLookupC_eq_ok (hk : k < s.dec.tbl.next) (hw : s.dec.tbl.get k = some w) : tblLookupC k s = .ok w s := by
  simp [tblLookupC, hk, hw]

/-- Step 3b resolves `k`, with `f` as the first byte of its word (R144, R145). -/
def Resolves (t : DecTable) (cw : Word) (k : Nat) (f : Byte) : Prop :=
  (k < t.next ∧ ∃ r, t.get k = some (f :: r)) ∨ (k = t.next ∧ ∃ r, cw = f :: r)

theorem lookaheadByte_eq_ok (h : Resolves s.dec.tbl s.dec.cw k f) : lookaheadByte k s = .ok f s := by
  obtain ⟨hk, r, hr⟩ | ⟨hk, r, hr⟩ := h
  · simp only [lookaheadByte, codeClass_eq_res.2 hk, tblLookupC_eq_ok hk hr, bind_ok, firstByte]
  · simp only [lookaheadByte, codeClass_eq_kwk.2 hk, hr, firstByte]

/-- An emission whose write returns completes, and touches neither the table nor `cw` nor `la` (R149). -/
theorem emitWord_returns (hne : w ≠ []) (hw : s.decPort.writes = []) :
    ∃ v, emitWord w s = .ok () v ∧ v.dec.tbl = s.dec.tbl ∧ v.dec.cw = s.dec.cw ∧ v.dec.la = s.dec.la := by
  rw [emitWord, callWriteBytes_returns (u := .dec) hne (by simp [hw, nextAnswer])]
  exact ⟨_, rfl, rfl, rfl, rfl⟩

/-- Steps 3b to 3d complete for a code that resolves (R143). -/
theorem resolveLookahead_completes (hla : s.dec.la = some k) (hf : Resolves s.dec.tbl s.dec.cw k f) (hwf : s.dec.tbl.wf) :
    ∃ t, resolveLookahead Config.hw s = .ok () t := by
  have hadd : tblAddC Config.hw (s.dec.cw ++ [f]) s =
      .ok () (s.setDec { s.dec with tbl := s.dec.tbl.append (s.dec.cw ++ [f]) }) := by
    simp [tblAddC, tableIsFull, Config.hw]
  have hget : k < s.dec.tbl.next + 1 ∧ ∃ w, (s.dec.tbl.append (s.dec.cw ++ [f])).get k = some w := by
    obtain ⟨hk, r, hr⟩ | ⟨rfl, -⟩ := hf
    · exact ⟨by omega, _, (DecTable.get_append_ne hk.ne).trans hr⟩
    · exact ⟨by omega, _, DecTable.get_append_self hwf _⟩
  obtain ⟨hk, w, hw⟩ := hget
  simp only [resolveLookahead, hla, lookaheadByte_eq_ok hf, bind_ok, hadd]
  rw [tblLookupC_eq_ok hk hw]
  exact ⟨_, rfl⟩

/-- In `RUN` a code that resolves completes (R143). -/
theorem decRun_completes (hcw : s.dec.cw ≠ []) (hw : s.decPort.writes = []) (hf : Resolves s.dec.tbl s.dec.cw k f)
    (hwf : s.dec.tbl.wf) : ∃ o t, decRun Config.hw k s = .ok o t := by
  obtain ⟨v, hv, htbl, hcw', hla⟩ :=
    emitWord_returns (s := (countCode s).setDec { (countCode s).dec with la := heldAhead Config.hw k }) hcw hw
  obtain ⟨t, ht⟩ :=
    resolveLookahead_completes (s := v) hla (f := f) (by rw [htbl, hcw']; exact hf) (by rw [htbl]; exact hwf)
  exact ⟨_, t, by simp only [decRun, hv, bind_ok, ht]; rfl⟩

/-- `D.CODE` of a code that a field holds, in `FIRST` and in `RUN` (R141). -/
theorem exec_dCode_of_first (hp : s.dec.phase = .first) (hk : k < 2 ^ 32) :
    exec (.dCode k) s = finish .dec s (decFirst k s) :=
  congrArg (finish .dec s) (by simp only [decCode, withWireCode, fits_hw.2 hk, if_true, decAccept, hp])

theorem exec_dCode_of_run (hp : s.dec.phase = .run) (hk : k < 2 ^ 32) :
    exec (.dCode k) s = finish .dec s (decRun Config.hw k s) :=
  congrArg (finish .dec s) (by simp only [decCode, withWireCode, fits_hw.2 hk, if_true, decAccept, hp])

theorem decFirst_completes (hlt : k < s.dec.tbl.next) (hw : s.dec.tbl.get k = some w) :
    ∃ o t, decFirst k s = .ok o t := by
  have hlook : tblLookupC k (countCode s) = .ok w (countCode s) := tblLookupC_eq_ok hlt hw
  simp only [decFirst, firstLegal, hlt, decide_true, if_true, hlook, bind_ok]
  exact ⟨_, _, rfl⟩

/-- `D.EOS` completes: in `FIRST` with nothing to write, in `RUN` with a word whose write returns (R147). -/
theorem exec_dEos_completes (h : s.dec.phase = .first ∨ (s.dec.phase = .run ∧ s.dec.cw ≠ [] ∧ s.decPort.writes = [])) :
    ∃ t, exec .dEos s = .next t ∧ t.dec.phase = .done ∧ t.dec.tbl = s.dec.tbl := by
  have hdone : ∃ o t, decEos s = .ok o t := by
    obtain hp | ⟨hp, hcw, hw⟩ := h
    · simp only [decEos, decAccept, hp]; exact ⟨_, _, rfl⟩
    · obtain ⟨v, hv, -⟩ := emitWord_returns hcw hw
      simp only [decEos, decAccept, hp, hv, bind_ok]; exact ⟨_, _, rfl⟩
  obtain ⟨o, t, ht⟩ := hdone
  refine ⟨t.setOutputs o, congrArg (finish .dec s) ht, ?_⟩
  obtain ⟨-, -, rfl⟩ | ⟨-, -, -, rfl⟩ := decEos_ok ht <;> exact ⟨rfl, rfl⟩

end

/-! ### A decoder that follows the encoder -/

/-- `DEC` is one row behind `ENC`: its table is `t0`, inverted, while `ENC`'s has one row more. The word of that row is `cw`
and the byte `c` that `ENC`'s `cur` begins with (R63, R226). -/
structure OneRowBehind (t0 : EncTable) (c : Byte) (e d : State) : Prop where
  run : d.dec.phase = .run
  sound : t0.Sound
  known : t0.has d.dec.cw = true
  absent : t0.has (d.dec.cw ++ [c]) = false
  ahead : e.enc.tbl = t0.append (d.dec.cw ++ [c])
  cur : ∃ r, e.enc.cur = c :: r
  behind : d.dec.tbl = t0.mirror

/-- `d` has consumed every code that the encoder of `e` has emitted, and no write of it will fail. Before the first code the
tables agree, after it `DEC` is one row behind. -/
structure Follows (e d : State) : Prop where
  writes : d.decPort.writes = []
  count : e.enc.tbl.next = 256 + d.dec.codesIn
  stage : (d.dec.phase = .first ∧ d.dec.tbl = e.enc.tbl.mirror) ∨ ∃ t0 c, OneRowBehind t0 c e d

/-- `d` has consumed the code of `ENC`'s `cur`, before `ENC` has added another row: the tables agree. -/
structure CaughtUp (e d : State) : Prop where
  run : d.dec.phase = .run
  writes : d.decPort.writes = []
  count : 255 + d.dec.codesIn = e.enc.tbl.next
  tables : d.dec.tbl = e.enc.tbl.mirror
  cw : d.dec.cw = e.enc.cur

section
variable {e d : State} {t0 : EncTable} {c : Byte} {k : Nat}

/-- After the start of both, `DEC` follows `ENC`. -/
theorem follows_starts (s t : State) (hw : t.decPort.writes = []) :
    Follows ((encBegin Config.hw s).setOutputs []) ((decBegin Config.hw t).setOutputs []) :=
  ⟨hw, rfl, .inl ⟨rfl, (EncTable.mirror_literals _).symm⟩⟩

/-- A hit changes neither table, and no first byte of a `cur` that has one. -/
theorem Follows.hit {e' : State} (h : Follows e d) (ht : e'.enc.tbl = e.enc.tbl) (hcur : e'.enc.cur = e.enc.cur ++ [c]) :
    Follows e' d := by
  refine ⟨h.writes, ht ▸ h.count, h.stage.imp (fun ⟨hp, hd⟩ => ⟨hp, ht ▸ hd⟩) ?_⟩
  rintro ⟨t0, c0, hb⟩
  obtain ⟨r, hr⟩ := hb.cur
  exact ⟨t0, c0, { hb with ahead := ht ▸ hb.ahead, cur := ⟨r ++ [c], by simp [hcur, hr]⟩ }⟩

/-- A miss puts `DEC`, which has caught up, one row behind. -/
theorem CaughtUp.miss {e' : State} (h : CaughtUp e d) (hs : e.enc.tbl.Sound) (hk : e.enc.tbl.get e.enc.cur = some k)
    (hn : e.enc.tbl.has (e.enc.cur ++ [c]) = false) (ht : e'.enc.tbl = e.enc.tbl.append (e.enc.cur ++ [c]))
    (hcur : e'.enc.cur = [c]) : Follows e' d := by
  refine ⟨h.writes, ?_, .inr ⟨e.enc.tbl, c, h.run, hs, ?_, ?_, ?_, ⟨[], hcur⟩, h.tables⟩⟩
  · rw [ht, EncTable.append_next, ← h.count]; omega
  · rw [h.cw]; exact EncTable.has_iff_get.2 ⟨k, hk⟩
  · rw [h.cw]; exact hn
  · rw [h.cw]; exact ht

theorem OneRowBehind.cw_ne_nil (h : OneRowBehind t0 c e d) : d.dec.cw ≠ [] := by
  intro h0
  have := h.known
  rw [h0, h.sound.not_has_nil] at this
  cases this

/-- The code of `ENC`'s `cur` resolves: it is in `DEC`'s table, or it is the code of the row that `DEC` lacks, and then
`cur`, which is that row's word, begins as `cw` does (R143 to R145). -/
theorem OneRowBehind.resolves (h : OneRowBehind t0 c e d) (hs : e.enc.tbl.Sound) (hk : e.enc.tbl.get e.enc.cur = some k) :
    Resolves d.dec.tbl d.dec.cw k c := by
  obtain ⟨r, hcur⟩ := h.cur
  have hlast : e.enc.tbl.get (d.dec.cw ++ [c]) = some t0.next := h.ahead ▸ EncTable.get_append_self h.absent
  rw [h.behind]
  by_cases hkn : k = t0.next
  · right
    have hkwk : e.enc.cur = d.dec.cw ++ [c] := hs.get_inj hk (hkn ▸ hlast)
    obtain ⟨b, q, hbq⟩ := List.exists_cons_of_ne_nil h.cw_ne_nil
    rw [hcur, hbq] at hkwk
    exact ⟨hkn, q, by rw [hbq, (List.cons.inj hkwk).1]⟩
  · left
    have hne : e.enc.cur ≠ d.dec.cw ++ [c] := fun h' => hkn (Option.some.inj ((h' ▸ hk).symm.trans hlast))
    have hold : t0.get e.enc.cur = some k := by rwa [h.ahead, EncTable.get_append_ne hne] at hk
    exact ⟨h.sound.code_lt hold, r, h.sound.mirror_get.2 (hcur ▸ hold)⟩

theorem Resolves.unique {t : DecTable} {cw : Word} {f g : Byte} (hf : Resolves t cw k f) (hg : Resolves t cw k g) :
    f = g := by
  obtain ⟨hk, r, hr⟩ | ⟨hk, r, hr⟩ := hf <;> obtain ⟨hk', r', hr'⟩ | ⟨hk', r', hr'⟩ := hg
  · exact (List.cons.inj (Option.some.inj (hr.symm.trans hr'))).1
  · omega
  · omega
  · exact (List.cons.inj (hr.symm.trans hr')).1

/-- With the tables equal, the code of `ENC`'s `cur` stands for it (R142). -/
theorem Follows.consume_first (h : Follows e d) (hp : d.dec.phase = .first) (hd : d.dec.tbl = e.enc.tbl.mirror)
    (hs : e.enc.tbl.Sound) (hk : e.enc.tbl.get e.enc.cur = some k) (hfit : k < 2 ^ 32) :
    ∃ d', exec (.dCode k) d = .next d' ∧ CaughtUp e d' := by
  have hget : d.dec.tbl.get k = some e.enc.cur := by rw [hd]; exact hs.mirror_get.2 hk
  have hlt : k < d.dec.tbl.next := by rw [hd]; exact hs.code_lt hk
  obtain ⟨o, v, hv⟩ := decFirst_completes hlt hget
  refine ⟨_, by rw [exec_dCode_of_first hp hfit, hv, finish_ok], ?_⟩
  obtain ⟨w, -, hw, -, rfl⟩ := decFirst_ok hv
  exact ⟨rfl, h.writes, by simp only [setOutputs_dec, h.count]; omega, hd, Option.some.inj (hw.symm.trans hget)⟩

/-- One row behind, the code of `ENC`'s `cur` makes `DEC` add the row it lacks (R143, R226). -/
theorem Follows.consume_behind (h : Follows e d) (hb : OneRowBehind t0 c e d) (hs : e.enc.tbl.Sound)
    (hk : e.enc.tbl.get e.enc.cur = some k) (hfit : k < 2 ^ 32) : ∃ d', exec (.dCode k) d = .next d' ∧ CaughtUp e d' := by
  have hres := hb.resolves hs hk
  obtain ⟨o, v, hv⟩ := decRun_completes hb.cw_ne_nil h.writes hres (hb.behind ▸ hb.sound.mirror_wf)
  refine ⟨_, by rw [exec_dCode_of_run hb.run hfit, hv, finish_ok], ?_⟩
  obtain ⟨f, w, -, -, -, -, hf, hw, rfl⟩ := decRun_ok lookahead_hw hv
  obtain rfl : f = c := Resolves.unique hf hres
  have htable : d.dec.tbl.append (d.dec.cw ++ [f]) = e.enc.tbl.mirror := by
    rw [hb.ahead, EncTable.mirror_append, hb.behind]
  have hword : w = e.enc.cur := by rw [htable, hs.mirror_get] at hw; exact hs.get_inj hw hk
  exact ⟨hb.run, by simp [h.writes, nextAnswer], by simp only [setOutputs_dec, h.count]; omega, htable, hword⟩

/-- In either stage, the code of `ENC`'s `cur` brings `DEC` level. -/
theorem Follows.consume (h : Follows e d) (hs : e.enc.tbl.Sound) (hk : e.enc.tbl.get e.enc.cur = some k)
    (hfit : k < 2 ^ 32) : ∃ d', exec (.dCode k) d = .next d' ∧ CaughtUp e d' := by
  obtain ⟨hp, hd⟩ | ⟨t0, c, hb⟩ := h.stage
  · exact h.consume_first hp hd hs hk hfit
  · exact h.consume_behind hb hs hk hfit

/-- Where `ENC` ends with nothing to flush, `DEC` ends with the same table. -/
theorem Follows.eos (h : Follows e d) (hcur : e.enc.cur = []) :
    ∃ u, exec .dEos d = .next u ∧ u.dec.phase = .done ∧ u.dec.tbl = e.enc.tbl.mirror := by
  obtain ⟨hp, hd⟩ | ⟨t0, c, hb⟩ := h.stage
  · obtain ⟨u, hu, hdone, ht⟩ := exec_dEos_completes (.inl hp)
    exact ⟨u, hu, hdone, ht.trans hd⟩
  · obtain ⟨r, hr⟩ := hb.cur
    simp [hcur] at hr

/-- After the code of the flush, `DEC` ends with the same table. -/
theorem CaughtUp.eos (h : CaughtUp e d) (hcur : e.enc.cur ≠ []) :
    ∃ u, exec .dEos d = .next u ∧ u.dec.phase = .done ∧ u.dec.tbl = e.enc.tbl.mirror := by
  obtain ⟨u, hu, hdone, ht⟩ := exec_dEos_completes (.inr ⟨h.run, h.cw ▸ hcur, h.writes⟩)
  exact ⟨u, hu, hdone, ht.trans h.tables⟩

end

/-! ### Where a row is added -/

/-- From `e0`, `ENC` adds the word `w` with code `n` in the step of `b` that emits `k`: event by event, its table lacks the
code before that step and has it after (R38 (c)). -/
def EncAdds (e0 : State) (b : ByteSeq) (k n : Nat) (w : Word) : Prop :=
  ∃ (p q : ByteSeq) (c : Byte) (e e' : State), b = p ++ c :: q ∧ after (p.map .eByte) e0 = some e ∧
    exec (.eByte c) e = .next e' ∧ e'.outputs = [.code k] ∧ 256 + e'.enc.codesOut = n + 1 ∧
    (∀ v, e.enc.tbl.get v ≠ some n) ∧ e'.enc.tbl.get w = some n

/-- From `d0`, `DEC` adds the word `w` with code `n` in the step that consumes the code at index `i` of `ks` (R38 (c)). -/
def DecAdds (d0 : State) (ks : CodeSeq) (i n : Nat) (w : Word) : Prop :=
  ∃ (k : Nat) (d d' : State), ks[i]? = some k ∧ after ((ks.take i).map .dCode) d0 = some d ∧
    exec (.dCode k) d = .next d' ∧ d'.dec.phase = .run ∧ 255 + d'.dec.codesIn = n + 1 ∧
    d.dec.tbl.get n = none ∧ d'.dec.tbl.get n = some w

theorem after_cons {i : Instr} {is : List Instr} {s t : State} (h : exec i s = .next t) :
    after (i :: is) s = after is t := by
  simp [after, h]

theorem EncAdds.cons {e0 e1 : State} {b : ByteSeq} {c : Byte} {k n : Nat} {w : Word} (h : EncAdds e1 b k n w)
    (hx : exec (.eByte c) e0 = .next e1) : EncAdds e0 (c :: b) k n w := by
  obtain ⟨p, q, c', e, e', rfl, hafter, hrest⟩ := h
  exact ⟨c :: p, q, c', e, e', rfl, (after_cons hx).trans hafter, hrest⟩

theorem DecAdds.cons {d0 d1 : State} {ks : CodeSeq} {k i n : Nat} {w : Word} (h : DecAdds d1 ks i n w)
    (hx : exec (.dCode k) d0 = .next d1) : DecAdds d0 (k :: ks) (i + 1) n w := by
  obtain ⟨k', d, d', hk, hafter, hrest⟩ := h
  exact ⟨k', d, d', by simpa using hk, (after_cons hx).trans hafter, hrest⟩

/-! ### The whole stream -/

/-- From `e`, in a stream with `b` still to come, `ENC` emits `ks` and ends in `t`, and no word loses its code. -/
structure Encodes (e t : State) (b : ByteSeq) (ks : CodeSeq) : Prop where
  run : ∀ acc, runSteps .enc (b.map (eByteStep Config.hw) ++ [eEosStep Config.hw]) acc e =
    .next (t.setOutputs (acc ++ ks.map .code))
  keeps : ∀ w n, e.enc.tbl.get w = some n → t.enc.tbl.get w = some n
  sound : t.enc.tbl.Sound

/-- From `d`, `DEC` consumes those codes and ends with `t`'s table, inverted; the first of them brings it level with `e`; and
the row that `ENC` adds with each code but the last, `DEC` adds with the code after it (R38 (b), (c)). -/
structure Decodes (e t d : State) (b : ByteSeq) (ks : CodeSeq) : Prop where
  run : ∀ acc, ∃ u, runSteps .dec (ks.map (dCodeStep Config.hw) ++ [dEosStep]) acc d = .next u ∧
    u.dec.tbl = t.enc.tbl.mirror
  head : ∀ k ∈ ks.head?, ∃ d', exec (.dCode k) d = .next d' ∧ d'.dec.phase = .run ∧
    255 + d'.dec.codesIn = e.enc.tbl.next ∧ d'.dec.tbl = e.enc.tbl.mirror
  adds : ∀ i, i + 1 < ks.length → ∃ k w, ks[i]? = some k ∧ t.enc.tbl.get w = some (e.enc.tbl.next + i) ∧
    EncAdds e b k (e.enc.tbl.next + i) w ∧ DecAdds d ks (i + 1) (e.enc.tbl.next + i) w

theorem not_faulted_of_run {s : State} (h : s.enc.phase = .run) : s.faulted .enc = false := by simp [State.faulted, h]

theorem not_faulted_of_done {s : State} (h : s.enc.phase = .done) : s.faulted .enc = false := by simp [State.faulted, h]

theorem not_faulted_of_decRun {s : State} (h : s.dec.phase = .run) : s.faulted .dec = false := by simp [State.faulted, h]

theorem not_faulted_of_decDone {s : State} (h : s.dec.phase = .done) : s.faulted .dec = false := by simp [State.faulted, h]

section
variable {e e' t d d' : State} {b : ByteSeq} {c : Byte} {k : Nat} {ks : CodeSeq}

/-- The end alone: `ENC` emits what it flushes. -/
theorem encodes_nil (he : EncRuns e) (hx : exec .eEos e = .next t) (hdone : t.enc.phase = .done)
    (ht : t.enc.tbl = e.enc.tbl) (ho : t.outputs = ks.map .code) : Encodes e t [] ks := by
  refine ⟨fun acc => ?_, fun w n h => ht ▸ h, ht ▸ he.sound⟩
  rw [List.map_nil, List.nil_append, runSteps_next (f := eEosStep Config.hw) hx (not_faulted_of_done hdone), ho]
  rfl

/-- A byte first: its codes come first. -/
theorem Encodes.cons {ks0 : CodeSeq} (h : Encodes e' t b ks) (hx : exec (.eByte c) e = .next e') (hrun : e'.enc.phase = .run)
    (ho : e'.outputs = ks0.map .code) (hkeep : ∀ w n, e.enc.tbl.get w = some n → e'.enc.tbl.get w = some n) :
    Encodes e t (c :: b) (ks0 ++ ks) := by
  refine ⟨fun acc => ?_, fun w n hw => h.keeps w n (hkeep w n hw), h.sound⟩
  rw [List.map_cons, List.cons_append, runSteps_next (f := eByteStep Config.hw c) hx (not_faulted_of_run hrun), h.run, ho,
    List.map_append, List.append_assoc]

/-- The run of a composite that ends in one last event. -/
theorem runSteps_dEos {u : State} (hx : exec .dEos d = .next u) (hdone : u.dec.phase = .done) (acc : List Output) :
    runSteps .dec [dEosStep] acc d = .next (u.setOutputs (acc ++ u.outputs)) := by
  rw [runSteps_next (f := dEosStep) hx (not_faulted_of_decDone hdone)]; rfl

theorem runSteps_dCode (hx : exec (.dCode k) d = .next d') (hrun : d'.dec.phase = .run) (l : List (State → Out))
    (acc : List Output) : runSteps .dec (dCodeStep Config.hw k :: l) acc d = runSteps .dec l (acc ++ d'.outputs) d' :=
  runSteps_next hx (not_faulted_of_decRun hrun)

/-- Nothing to flush: `DEC` ends as it stands. -/
theorem Follows.decodes_nil (h : Follows e d) (hcur : e.enc.cur = []) (ht : t.enc.tbl = e.enc.tbl) :
    Decodes e t d [] [] := by
  obtain ⟨u, hu, hdone, htbl⟩ := h.eos hcur
  exact ⟨fun acc => ⟨_, runSteps_dEos hu hdone acc, ht ▸ htbl⟩, by simp, by simp⟩

/-- The code of the flush: it brings `DEC` level, and nothing is added after it. -/
theorem Follows.decodes_flush (h : Follows e d) (he : EncRuns e) (hk : e.enc.tbl.get e.enc.cur = some k)
    (hfit : k < 2 ^ 32) (ht : t.enc.tbl = e.enc.tbl) : Decodes e t d [] [k] := by
  obtain ⟨d', hx, hd'⟩ := h.consume he.sound hk hfit
  have hcur : e.enc.cur ≠ [] := by
    rintro h0
    simp [h0, EncTable.get_eq_none.2 he.sound.not_has_nil] at hk
  obtain ⟨u, hu, hdone, htbl⟩ := hd'.eos hcur
  refine ⟨fun acc => ⟨_, (runSteps_dCode hx hd'.run _ acc).trans (runSteps_dEos hu hdone _), ht ▸ htbl⟩, ?_, by simp⟩
  rintro _ ⟨⟩
  exact ⟨d', hx, hd'.run, hd'.count, hd'.tables⟩

/-- A hit puts its byte before the bytes of every later addition, and changes nothing else. -/
theorem Decodes.hit (h : Decodes e' t d b ks) (hx : exec (.eByte c) e = .next e') (ht : e'.enc.tbl = e.enc.tbl) :
    Decodes e t d (c :: b) ks := by
  refine ⟨h.run, ht ▸ h.head, fun i hi => ?_⟩
  obtain ⟨k, w, hk, hw, henc, hdec⟩ := h.adds i hi
  rw [ht] at hw henc hdec
  exact ⟨k, w, hk, hw, henc.cons hx, hdec⟩

/-- A miss: its code brings `DEC` level; the row it adds, `DEC` adds with the next code. -/
theorem Decodes.miss (h : Decodes e' t d' b ks) (he : EncRuns e) (he' : EncRuns e') (hx : exec (.eByte c) e = .next e')
    (ho : e'.outputs = [.code k]) (hn : e.enc.tbl.has (e.enc.cur ++ [c]) = false)
    (ht : e'.enc.tbl = e.enc.tbl.append (e.enc.cur ++ [c]))
    (hkeeps : ∀ w n, e'.enc.tbl.get w = some n → t.enc.tbl.get w = some n)
    (hxd : exec (.dCode k) d = .next d') (hd' : CaughtUp e d') : Decodes e t d (c :: b) (k :: ks) := by
  refine ⟨fun acc => ?_, ?_, fun i hi => ?_⟩
  · obtain ⟨u, hu, htbl⟩ := h.run (acc ++ d'.outputs)
    exact ⟨u, (runSteps_dCode hxd hd'.run _ acc).trans hu, htbl⟩
  · rintro _ ⟨⟩
    exact ⟨d', hxd, hd'.run, hd'.count, hd'.tables⟩
  · cases i with
    | zero =>
      have hnew : e'.enc.tbl.get (e.enc.cur ++ [c]) = some e.enc.tbl.next := ht ▸ EncTable.get_append_self hn
      have hcount := he'.inv.count he'.run
      obtain ⟨k', hk'⟩ : ∃ k', ks[0]? = some k' := ⟨ks[0]'(by simpa using hi), by simp⟩
      obtain ⟨d'', hx'', hrun, hin, htbl⟩ := h.head k' (by simpa [List.head?_eq_getElem?] using hk')
      refine ⟨k, e.enc.cur ++ [c], rfl, hkeeps _ _ hnew,
        ⟨[], b, c, e, e', rfl, rfl, hx, ho, ?_, he.sound.get_ne_next, hnew⟩,
        ⟨k', d', d'', hk', after_cons hxd, hx'', hrun, ?_, ?_, ?_⟩⟩
      · rw [← hcount, ht]; rfl
      · rw [hin, ht]; rfl
      · rw [hd'.tables]; exact DecTable.get_of_ge he.sound.mirror_wf (le_refl _)
      · rw [htbl]; exact he'.sound.mirror_get.2 hnew
    | succ i =>
      obtain ⟨k', w, hk', hw, henc, hdec⟩ := h.adds i (by simpa using hi)
      have hshift : e'.enc.tbl.next + i = e.enc.tbl.next + (i + 1) := by rw [ht, EncTable.append_next]; omega
      rw [hshift] at hw henc hdec
      exact ⟨k', w, hk', hw, henc.cons hx, hdec.cons hxd⟩

end

/-- From any point of a stream whose codes all fit: `ENC` ends the stream, and every decoder that follows it decodes it in
lockstep. By induction on the bytes still to come. -/
theorem encodes_and_decodes (b : ByteSeq) {e : State} (he : EncRuns e) (hfit : e.enc.tbl.next + b.length ≤ 2 ^ 32) :
    ∃ t ks, Encodes e t b ks ∧ ∀ d, Follows e d → Decodes e t d b ks := by
  induction b generalizing e with
  | nil =>
    obtain ⟨t, hx, hdone, ht, ⟨hcur, ho⟩ | ⟨k, hk, hlt, ho⟩⟩ := he.eos hfit
    · exact ⟨t, [], encodes_nil he hx hdone ht ho, fun d hd => hd.decodes_nil hcur ht⟩
    · exact ⟨t, [k], encodes_nil he hx hdone ht ho, fun d hd => hd.decodes_flush he hk hlt ht⟩
  | cons c b ih =>
    rw [List.length_cons] at hfit
    cases hc : e.enc.tbl.has (e.enc.cur ++ [c]) with
    | true =>
      obtain ⟨e', hx, he', ht, hcur, ho⟩ := he.hit hc
      obtain ⟨t, ks, henc, hdec⟩ := ih he' (by rw [ht]; omega)
      exact ⟨t, ks, henc.cons (ks0 := []) hx he'.run ho (fun w n h => ht ▸ h),
        fun d hd => (hdec d (hd.hit ht hcur)).hit hx ht⟩
    | false =>
      obtain ⟨k, e', hk, hlt, hx, he', ht, hcur, ho⟩ := he.miss hc (by omega)
      obtain ⟨t, ks, henc, hdec⟩ := ih he' (by rw [ht, EncTable.append_next]; omega)
      refine ⟨t, k :: ks, henc.cons (ks0 := [k]) hx he'.run ho (fun w n h => ht ▸ EncTable.get_append_of_has h),
        fun d hd => ?_⟩
      obtain ⟨d', hxd, hd'⟩ := hd.consume he.sound hk hlt
      exact (hdec d' (hd'.miss he.sound hk hc ht hcur)).miss he he' hx ho hc ht henc.keeps hxd hd'

/-- A composite is its events, run from the state a start leaves (R91). -/
theorem exec_compress_eq (s : State) (b : ByteSeq) : exec (.compress b) s =
    runSteps .enc (b.map (eByteStep Config.hw) ++ [eEosStep Config.hw]) [] ((encBegin Config.hw s).setOutputs []) :=
  runSteps_next (u := .enc) (f := eStartStep Config.hw) (l := b.map (eByteStep Config.hw) ++ [eEosStep Config.hw]) rfl rfl

theorem exec_decompress_eq (s : State) (ks : CodeSeq) : exec (.decompress ks) s =
    runSteps .dec (ks.map (dCodeStep Config.hw) ++ [dEosStep]) [] ((decBegin Config.hw s).setOutputs []) :=
  runSteps_next (u := .dec) (f := dStartStep Config.hw) (l := ks.map (dCodeStep Config.hw) ++ [dEosStep]) rfl rfl

/-- Settles O58: what holds from any point of a stream, for both units from their starts. -/
theorem theTwoTablesEndInLockstep : Obligations.TheTwoTablesEndInLockstep := by
  intro s b hwe hwd hlen
  have he : EncRuns ((encBegin Config.hw s).setOutputs []) := ⟨EncInv.encBegin.setOutputs [], rfl, hwe⟩
  obtain ⟨t, ks, henc, hdec⟩ := encodes_and_decodes b he (by simp; omega)
  have hc : exec (.compress b) s = .next (t.setOutputs (ks.map .code)) :=
    (exec_compress_eq s b).trans (henc.run [])
  have hwt : (t.setOutputs (ks.map .code)).decPort.writes = [] := by
    obtain ⟨-, hp, -⟩ := exec_frame_of_isEncOp rfl hc
    rw [hp, hwd]
  have hd := hdec _ (follows_starts s _ hwt)
  obtain ⟨u, hu, htbl⟩ := hd.run []
  have hdx : exec (.decompress ks) (t.setOutputs (ks.map .code)) = .next u :=
    (exec_decompress_eq _ ks).trans hu
  refine ⟨_, ks, u, hc, rfl, hdx, by rw [htbl]; rfl, fun k w => by rw [htbl]; exact henc.sound.mirror_get,
    fun j hj hjk => ?_⟩
  obtain ⟨i, rfl⟩ : ∃ i, j = i + 1 := ⟨j - 1, by omega⟩
  obtain ⟨k, w, hk, hw, ⟨p, q, c, e, e', hb, hafter, hx, ho, hout, habsent, hadded⟩,
    ⟨k', d, d', hk', hafterd, hxd, hrun, hin, habsentd, haddedd⟩⟩ := hd.adds i hjk
  have hn : ((encBegin Config.hw s).setOutputs []).enc.tbl.next + i = 255 + (i + 1) := by simp; omega
  rw [hn] at hw hout habsent hadded hin habsentd haddedd
  exact ⟨p, q, c, k, k', w, e, e', d, d', hb, hk, hk', hw, (after_cons rfl).trans hafter, hx, ho, by omega, habsent, hadded,
    (after_cons rfl).trans hafterd, hxd, hrun, by omega, habsentd, haddedd⟩

end Sys2Proof.Machine
end

section
/-! PROOFS, family 30_encoding: an operation and the field it is written as (O40, O41, O39). -/

namespace Sys2Proof.Machine

/-! ### The field of a code (R82, R170, R171) -/

/-- `Unpack` undoes `Pack` on a code that fits. -/
theorem unpackField_ordered_lanes {cfg : Config} {k : Nat} (hk : k < cfg.codeLimit) :
    unpackField cfg (cfg.ordered (lanes cfg.codeBytes k)) = k := by
  rw [codeLimit_eq] at hk
  rw [unpackField, ordered_ordered, ofLanes_lanes, Nat.mod_eq_of_lt hk]

/-- A field of `W` bytes holds a code that fits. -/
theorem unpackField_lt {cfg : Config} {f : ByteSeq} (hf : f.length = cfg.codeBytes) :
    unpackField cfg f < cfg.codeLimit := by
  have hlt := ofLanes_lt (cfg.ordered f)
  rwa [ordered_length, hf, ← codeLimit_eq] at hlt

/-- `Pack` undoes `Unpack` on a field of `W` bytes. -/
theorem packField_unpackField {cfg : Config} {f : ByteSeq} (hf : f.length = cfg.codeBytes) :
    packField cfg (unpackField cfg f) = some f := by
  have hlanes : lanes cfg.codeBytes (unpackField cfg f) = cfg.ordered f := by
    rw [← hf, ← ordered_length cfg f, unpackField, lanes_ofLanes]
  rw [packField_of_fits (unpackField_lt hf), hlanes, ordered_ordered]

/-! ### Decoding a field (R81, R82, R86) -/

theorem decodeFor_code {cfg : Config} {f : ByteSeq} (hf : f.length = cfg.codeBytes) :
    decodeFor cfg .code f = .ok (.dCode (unpackField cfg f)) := by
  simp only [decodeFor, hf, if_true]

/-- The field of a code that fits decodes to the event `D.CODE` of that code. -/
theorem decodeFor_packField {cfg : Config} {k : Nat} (hk : k < cfg.codeLimit) :
    ∃ bs, packField cfg k = some bs ∧ decodeFor cfg .code bs = .ok (.dCode k) := by
  refine ⟨_, packField_of_fits hk, ?_⟩
  rw [decodeFor_code (by simp), unpackField_ordered_lanes hk]

theorem decodeFor_byte8_of_length_ne {cfg : Config} {bs : ByteSeq} (h : bs.length ≠ 1) :
    decodeFor cfg .byte8 bs = .error (.wrongLength .byte8 bs.length) := by
  match bs, h with
  | [], _ => rfl
  | [_], h => exact absurd rfl h
  | _ :: _ :: _, _ => rfl

theorem decodeFor_code_of_length_ne {cfg : Config} {bs : ByteSeq} (h : bs.length ≠ cfg.codeBytes) :
    decodeFor cfg .code bs = .error (.wrongLength .code bs.length) := by
  simp only [decodeFor, h, if_false]

/-- Settles O40: the rows of `BYTE8` all have the byte as their field, those of `CODE` all have the packed code; an operation
of any other format has no field. -/
theorem decodeUndoesEncode : Obligations.DecodeUndoesEncode := by
  intro cfg i _ hwf hfmt
  cases i with
  | eByte c | eByteHit c | eByteMiss c => exact ⟨[c], rfl, rfl⟩
  | dCode k | dCodeFirst k | dCodeRes k | dCodeKwk k | dCodeBad k => exact decodeFor_packField (of_decide_eq_true hwf)
  | _ => simp [Instr.format] at hfmt

/-- Settles O41: a field's meaning is its byte or the code it unpacks to, and packing that code gives the field back. -/
theorem everyFieldHasOneMeaning : Obligations.EveryFieldHasOneMeaning := by
  intro cfg bs _
  refine ⟨fun h => ?_, fun h => ?_, decodeFor_byte8_of_length_ne, decodeFor_code_of_length_ne⟩
  · obtain ⟨c, rfl⟩ := List.length_eq_one_iff.1 h
    exact ⟨c, rfl, rfl⟩
  · exact ⟨_, decodeFor_code h, unpackField_lt h, packField_unpackField h⟩

/-- Settles O39: the decoder evaluates each of the words to its operation. -/
theorem spelledOutWordsDecode : Obligations.SpelledOutWordsDecode :=
  ⟨rfl, rfl, rfl, rfl, rfl, rfl, rfl, rfl⟩

end Sys2Proof.Machine
end

section
/-! PROOFS, family 30_encoding: the rows that a state selects (O30), every byte as an input (O18), and the fields that
`COMPRESSBYTES` answers (O53). -/

namespace Sys2Proof.Machine

/-! ### The guards of the two units -/

section
variable {s : State} {k : Nat} {r r' : Res (List Output)}

theorem encRunning_of_run (hp : s.enc.phase = .run) : encRunning s r = r := if_pos hp

theorem decAccept_of_first (hp : s.dec.phase = .first) : decAccept s r r' = r := by simp only [decAccept, hp]

theorem decAccept_of_run (hp : s.dec.phase = .run) : decAccept s r r' = r' := by simp only [decAccept, hp]

theorem withWireCode_of_lt (hk : k < 2 ^ 32) : withWireCode Config.hw k r = r := if_pos (fits_hw.2 hk)

/-- A code that no field holds is no operand (R141). -/
theorem withWireCode_of_ge (hk : 2 ^ 32 ≤ k) : withWireCode Config.hw k r = .refuse .operandDomain :=
  if_neg fun h => absurd (fits_hw.1 h) (Nat.not_lt.2 hk)

end

/-! ### A row is its event where the state selects it (R89) -/

section
variable {s : State} {c : Byte} {k : Nat}

theorem exec_eByte_of_run (hp : s.enc.phase = .run) : exec (.eByte c) s =
    finish .enc s (if s.enc.tbl.has (s.enc.cur ++ [c]) then encHit c s else encMiss Config.hw c s) :=
  congrArg (finish .enc s) (encRunning_of_run hp)

theorem exec_eByteHit_of_run (hp : s.enc.phase = .run) : exec (.eByteHit c) s =
    if s.enc.tbl.has (s.enc.cur ++ [c]) then exec (.eByte c) s else .refused .otherCase := by
  have hrow : exec (.eByteHit c) s =
      finish .enc s (if s.enc.tbl.has (s.enc.cur ++ [c]) then encHit c s else .refuse .otherCase) :=
    congrArg (finish .enc s) (encRunning_of_run hp)
  rw [hrow, exec_eByte_of_run hp]
  split <;> rfl

theorem exec_eByteMiss_of_run (hp : s.enc.phase = .run) : exec (.eByteMiss c) s =
    if s.enc.tbl.has (s.enc.cur ++ [c]) then .refused .otherCase else exec (.eByte c) s := by
  have hrow : exec (.eByteMiss c) s =
      finish .enc s (if s.enc.tbl.has (s.enc.cur ++ [c]) then .refuse .otherCase else encMiss Config.hw c s) :=
    congrArg (finish .enc s) (encRunning_of_run hp)
  rw [hrow, exec_eByte_of_run hp]
  split <;> rfl

theorem exec_dCodeFirst_of_first (hp : s.dec.phase = .first) (hk : k < 2 ^ 32) :
    exec (.dCodeFirst k) s = exec (.dCode k) s := by
  rw [exec_dCode_of_first hp hk]
  exact congrArg (finish .dec s) ((withWireCode_of_lt hk).trans (decAccept_of_first hp))

theorem exec_dCodeFirst_of_run (hp : s.dec.phase = .run) (hk : k < 2 ^ 32) :
    exec (.dCodeFirst k) s = .refused .otherCase :=
  congrArg (finish .dec s) ((withWireCode_of_lt hk).trans (decAccept_of_run hp))

/-- In `FIRST` no row of `RUN` is selected. -/
theorem finish_decRunCase_of_first (hp : s.dec.phase = .first) (hk : k < 2 ^ 32) (cl : CodeClass) :
    finish .dec s (decRunCase Config.hw cl k s) = .refused .otherCase :=
  congrArg (finish .dec s) ((withWireCode_of_lt hk).trans (decAccept_of_first hp))

/-- In `RUN` the class of the code selects the row (R84). -/
theorem finish_decRunCase_of_run (hp : s.dec.phase = .run) (hk : k < 2 ^ 32) (cl : CodeClass) :
    finish .dec s (decRunCase Config.hw cl k s) =
      if codeClass s.dec.tbl.next k = cl then exec (.dCode k) s else .refused .otherCase := by
  rw [decRunCase, withWireCode_of_lt hk, decAccept_of_run hp, exec_dCode_of_run hp hk]
  split <;> rfl

end

/-- Settles O30: behind the guards that all rows of an event share, a row is the branch of its event or a refusal. -/
theorem subCaseRowsAreTheirEventWhereSelected : Obligations.SubCaseRowsAreTheirEventWhereSelected := by
  intro s c k
  refine ⟨fun hp => ⟨exec_eByteHit_of_run hp, exec_eByteMiss_of_run hp⟩, fun hk hp => ?first, fun hk hp => ?run,
    fun hk => ?domain⟩
  case first =>
    have hrow := finish_decRunCase_of_first hp hk
    simp only [List.forall_mem_cons]
    exact ⟨exec_dCodeFirst_of_first hp hk, hrow .res, hrow .kwk, hrow .bad, by simp⟩
  case run =>
    have hrow := finish_decRunCase_of_run hp hk
    simp only [← codeClass_eq_res, ← codeClass_eq_kwk, ← codeClass_eq_bad (k := k)]
    exact ⟨exec_dCodeFirst_of_run hp hk, hrow .res, hrow .kwk, hrow .bad⟩
  case domain =>
    have hrow (r : Res (List Output)) : finish .dec s (withWireCode Config.hw k r) = .refused .operandDomain :=
      congrArg (finish .dec s) (withWireCode_of_ge hk)
    simp only [List.forall_mem_cons]
    exact ⟨hrow _, hrow _, hrow _, hrow _, hrow _, by simp⟩

/-! ### Every byte completes (R128, R198) -/

/-- The four bytes of R83 are the lanes of a field of this hardware. -/
theorem leBytes_eq (k : Nat) : leBytes k = Config.hw.ordered (lanes Config.hw.codeBytes k) := by
  simp [leBytes, Config.hw, Config.ordered, lanes, Nat.div_div_eq_div_mul]

section
variable {s : State} {c : Byte} {k : Nat}

/-- `emit_code` of a code that fits, when the write returns (R125). -/
theorem emitCode_eq_ok (hk : k < 2 ^ 32) (hw : s.encPort.writeReturns) : emitCode Config.hw k s =
    .ok () ((s.setPort .enc (s.encPort.wrote (leBytes k))).setEnc { s.enc with codesOut := s.enc.codesOut + 1 }) := by
  have hfield : packField Config.hw k = some (leBytes k) := by
    rw [packField_of_fits (by rwa [codeLimit_hw]), leBytes_eq]
  have hwrite : callWriteBytes .enc (leBytes k) s = .ok () (s.setPort .enc (s.encPort.wrote (leBytes k))) :=
    callWriteBytes_returns (List.cons_ne_nil _ _) hw
  simp only [emitCode, hfield, hwrite, bind_ok, setPort_enc]

/-- A miss whose code fits and whose write returns, completes (R123). -/
theorem encMiss_completes_of_writeReturns (hk : s.enc.tbl.get s.enc.cur = some k) (hlt : k < 2 ^ 32)
    (hn : s.enc.tbl.has (s.enc.cur ++ [c]) = false) (hw : s.encPort.writeReturns) :
    ∃ o t, encMiss Config.hw c s = .ok o t := by
  rw [encMiss, tblLookupW_eq_ok (s := countByte s) hk, bind_ok, emitCode_eq_ok (s := countByte s) hlt hw, bind_ok]
  simp [tblAddW, countByte, hn, tableIsFull, Config.hw]

end

/-- Settles O18: a hit always completes; a miss has a non-empty `cur`, whose code is below the counter and therefore fits. -/
theorem everyByteIsALegalInput : Obligations.EveryByteIsALegalInput := by
  intro s c hs hcur hp hfit hw
  cases hc : s.enc.tbl.has (s.enc.cur ++ [c]) with
  | true =>
    have hx : exec (.eByte c) s = finish .enc s (encHit c s) := by simp only [exec_eByte_of_run hp, hc, if_true]
    exact ⟨_, hx, hp, rfl, .inl rfl, hc⟩
  | false =>
    have hhas := hcur.resolve_left (hs.cur_ne_nil hc)
    obtain ⟨k, hk⟩ := EncTable.has_iff_get.1 hhas
    obtain ⟨o, t, ht⟩ := encMiss_completes_of_writeReturns hk ((hs.code_lt hk).trans_le hfit) hc hw
    have hx : exec (.eByte c) s = .next (t.setOutputs o) := by
      simp [exec_eByte_of_run hp, hc, ht]
    obtain ⟨_, _, -, -, -, -, -, rfl⟩ := encMiss_ok ht
    exact ⟨_, hx, hp, rfl, .inr rfl, (hs.append hc hhas).has_single c⟩

/-! ### The packed answer (R88, R177) -/

theorem leBytes_length (k : Nat) : (leBytes k).length = 4 := rfl

/-- Codes pack to their fields, one after the other. -/
theorem packOutputs_map_code (ks : CodeSeq) :
    packOutputs Config.hw (ks.map .code) = (ks.flatMap leBytes).map .byte := by
  induction ks with
  | nil => rfl
  | cons k ks ih =>
    rw [List.map_cons, packOutputs, ih, ← leBytes_eq, wordOutput, List.flatMap_cons, List.map_append]

/-- A composite that ends in a fault ends as the step that took it did, whatever was answered before (R203). -/
theorem runSteps_of_faulted {u : UnitId} {l : List (State → Out)} {acc : List Output} {s t : State}
    (h : runSteps u l acc s = .next t) (hs : s.faulted u = false) (ht : t.faulted u = true) (acc' : List Output) :
    runSteps u l acc' s = .next t := by
  induction l generalizing acc acc' s with
  | nil =>
    obtain rfl : s.setOutputs acc = t := Host.Outcome.next.inj h
    have : s.faulted u = true := by cases u <;> exact ht
    simp [hs] at this
  | cons f l ih =>
    simp only [runSteps] at h ⊢
    cases hf : f s with
    | next v =>
      simp only [hf] at h ⊢
      cases hv : v.faulted u with
      | true => simpa [hv] using h
      | false =>
        simp only [hv, Bool.false_eq_true, if_false] at h ⊢
        exact ih h hv _
    | fault g => simp [hf] at h
    | refused g => simp [hf] at h

/-- A stream that is encoded ends without a fault: its answer goes on from what was answered before. -/
theorem Encodes.not_faulted {e t : State} {b : ByteSeq} {ks : CodeSeq} (h : Encodes e t b ks) (he : e.enc.phase = .run) :
    t.faulted .enc = false := by
  by_contra hf
  have hsame := runSteps_of_faulted (h.run []) (not_faulted_of_run he) (Bool.eq_true_of_not_eq_false hf) [.success]
  rw [h.run] at hsame
  simpa using congrArg State.outputs (Host.Outcome.next.inj hsame)

/-- Settles O53: the codes and the state of `COMPRESS`, whose answer is then packed code by code. -/
theorem compressBytesPacksTheCodes : Obligations.CompressBytesPacksTheCodes := by
  intro s b hw hlen
  have he : EncRuns ((encBegin Config.hw s).setOutputs []) := ⟨EncInv.encBegin.setOutputs [], rfl, hw⟩
  obtain ⟨t, ks, henc, -⟩ := encodes_and_decodes b he (by simp; omega)
  have hc : compressFor Config.hw b s = .next (t.setOutputs (ks.map .code)) :=
    (exec_compress_eq s b).trans (henc.run [])
  have hok : (t.setOutputs (ks.map .code)).faulted .enc = false := henc.not_faulted he.run
  have hbytes : compressBytesFor Config.hw b s = .next (t.setOutputs ((ks.flatMap leBytes).map .byte)) := by
    simp [compressBytesFor, hc, hok, packOutputs_map_code]
  refine ⟨_, ks, hc, rfl, hbytes, ?_⟩
  simp [List.length_flatMap, leBytes_length, Nat.mul_comm]

end Sys2Proof.Machine
end

section
/-! PROOFS, family 40_symbol_table: the table operations issued directly (O1 to O8). One equation for each operation on a
table in use, one for each outcome of its guards, and what a raise outside and within a stream comes to. -/

namespace Sys2Proof.Machine

/-! ### Presence of a row (R11) -/

theorem EncTable.has_iff_mem {t : EncTable} {w : Word} : t.has w = true ↔ ∃ k, (w, k) ∈ t.entries := by
  simp [EncTable.has_iff]

theorem EncTable.get_eq_none_iff_forall_not_mem {t : EncTable} {w : Word} : t.get w = none ↔ ∀ k, (w, k) ∉ t.entries := by
  rw [EncTable.get_eq_none, ← Bool.not_eq_true, EncTable.has_iff_mem, not_exists]

theorem EncTable.get_of_mem {t : EncTable} (ht : t.wf) {w : Word} {k : Nat} (h : (w, k) ∈ t.entries) : t.get w = some k :=
  assocGet_of_mem ht.2.2 h

/-- In a canonical decode table a row is found by its code, which lies below the counter. -/
theorem DecTable.get_of_mem {t : DecTable} (ht : t.wf) {k : Nat} {w : Word} (h : (k, w) ∈ t.entries) :
    k < t.next ∧ t.get k = some w :=
  ⟨ht.2 k (List.mem_map_of_mem (f := (·.1)) h), assocGet_of_mem ht.1.nodup h⟩

/-! ### Which phases are live (R29) -/

section
variable {s : State}

theorem tableLive_of_done (h : s.enc.phase = .done) : s.tableLive .enc = true := by simp [State.tableLive, h]

/-- The live phase of `ENC` outside a stream is `DONE`. -/
theorem enc_live_and_not_streaming : (s.tableLive .enc && !s.streaming .enc) = decide (s.enc.phase = .done) := by
  cases hp : s.enc.phase <;> simp [State.tableLive, State.streaming, hp]

/-- The live phase of `DEC` outside a stream is `DONE`. -/
theorem dec_live_and_not_streaming : (s.tableLive .dec && !s.streaming .dec) = decide (s.dec.phase = .done) := by
  cases hp : s.dec.phase <;> simp [State.tableLive, State.streaming, hp]

end

/-! ### The guards of a direct table operation (R100, R197, R204; assumption 10) -/

section
variable {s : State} {r : Res (List Output)} {u : UnitId}

theorem betweenStreams_enc : betweenStreams .enc s r = if s.enc.phase = .done then r else .refuse (.wrongPhase .enc) := by
  simp only [betweenStreams, enc_live_and_not_streaming, decide_eq_true_eq]

theorem betweenStreams_dec : betweenStreams .dec s r = if s.dec.phase = .done then r else .refuse (.wrongPhase .dec) := by
  simp only [betweenStreams, dec_live_and_not_streaming, decide_eq_true_eq]

theorem withTable_enc_of_live (hr : s.enc.ready = true) (hl : s.tableLive .enc = true) : withTable .enc s r = r := by
  simp [withTable, not_faulted_of_tableLive s .enc hl, hl, hr]

theorem withTable_dec_of_live (hr : s.dec.ready = true) (hl : s.tableLive .dec = true) : withTable .dec s r = r := by
  simp [withTable, not_faulted_of_tableLive s .dec hl, hl, hr]

theorem withTable_of_faulted (h : s.faulted u = true) : withTable u s r = .refuse (.wrongPhase u) := if_pos h

theorem withTable_enc_of_uninitialised (h : s.enc.phase = .idle ∨ s.enc.ready = false ∧ s.enc.phase ≠ .fault) :
    withTable .enc s r = .refuse (.uninitialised .enc) := by
  obtain hp | ⟨hr, hp⟩ := h
  · simp [withTable, State.faulted, State.tableLive, hp]
  · simp [withTable, State.faulted, hr, hp]

theorem withTable_dec_of_uninitialised (h : s.dec.phase = .idle ∨ s.dec.ready = false ∧ s.dec.phase ≠ .fault) :
    withTable .dec s r = .refuse (.uninitialised .dec) := by
  obtain hp | ⟨hr, hp⟩ := h
  · simp [withTable, State.faulted, State.tableLive, hp]
  · simp [withTable, State.faulted, hr, hp]

end

/-! ### The table operations on a table in use -/

section
variable {s : State} (cfg : Config) (w : Word) (k : Nat)

section
variable (hr : s.enc.ready = true) (hl : s.tableLive .enc = true)
include hr hl

theorem exec_tContains_of_live : exec (.tContains w) s = .next (s.setOutputs [.flag (s.enc.tbl.has w)]) :=
  congrArg (finish .enc s) (withTable_enc_of_live hr hl)

theorem exec_tLookupW_of_live :
    exec (.tLookupW w) s = finish .enc s ((tblLookupW w s).bind fun k v => .ok [.code k] v) :=
  congrArg (finish .enc s) (withTable_enc_of_live hr hl)

theorem addWFor_of_live : addWFor cfg w s = finish .enc s ((tblAddW cfg w s).bind fun _ v => .ok [] v) :=
  congrArg (finish .enc s) (withTable_enc_of_live hr hl)

end

section
variable (hr : s.dec.ready = true) (hl : s.tableLive .dec = true)
include hr hl

theorem exec_tLookupC_of_live :
    exec (.tLookupC k) s = finish .dec s ((tblLookupC k s).bind fun w v => .ok (wordOutput w) v) :=
  congrArg (finish .dec s) (withTable_dec_of_live hr hl)

theorem addCFor_of_live : addCFor cfg w s = finish .dec s ((tblAddC cfg w s).bind fun _ v => .ok [] v) :=
  congrArg (finish .dec s) (withTable_dec_of_live hr hl)

end

theorem exec_tAddW : exec (.tAddW w) s = addWFor Config.hw w s := rfl

theorem exec_tAddC : exec (.tAddC w) s = addCFor Config.hw w s := rfl

/-- What the guard of the table refuses, every operation on the encode table is refused. -/
theorem encTableOps_refused {q : Refusal} (h : ∀ r, withTable .enc s r = .refuse q) :
    ∀ i ∈ [Instr.tContains w, .tLookupW w, .tAddW w], exec i s = .refused q := by
  have hq (r : Res (List Output)) : finish .enc s (withTable .enc s r) = .refused q := by rw [h, finish_refuse]
  simp only [List.mem_cons, List.not_mem_nil, or_false, forall_eq_or_imp, forall_eq]
  exact ⟨hq _, hq _, hq _⟩

/-- What the guard of the table refuses, every operation on the decode table is refused. -/
theorem decTableOps_refused {q : Refusal} (h : ∀ r, withTable .dec s r = .refuse q) :
    ∀ i ∈ [Instr.tLookupC k, .tAddC w], exec i s = .refused q := by
  have hq (r : Res (List Output)) : finish .dec s (withTable .dec s r) = .refused q := by rw [h, finish_refuse]
  simp only [List.mem_cons, List.not_mem_nil, or_false, forall_eq_or_imp, forall_eq]
  exact ⟨hq _, hq _⟩

end

/-! ### The outcomes of lookups and additions (R102 to R109) -/

/-- This hardware has no capacity (R6). -/
theorem tableIsFull_hw (n : Nat) : tableIsFull Config.hw n = false := rfl

theorem tableIsFull_of_capacity {cfg : Config} {cap : Nat} (hc : cfg.capacity = some cap) (n : Nat) :
    tableIsFull cfg n = decide (cap ≤ n) := by
  simp [tableIsFull, hc]

section
variable {cfg : Config} {s : State} {w : Word} {k : Nat}

theorem tblLookupW_eq_raise (h : s.enc.tbl.get w = none) : tblLookupW w s = .raise (.decodeError (.word w)) s := by
  simp [tblLookupW, h]

theorem tblLookupC_eq_raise (h : s.dec.tbl.next ≤ k) : tblLookupC k s = .raise (.decodeError (.code k)) s :=
  if_neg (Nat.not_lt.2 h)

theorem tblAddW_nil : tblAddW cfg [] s = .refuse .emptyWord := rfl

theorem tblAddC_nil : tblAddC cfg [] s = .refuse .emptyWord := rfl

theorem tblAddW_duplicate (hw : w ≠ []) (h : s.enc.tbl.get w ≠ none) : tblAddW cfg w s = .raise (.duplicateAdd w) s := by
  have hh : s.enc.tbl.has w = true := Option.isSome_iff_ne_none.2 h
  simp [tblAddW, hw, hh]

theorem tblAddW_full (hw : w ≠ []) (h : s.enc.tbl.get w = none) (hf : tableIsFull cfg s.enc.tbl.next = true) :
    tblAddW cfg w s = .raise (.tableFull s.enc.tbl.next) s := by
  simp [tblAddW, hw, EncTable.get_eq_none.1 h, hf]

theorem tblAddW_eq_ok (hw : w ≠ []) (h : s.enc.tbl.get w = none) (hf : tableIsFull cfg s.enc.tbl.next = false) :
    tblAddW cfg w s = .ok () (s.setEnc { s.enc with tbl := s.enc.tbl.append w }) := by
  simp [tblAddW, hw, EncTable.get_eq_none.1 h, hf]

theorem tblAddC_full (hw : w ≠ []) (hf : tableIsFull cfg s.dec.tbl.next = true) :
    tblAddC cfg w s = .raise (.tableFull s.dec.tbl.next) s := by
  simp [tblAddC, hw, hf]

theorem tblAddC_eq_ok (hw : w ≠ []) (hf : tableIsFull cfg s.dec.tbl.next = false) :
    tblAddC cfg w s = .ok () (s.setDec { s.dec with tbl := s.dec.tbl.append w }) := by
  simp [tblAddC, hw, hf]

/-! ### An addition that completes (R104, R105) -/

theorem addWFor_completes (hr : s.enc.ready = true) (hl : s.tableLive .enc = true) (hw : w ≠ [])
    (h : s.enc.tbl.get w = none) (hf : tableIsFull cfg s.enc.tbl.next = false) :
    addWFor cfg w s = .next { s with enc := { s.enc with tbl := s.enc.tbl.append w }, outputs := [] } := by
  rw [addWFor_of_live cfg w hr hl, tblAddW_eq_ok hw h hf]; rfl

theorem addCFor_completes (hr : s.dec.ready = true) (hl : s.tableLive .dec = true) (hw : w ≠ [])
    (hf : tableIsFull cfg s.dec.tbl.next = false) :
    addCFor cfg w s = .next { s with dec := { s.dec with tbl := s.dec.tbl.append w }, outputs := [] } := by
  rw [addCFor_of_live cfg w hr hl, tblAddC_eq_ok hw hf]; rfl

/-! ### A cause raised by a table operation (R202; R29, R130, R157) -/

variable (c : Cause)

/-- A cause raised for `ENC` before anything is written: the fault in `RUN`, a refusal in `DONE`. -/
theorem finish_enc_raise :
    (s.enc.phase = .run → ∃ t, finish .enc s (.raise c s) = .next t ∧ EncFaulted c s t) ∧
    (s.enc.phase = .done → finish .enc s (.raise c s) = .refused (.wrongPhase .enc)) := by
  refine ⟨fun hp => ⟨_, finish_raise s .enc c (by simp [State.streaming, hp]), ?_⟩,
    fun hp => finish_raise_refused s .enc c (by simp [State.streaming, hp])⟩
  exact ⟨rfl, by simp, by simp, by simp, by simp, rfl⟩

/-- A cause raised for `DEC` before anything is written: the fault in `FIRST` and `RUN`, a refusal in `DONE`. -/
theorem finish_dec_raise :
    (s.streaming .dec = true → ∃ t, finish .dec s (.raise c s) = .next t ∧ DecFaulted c s t) ∧
    (s.dec.phase = .done → finish .dec s (.raise c s) = .refused (.wrongPhase .dec)) := by
  refine ⟨fun hs => ⟨_, finish_raise s .dec c hs, ?_⟩,
    fun hp => finish_raise_refused s .dec c (by simp [State.streaming, hp])⟩
  exact ⟨rfl, by simp, by simp, by simp, by simp, rfl⟩

end

/-! ### The statements -/

/-- Settles O1: the guard of `T.INIT` lets through phase `DONE` alone, and the table it leaves is that of the preloaded
rows. -/
theorem tInitLeavesExactlyTheSingletons : Obligations.TInitLeavesExactlyTheSingletons := by
  intro s
  refine ⟨fun hp => ⟨_, congrArg (finish .enc s) (betweenStreams_enc.trans (if_pos hp)), ?_⟩,
    fun hp => ⟨_, congrArg (finish .dec s) (betweenStreams_dec.trans (if_pos hp)), ?_⟩,
    fun hp => congrArg (finish .enc s) (betweenStreams_enc.trans (if_neg hp)),
    fun hp => congrArg (finish .dec s) (betweenStreams_dec.trans (if_neg hp))⟩
  · exact ⟨EncTable.literals_get_iff, EncTable.literals_length, rfl, rfl⟩
  · exact ⟨fun k w => DecTable.literals_get_iff w k, DecTable.literals_length, rfl, rfl⟩

/-- Settles O2: the answer is `has`, which says that a row stands there; R36 fixes it for words shorter than two. -/
theorem tContainsAnswersPresence : Obligations.TContainsAnswersPresence := by
  intro s w hr hl
  refine ⟨s.enc.tbl.has w, exec_tContains_of_live w hr hl, EncTable.has_iff_mem, fun hs => ⟨?_, fun hw => ?_⟩⟩
  · rintro rfl
    exact hs.not_has_nil
  · obtain ⟨b, rfl⟩ := List.length_eq_one_iff.1 hw
    exact hs.has_single b

/-- Settles O3: a row of a canonical table is what its word reads as, and a word without one raises. -/
theorem tLookupWAnswersTheCodeOrFaults : Obligations.TLookupWAnswersTheCodeOrFaults := by
  intro s w hwf hr hl
  rw [exec_tLookupW_of_live w hr hl]
  refine ⟨fun k hk => ?_, fun hn => ?_⟩
  · rw [tblLookupW_eq_ok (EncTable.get_of_mem hwf hk)]; rfl
  · rw [tblLookupW_eq_raise (EncTable.get_eq_none_iff_forall_not_mem.2 hn)]
    exact finish_enc_raise _

/-- Settles O4: a row of a canonical table lies below the counter and is what its code reads as; a code above raises. -/
theorem tLookupCAnswersTheWordOrFaults : Obligations.TLookupCAnswersTheWordOrFaults := by
  intro s k hwf hr hl
  rw [exec_tLookupC_of_live k hr hl]
  refine ⟨fun w hw => ?_, fun hk => ?_⟩
  · obtain ⟨hlt, hget⟩ := DecTable.get_of_mem hwf hw
    rw [tblLookupC_eq_ok hlt hget]; rfl
  · rw [tblLookupC_eq_raise hk]
    exact finish_dec_raise _

/-- Settles O5: without a capacity the addition completes, and reading after an append gives the new row. -/
theorem tAddWAppendsOneRow : Obligations.TAddWAppendsOneRow := by
  intro s w hr hl hw hn
  exact ⟨_, (exec_tAddW w).trans (addWFor_completes hr hl hw hn (tableIsFull_hw _)),
    EncTable.get_append_self (EncTable.get_eq_none.1 hn), fun _ hv => EncTable.get_append_ne hv, rfl⟩

/-- Settles O6: without a capacity the addition completes, whatever words stand in the table already. -/
theorem tAddCAppendsOneRow : Obligations.TAddCAppendsOneRow := by
  intro s w hwf hr hl hw
  exact ⟨_, (exec_tAddC w).trans (addCFor_completes hr hl hw (tableIsFull_hw _)),
    DecTable.get_append_self hwf w, fun _ hk => DecTable.get_append_ne hk, rfl⟩

/-- Settles O7: the guards of the table and of the addition, each with its own outcome. -/
theorem tableMisuseStopsByName : Obligations.TableMisuseStopsByName := by
  intro s w k
  refine ⟨fun hr hw hd => ?_, fun hr hl => ?_, fun hr hl => ?_,
    fun h => encTableOps_refused w fun _ => withTable_enc_of_uninitialised h,
    fun h => decTableOps_refused w k fun _ => withTable_dec_of_uninitialised h,
    fun hp => encTableOps_refused w fun _ => withTable_of_faulted (by simp [State.faulted, hp]),
    fun hp => decTableOps_refused w k fun _ => withTable_of_faulted (by simp [State.faulted, hp])⟩
  · have hraise (hl : s.tableLive .enc = true) : exec (.tAddW w) s = finish .enc s (.raise (.duplicateAdd w) s) := by
      rw [exec_tAddW, addWFor_of_live _ w hr hl, tblAddW_duplicate hw hd, bind_raise]
    obtain ⟨hrun, hdone⟩ := finish_enc_raise (s := s) (.duplicateAdd w)
    exact ⟨fun hp => hraise (tableLive_of_run hp) ▸ hrun hp, fun hp => hraise (tableLive_of_done hp) ▸ hdone hp⟩
  · rw [exec_tAddW, addWFor_of_live _ [] hr hl, tblAddW_nil, bind_refuse, finish_refuse]
  · rw [exec_tAddC, addCFor_of_live _ [] hr hl, tblAddC_nil, bind_refuse, finish_refuse]

/-- Settles O8: a table that holds `cap` entries is full, one that holds fewer is not, on either unit. -/
theorem aFullTableFaultsOnBothUnits : Obligations.AFullTableFaultsOnBothUnits := by
  intro cfg cap s w hc hw
  have hfull {n : Nat} (h : cap ≤ n) : tableIsFull cfg n = true := by rw [tableIsFull_of_capacity hc]; exact decide_eq_true h
  have hroom {n : Nat} (h : n < cap) : tableIsFull cfg n = false := by
    rw [tableIsFull_of_capacity hc]; exact decide_eq_false (Nat.not_le.2 h)
  refine ⟨fun hr hl hn => ⟨fun h => ?_, fun h => addWFor_completes hr hl hw hn (hroom h)⟩,
    fun hr hl => ⟨fun h => ?_, fun h => addCFor_completes hr hl hw (hroom h)⟩⟩
  · rw [addWFor_of_live cfg w hr hl, tblAddW_full hw hn (hfull h)]
    exact finish_enc_raise _
  · rw [addCFor_of_live cfg w hr hl, tblAddC_full hw (hfull h)]
    exact finish_dec_raise _

end Sys2Proof.Machine
end

section
/-! PROOFS, family 41_encoder: the events of `ENC` one by one (O11 to O15, O17), events in a phase that does not take them
(O28), and the step that reads `ENC`'s cursor (O42). One equation for each way an event goes. -/

namespace Sys2Proof.Machine

/-! ### The start (R120) -/

/-- Settles O11: the start writes every register of `ENC`, so that a second one finds what it would leave. -/
theorem eStartDiscardsAllEarlierState : Obligations.EStartDiscardsAllEarlierState := by
  intro s
  refine ⟨(encBegin Config.hw s).setOutputs [], rfl, EncTable.literals_get_iff, rfl, rfl, EncTable.literals_length,
    rfl, rfl, rfl, rfl, rfl, ?_⟩
  exact congrArg Host.Outcome.next (by rw [encBegin_setOutputs, encBegin_encBegin, setOutputs_setOutputs])

/-! ### The events, where their writes return (R122 to R125) -/

/-- A code that fits is packed to its four bytes (R83). -/
theorem packField_eq_leBytes {k : Nat} (hk : k < 2 ^ 32) : packField Config.hw k = some (leBytes k) := by
  rw [packField_of_fits (by rwa [codeLimit_hw]), leBytes_eq]

section
variable {s : State} {c : Byte} {k : Nat} (hp : s.enc.phase = .run)
include hp

/-- A hit extends `cur` (R122). -/
theorem exec_eByte_of_has (hc : s.enc.tbl.has (s.enc.cur ++ [c]) = true) :
    exec (.eByte c) s = .next { s with
      enc := { s.enc with cur := s.enc.cur ++ [c], bytesIn := s.enc.bytesIn + 1 }, outputs := [] } := by
  rw [exec_eByte_of_run hp, if_pos hc]; rfl

/-- What is not a hit is a miss (R121). -/
theorem exec_eByte_of_not_has (hn : s.enc.tbl.has (s.enc.cur ++ [c]) = false) :
    exec (.eByte c) s = finish .enc s (encMiss Config.hw c s) := by
  rw [exec_eByte_of_run hp, if_neg (by simp [hn])]

/-- A miss emits the code of `cur`, adds `cur ++ [c]` and restarts at `[c]` (R123). -/
theorem exec_eByte_of_miss (hn : s.enc.tbl.get (s.enc.cur ++ [c]) = none) (hk : s.enc.tbl.get s.enc.cur = some k)
    (hlt : k < 2 ^ 32) (hw : s.encPort.writeReturns) :
    exec (.eByte c) s = .next { s with
      enc := { s.enc with tbl := s.enc.tbl.append (s.enc.cur ++ [c]), cur := [c], bytesIn := s.enc.bytesIn + 1,
                          codesOut := s.enc.codesOut + 1 },
      encPort := s.encPort.wrote (leBytes k), outputs := [.code k] } := by
  have habsent := EncTable.get_eq_none.1 hn
  obtain ⟨o, v, hv⟩ := encMiss_completes_of_writeReturns hk hlt habsent hw
  rw [exec_eByte_of_not_has hp habsent, hv, finish_ok]
  obtain ⟨k', bs, hk', hbs, -, -, rfl, rfl⟩ := encMiss_ok hv
  obtain rfl : k = k' := Option.some.inj (hk.symm.trans hk')
  obtain rfl : leBytes k = bs := Option.some.inj ((packField_eq_leBytes hlt).symm.trans hbs)
  rfl

/-- With an empty `cur` the end of the stream only changes the phase (R124). -/
theorem exec_eEos_of_nil (hcur : s.enc.cur = []) :
    exec .eEos s = .next { s with enc := { s.enc with phase := .done }, outputs := [] } :=
  congrArg (finish .enc s) ((encRunning_of_run hp).trans (if_pos hcur))

/-- With a `cur` to flush the end of the stream looks up its code and emits it (R124). -/
theorem exec_eEos_of_code (hcur : s.enc.cur ≠ []) (hk : s.enc.tbl.get s.enc.cur = some k) :
    exec .eEos s = finish .enc s ((emitCode Config.hw k s).bind fun _ v =>
      .ok [.code k] (v.setEnc { v.enc with phase := .done })) := by
  refine congrArg (finish .enc s) ((encRunning_of_run hp).trans ((if_neg hcur).trans ?_))
  rw [tblLookupW_eq_ok hk, bind_ok]

/-- The flush emits the code of `cur` and adds nothing (R124). -/
theorem exec_eEos_of_flush (hcur : s.enc.cur ≠ []) (hk : s.enc.tbl.get s.enc.cur = some k) (hlt : k < 2 ^ 32)
    (hw : s.encPort.writeReturns) :
    exec .eEos s = .next { s with
      enc := { s.enc with phase := .done, codesOut := s.enc.codesOut + 1 },
      encPort := s.encPort.wrote (leBytes k), outputs := [.code k] } := by
  rw [exec_eEos_of_code hp hcur hk, emitCode_eq_ok hlt hw, bind_ok]; rfl

end

/-- Settles O12: the event by its equation for a hit; its row is the event where the state selects it. -/
theorem eByteHitExtendsTheCurrentWord : Obligations.EByteHitExtendsTheCurrentWord := by
  intro s c hp hget
  have hc : s.enc.tbl.has (s.enc.cur ++ [c]) = true := Option.isSome_iff_ne_none.2 hget
  have hevent := exec_eByte_of_has hp hc
  have hrow : exec (.eByteHit c) s = exec (.eByte c) s := by rw [exec_eByteHit_of_run hp, if_pos hc]
  simp only [List.forall_mem_cons]
  exact ⟨hevent, hrow.trans hevent, by simp⟩

/-- Settles O13: the event by its equation for a miss; its row is the event where the state selects it. -/
theorem eByteMissEmitsAddsAndRestarts : Obligations.EByteMissEmitsAddsAndRestarts := by
  intro s c k hp hn hk hlt hw
  have hevent := exec_eByte_of_miss hp hn hk hlt hw
  have hrow : exec (.eByteMiss c) s = exec (.eByte c) s := by
    rw [exec_eByteMiss_of_run hp, if_neg (by simp [EncTable.get_eq_none.1 hn])]
  simp only [List.forall_mem_cons]
  exact ⟨hevent, hrow.trans hevent, by simp⟩

/-- Settles O14: the two equations of the end of a stream. -/
theorem eEosFlushesWithoutGrowth : Obligations.EEosFlushesWithoutGrowth :=
  fun _ hp => ⟨exec_eEos_of_nil hp, fun _ => exec_eEos_of_flush hp⟩

/-! ### A write that fails (R127, R202) -/

/-- A raise of `ENC` whose step has left the earlier output alone is the fault of R202. -/
theorem encFaulted_enterFault {c : Cause} {s v : State} (hpast : v.encPort.past = s.encPort.past) :
    EncFaulted c s (enterFault .enc c s v) :=
  ⟨rfl, by simp, by simp, by simp, by simp, hpast⟩

section
variable {s : State} {k : Nat} {e : ErrVal}

/-- `emit_code` of a code that fits, when the write fails: only the oracle has moved (R125, R176). -/
theorem emitCode_eq_raise (hk : k < 2 ^ 32) (hw : (nextAnswer s.encPort.writes).1 = .fails e) :
    emitCode Config.hw k s =
      .raise (.ioError e) (s.setPort .enc { s.encPort with writes := (nextAnswer s.encPort.writes).2 }) := by
  have hwrite : callWriteBytes .enc (leBytes k) s = _ := callWriteBytes_fails (List.cons_ne_nil _ _) hw
  simp only [emitCode, packField_eq_leBytes hk, hwrite, bind_raise, port_enc]

/-- The fault of a write of `ENC` that failed: the input and the earlier output are as they were. -/
theorem enc_ioError_fault (hp : s.enc.phase = .run) {v : State} (hpast : v.encPort.past = s.encPort.past)
    (hinput : v.encPort.input = s.encPort.input) :
    ∃ t, finish .enc s (.raise (.ioError e) v) = .next t ∧ EncFaulted (.ioError e) s t ∧
      t.encPort.input = s.encPort.input :=
  ⟨_, finish_raise v .enc _ (decide_eq_true hp), encFaulted_enterFault hpast, hinput⟩

end

/-- Settles O15: the miss and the flush both emit by `emit_code`, which raises before anything else is written. -/
theorem encWriteFailureAbortsTheStream : Obligations.EncWriteFailureAbortsTheStream := by
  intro s c k e hp hcur hk hlt hw
  refine ⟨fun hn => ?_, ?_⟩
  · rw [exec_eByte_of_not_has hp (EncTable.get_eq_none.1 hn), encMiss, tblLookupW_eq_ok (s := countByte s) hk, bind_ok,
      emitCode_eq_raise (s := countByte s) hlt hw, bind_raise]
    exact enc_ioError_fault hp rfl rfl
  · rw [exec_eEos_of_code hp hcur hk, emitCode_eq_raise hlt hw, bind_raise]
    exact enc_ioError_fault hp rfl rfl

/-! ### The faults of a run (R128, R198) -/

/-- A cause that comes from outside the encoder: the collaborator's, or the width of a field. -/
def Cause.External (c : Cause) : Prop := (∃ e, c = .ioError e) ∨ ∃ k, c = .codeRange k

section
variable {s v : State} {c : Byte} {e : Cause} (hcur : s.enc.cur = [] ∨ s.enc.tbl.has s.enc.cur = true)
include hcur

/-- In a run a non-empty `cur` has a code (R36, R128 b). -/
theorem get_cur_ne_none (hne : s.enc.cur ≠ []) : s.enc.tbl.get s.enc.cur ≠ none :=
  Option.isSome_iff_ne_none.1 (hcur.resolve_left hne)

/-- A byte of a run raises no cause of the table's: `cur` is present, `cur ++ [c]` is absent, and there is room. -/
theorem encByte_raise_external (hs : s.enc.tbl.Sound) (h : encByte Config.hw c s = .raise e v) : e.External := by
  obtain ⟨-, hn, hm⟩ := encByte_raise h
  obtain ⟨hnone, -⟩ | hk | hio | hhas | hfull := encMiss_raise hm
  · exact absurd hnone (get_cur_ne_none hcur (hs.cur_ne_nil hn))
  · exact .inr hk
  · exact .inl hio
  · rw [hn] at hhas; cases hhas
  · rw [tableIsFull_hw] at hfull; cases hfull

/-- The end of a run raises no cause of the table's: the `cur` it flushes is present. -/
theorem encEos_raise_external (h : encEos Config.hw s = .raise e v) : e.External := by
  obtain ⟨-, hne, ⟨hnone, -⟩ | hk | hio⟩ := encEos_raise h
  · exact absurd hnone (get_cur_ne_none hcur hne)
  · exact .inr hk
  · exact .inl hio

end

/-- `E.BYTE` that completes stays in `RUN`, where alone it is taken (R121, R131). -/
theorem encByte_ok_phase {c : Byte} {s v : State} {o : List Output} (h : encByte Config.hw c s = .ok o v) :
    s.enc.phase = .run ∧ v.enc.phase = .run := by
  obtain ⟨hp, ⟨-, -, rfl⟩ | ⟨-, hm⟩⟩ := encByte_ok h
  · exact ⟨hp, hp⟩
  · obtain ⟨_, _, -, -, -, -, -, rfl⟩ := encMiss_ok hm
    exact ⟨hp, hp⟩

/-- `E.EOS` that completes ends in `DONE`, and is taken in `RUN` alone (R124, R131). -/
theorem encEos_ok_phase {s v : State} {o : List Output} (h : encEos Config.hw s = .ok o v) :
    s.enc.phase = .run ∧ v.enc.phase = .done := by
  obtain ⟨hp, ⟨-, -, rfl⟩ | ⟨-, _, _, -, -, -, rfl⟩⟩ := encEos_ok h <;> exact ⟨hp, rfl⟩

/-- Settles O17: an event that completes is in its phase; one that raises, raises from outside. -/
theorem encoderHasNoFaultOfItsOwn : Obligations.EncoderHasNoFaultOfItsOwn := by
  intro s t c hs hcur _
  simp only [List.forall_mem_cons]
  refine ⟨fun h => ?_, fun h => ?_, by simp⟩
  · obtain ⟨o, v, hv, rfl⟩ | ⟨e, v, hv, -, rfl⟩ := finish_cases h
    · exact .inl ⟨(encByte_ok_phase hv).2, trivial⟩
    · exact .inr (.inr ⟨rfl, encByte_raise_external hcur hs hv⟩)
  · obtain ⟨o, v, hv, rfl⟩ | ⟨e, v, hv, -, rfl⟩ := finish_cases h
    · exact .inr (.inl ⟨(encEos_ok_phase hv).2, trivial⟩)
    · exact .inr (.inr ⟨rfl, encEos_raise_external hcur hv⟩)

/-! ### Events outside their phases (R131, R158) -/

section
variable {s : State} {r r' : Res (List Output)}

theorem encRunning_of_not_run (hp : s.enc.phase ≠ .run) : encRunning s r = .refuse (.wrongPhase .enc) := if_neg hp

theorem decAccept_of_not_streaming (hf : s.dec.phase ≠ .first) (hr : s.dec.phase ≠ .run) :
    decAccept s r r' = .refuse (.wrongPhase .dec) := by
  unfold decAccept
  cases hp : s.dec.phase with
  | first => exact absurd hp hf
  | run => exact absurd hp hr
  | idle | done | fault => rfl

end

/-- Settles O28: every event, and every row, looks at the phase before anything but the domain of its operand. -/
theorem eventsInTheWrongPhaseAreRefused : Obligations.EventsInTheWrongPhaseAreRefused := by
  intro s c k n hk hn1 hn3
  refine ⟨fun hp => ?enc, fun hf hr => ?dec⟩
  case enc =>
    have hevent (r : Res (List Output)) : finish .enc s (encRunning s r) = .refused (.wrongPhase .enc) := by
      rw [encRunning_of_not_run hp, finish_refuse]
    simp only [List.forall_mem_cons]
    exact ⟨hevent _, hevent _, hevent _, hevent _, by simp⟩
  case dec =>
    have hend (r r' : Res (List Output)) : finish .dec s (decAccept s r r') = .refused (.wrongPhase .dec) := by
      rw [decAccept_of_not_streaming hf hr, finish_refuse]
    have hcode (r r' : Res (List Output)) :
        finish .dec s (withWireCode Config.hw k (decAccept s r r')) = .refused (.wrongPhase .dec) := by
      rw [withWireCode_of_lt hk, hend]
    have hshort : exec (.dShort n) s = exec .dEos s :=
      congrArg (finish .dec s) (if_pos ⟨hn1, Nat.lt_succ_of_le hn3⟩)
    simp only [List.forall_mem_cons]
    exact ⟨hcode _ _, hcode _ _, hcode _ _, hcode _ _, hcode _ _, hend _ _, hshort.trans (hend _ _), by simp⟩

/-! ### The step that reads the cursor of `ENC` (R126, R172) -/

/-- With no move of the host, a stream of `ENC` that is read from its cursor goes on (assumption 4). -/
theorem step_encFed {s : State} (hm : s.moves = []) (hf : s.fed .enc = true) : step s = pollStep .enc s := by
  simp [step, hm, hf]

/-- `ENC` takes the end of its input as `E.EOS` (R126). -/
theorem pollStep_enc_end {s : State} (hf : s.fed .enc = true) (he : s.encPort.ended = false) (hr : s.encPort.reads = [])
    (hi : s.encPort.input = []) :
    pollStep .enc s = exec .eEos (s.setPort .enc { s.encPort with ended := true }) := by
  obtain ⟨hs, hopen⟩ := fed_iff.1 hf
  have hread : callReadByte .enc s = .ok .endOfStream (s.setPort .enc { s.encPort with ended := true }) := by
    rw [callReadByte_nil (u := .enc) hopen he hr hi, ← hr, port_enc]
  have hfetch : fetch Config.hw .enc s = .ok .eEos (s.setPort .enc { s.encPort with ended := true }) := by
    simp only [fetch, hs, if_true, fetchEnc, hread, bind_ok]
  rw [pollStep, hfetch]

/-- Settles O42: a byte decodes to `E.BYTE` of itself, which is what the unit takes from its cursor. -/
theorem aStepOfEncRunsTheDecodedByte : Obligations.AStepOfEncRunsTheDecodedByte := by
  intro s hm hf he hr
  rw [step_encFed hm hf]
  refine ⟨fun c more i hi hd => ?_, pollStep_enc_end hf he hr⟩
  obtain rfl : Instr.eByte c = i := Except.ok.inj hd
  exact pollStep_enc_byte hf he hr hi

end Sys2Proof.Machine
end

section
/-! PROOFS, family 41_encoder: `COMPRESS` as the greedy parse (O52), and what it ends in (O51). The stream is followed byte by
byte: `cur` is the phrase being cut off, and what is left to parse is `cur` and the bytes still to come. -/

namespace Sys2Proof.Machine

/-! ### The reference parse, phrase by phrase (R126) -/

section
variable {t t' : EncTable} {w : Word} {c : Byte} {b : ByteSeq} {k n : Nat} {ks : CodeSeq} (hs : t.Sound)
include hs

theorem EncTable.Sound.ne_nil_of_get (hk : t.get w = some k) : w ≠ [] := by
  rintro rfl
  simp [EncTable.get_eq_none.2 hs.not_has_nil] at hk

/-- The longest known phrase is the known one that its next byte makes unknown: of a longer one all first bytes
would be known too (R36 item 5). -/
theorem longestKnown_of_known (hk : t.get w = some k) (hb : ∀ c ∈ b.head?, t.has (w ++ [c]) = false) (hn : n ≤ b.length) :
    longestKnown t (w ++ b) (w.length + n) = w.length := by
  induction n with
  | zero =>
    obtain ⟨m, hm⟩ := Nat.exists_eq_add_one.2 (List.length_pos_iff.2 (hs.ne_nil_of_get hk))
    have htake : (w ++ b).take (m + 1) = w := by rw [← hm, List.take_left]
    have hlen : m + 1 ≤ (w ++ b).length := by rw [← hm, List.length_append]; exact Nat.le_add_right _ _
    rw [Nat.add_zero, hm, longestKnown, htake, if_pos ⟨hlen, EncTable.has_iff_get.2 ⟨k, hk⟩⟩]
  | succ n ih =>
    obtain ⟨c, r, rfl⟩ := List.exists_cons_of_length_pos (Nat.zero_lt_of_lt hn)
    have hlonger : t.has ((w ++ c :: r).take (w.length + n + 1)) ≠ true := fun h => by
      rw [Nat.add_assoc, List.take_length_add_append, List.take_succ_cons, List.append_cons] at h
      have := hs.has_of_append h (by simp)
      rw [hb c rfl] at this
      cases this
    rw [← Nat.add_assoc, longestKnown, if_neg fun h => hlonger h.2, ih (by omega)]

/-- Nothing is left to parse. -/
theorem greedyParse_nil : greedyParse n t [] = ([], t) := by
  cases n with
  | zero => rfl
  | succ n => simp only [greedyParse, List.take_nil, EncTable.get_eq_none.2 hs.not_has_nil]

/-- What is left is one known phrase: its code is the last. -/
theorem greedyParse_last (hk : t.get w = some k) (hn : w.length ≤ n) : greedyParse n t w = ([k], t) := by
  obtain ⟨m, rfl⟩ := Nat.exists_eq_add_of_le' ((List.length_pos_iff.2 (hs.ne_nil_of_get hk)).trans_le hn)
  have hlong := longestKnown_of_known hs (b := []) (n := 0) hk (by simp) (Nat.le_refl 0)
  rw [List.append_nil, Nat.add_zero] at hlong
  simp only [greedyParse, hlong, List.take_length, hk, if_true]

/-- A known phrase and the byte that makes it unknown: the phrase is cut off, and both together are added. -/
theorem greedyParse_cut (hk : t.get w = some k) (hn : t.has (w ++ [c]) = false)
    (hrest : greedyParse n (t.append (w ++ [c])) (c :: b) = (ks, t')) :
    greedyParse (n + 1) t (w ++ c :: b) = (k :: ks, t') := by
  have hlong : longestKnown t (w ++ c :: b) (w ++ c :: b).length = w.length := by
    rw [List.length_append]
    exact longestKnown_of_known hs hk (by rintro _ ⟨⟩; exact hn) (Nat.le_refl _)
  have hmore : (w ++ c :: b).length ≠ w.length := by simp
  have hword : (w ++ c :: b).take (w.length + 1) = w ++ [c] := by rw [List.take_length_add_append]; rfl
  simp only [greedyParse, hlong, List.take_left, hk, hmore, if_false, hword, List.drop_left, hrest]

end

/-! ### What a stream leaves beside its table (R31, R129, R202) -/

/-- From `e` to `t`, `ENC` consumes `n` bytes and emits `ks`, four bytes a code, into the sink. -/
structure Emits (e t : State) (n : Nat) (ks : CodeSeq) : Prop where
  fault : t.enc.fault = e.enc.fault
  bytesIn : t.enc.bytesIn = e.enc.bytesIn + n
  codesOut : t.enc.codesOut = e.enc.codesOut + ks.length
  port : t.encPort = { e.encPort with sent := e.encPort.sent ++ ks.flatMap leBytes }

theorem Emits.trans {e v t : State} {n m : Nat} {ks js : CodeSeq} (h : Emits e v n ks) (h' : Emits v t m js) :
    Emits e t (n + m) (ks ++ js) where
  fault := h'.fault.trans h.fault
  bytesIn := by rw [h'.bytesIn, h.bytesIn, Nat.add_assoc]
  codesOut := by rw [h'.codesOut, h.codesOut, List.length_append, Nat.add_assoc]
  port := by rw [h'.port, h.port, List.flatMap_append, List.append_assoc]

/-- Where no write will fail, a write only lengthens the sink. -/
theorem wrote_of_writes_nil {p : Port} (h : p.writes = []) (bs : ByteSeq) :
    p.wrote bs = { p with sent := p.sent ++ bs } := by
  simp [Port.wrote, h, nextAnswer]

theorem writeReturns_of_writes_nil {p : Port} (h : p.writes = []) : p.writeReturns := by simp [Port.writeReturns, h, nextAnswer]

section
variable {e t : State} {c : Byte} {k : Nat} (he : EncRuns e)
include he

theorem EncRuns.hit_emits (hc : e.enc.tbl.has (e.enc.cur ++ [c]) = true) (hx : exec (.eByte c) e = .next t) :
    Emits e t 1 [] := by
  obtain rfl := Host.Outcome.next.inj ((exec_eByte_of_has he.run hc).symm.trans hx)
  exact ⟨rfl, rfl, rfl, by simp⟩

theorem EncRuns.miss_emits (hn : e.enc.tbl.has (e.enc.cur ++ [c]) = false) (hk : e.enc.tbl.get e.enc.cur = some k)
    (hlt : k < 2 ^ 32) (hx : exec (.eByte c) e = .next t) : Emits e t 1 [k] := by
  have hmiss := exec_eByte_of_miss he.run (EncTable.get_eq_none.2 hn) hk hlt (writeReturns_of_writes_nil he.writes)
  obtain rfl := Host.Outcome.next.inj (hmiss.symm.trans hx)
  exact ⟨rfl, rfl, rfl, by simp [wrote_of_writes_nil he.writes]⟩

theorem EncRuns.end_emits (hcur : e.enc.cur = []) (hx : exec .eEos e = .next t) : Emits e t 0 [] := by
  obtain rfl := Host.Outcome.next.inj ((exec_eEos_of_nil he.run hcur).symm.trans hx)
  exact ⟨rfl, rfl, rfl, by simp⟩

theorem EncRuns.flush_emits (hk : e.enc.tbl.get e.enc.cur = some k) (hlt : k < 2 ^ 32) (hx : exec .eEos e = .next t) :
    Emits e t 0 [k] := by
  have hflush := exec_eEos_of_flush he.run (he.sound.ne_nil_of_get hk) hk hlt (writeReturns_of_writes_nil he.writes)
  obtain rfl := Host.Outcome.next.inj (hflush.symm.trans hx)
  exact ⟨rfl, rfl, rfl, by simp [wrote_of_writes_nil he.writes]⟩

end

/-! ### The stream as the parse of what is left (R126) -/

/-- From `e`, in a stream with `b` still to come, `ENC` ends in `t` after the codes `ks`, those of the greedy parse of `cur`
and `b`: at most one a byte of what is left, and one at least of something. -/
structure Compresses (e t : State) (b : ByteSeq) (ks : CodeSeq) : Prop extends Encodes e t b ks where
  inv : EncInv t
  done : t.enc.phase = .done
  emits : Emits e t b.length ks
  parse : ∀ n, (e.enc.cur ++ b).length ≤ n → greedyParse n e.enc.tbl (e.enc.cur ++ b) = (ks, t.enc.tbl)
  most : ks.length ≤ (e.enc.cur ++ b).length
  least : e.enc.cur ++ b ≠ [] → 1 ≤ ks.length

section
variable {e e' t : State} {b : ByteSeq} {c : Byte} {k : Nat} {ks : CodeSeq}

/-- The end of the stream: nothing is left, or the one phrase that `cur` is. -/
theorem EncRuns.compresses_nil (he : EncRuns e) (hfit : e.enc.tbl.next ≤ 2 ^ 32) : ∃ t ks, Compresses e t [] ks := by
  obtain ⟨t, hx, hdone, ht, ⟨hcur, ho⟩ | ⟨k, hk, hlt, ho⟩⟩ := he.eos hfit
  all_goals have hinv := encEvent_encInv (.inr (.inl rfl)) he.inv hx
  · exact ⟨t, [], { encodes_nil (ks := []) he hx hdone ht ho with
      inv := hinv, done := hdone, emits := he.end_emits hcur hx
      parse := fun n _ => by rw [hcur, ht]; exact greedyParse_nil he.sound
      most := Nat.zero_le _
      least := fun h => absurd hcur (by simpa using h) }⟩
  · exact ⟨t, [k], { encodes_nil (ks := [k]) he hx hdone ht ho with
      inv := hinv, done := hdone, emits := he.flush_emits hk hlt hx
      parse := fun n hn => by rw [List.append_nil] at hn ⊢; rw [ht]; exact greedyParse_last he.sound hk hn
      most := by rw [List.append_nil]; exact List.length_pos_iff.2 (he.sound.ne_nil_of_get hk)
      least := fun _ => Nat.le_refl 1 }⟩

/-- A hit moves a byte from what is to come into `cur`: what is left to parse stays. -/
theorem Compresses.hit (h : Compresses e' t b ks) (hx : exec (.eByte c) e = .next e') (he : EncRuns e) (he' : EncRuns e')
    (hc : e.enc.tbl.has (e.enc.cur ++ [c]) = true) (ht : e'.enc.tbl = e.enc.tbl)
    (hcur : e'.enc.cur = e.enc.cur ++ [c]) (ho : e'.outputs = []) : Compresses e t (c :: b) ks := by
  have hleft : e'.enc.cur ++ b = e.enc.cur ++ c :: b := by rw [hcur, List.append_assoc]; rfl
  have hemits := (he.hit_emits hc hx).trans h.emits
  exact { h.toEncodes.cons (ks0 := []) hx he'.run ho fun w n hw => ht ▸ hw with
    inv := h.inv, done := h.done
    emits := by rwa [Nat.add_comm] at hemits
    parse := by rw [← hleft, ← ht]; exact h.parse
    most := hleft ▸ h.most, least := hleft ▸ h.least }

/-- A miss cuts `cur` off what is left to parse (R123). -/
theorem Compresses.miss (h : Compresses e' t b ks) (hx : exec (.eByte c) e = .next e') (he : EncRuns e) (he' : EncRuns e')
    (hk : e.enc.tbl.get e.enc.cur = some k) (hlt : k < 2 ^ 32) (hn : e.enc.tbl.has (e.enc.cur ++ [c]) = false)
    (ht : e'.enc.tbl = e.enc.tbl.append (e.enc.cur ++ [c])) (hcur : e'.enc.cur = [c]) (ho : e'.outputs = [.code k]) :
    Compresses e t (c :: b) (k :: ks) := by
  have hpos : 0 < e.enc.cur.length := List.length_pos_iff.2 (he.sound.cur_ne_nil hn)
  have hmost := h.most
  have hparse := h.parse
  have hemits := (he.miss_emits hn hk hlt hx).trans h.emits
  rw [hcur, ht, List.singleton_append] at hparse
  rw [hcur, List.singleton_append, List.length_cons] at hmost
  exact { h.toEncodes.cons (ks0 := [k]) hx he'.run ho fun w n hw => ht ▸ EncTable.get_append_of_has hw with
    inv := h.inv, done := h.done
    emits := by rwa [Nat.add_comm] at hemits
    parse := fun n hlen => by
      rw [List.length_append, List.length_cons] at hlen
      obtain ⟨m, rfl⟩ := Nat.exists_eq_add_of_le' (hpos.trans_le ((Nat.le_add_right _ _).trans hlen))
      exact greedyParse_cut he.sound hk hn (hparse m (by rw [List.length_cons]; omega))
    most := by rw [List.length_append, List.length_cons, List.length_cons]; omega
    least := fun _ => Nat.le_add_left 1 _ }

end

/-- From any point of a stream whose codes all fit, `ENC` goes on as the parse does. By induction on the bytes to come. -/
theorem EncRuns.compresses {e : State} (he : EncRuns e) (b : ByteSeq) (hfit : e.enc.tbl.next + b.length ≤ 2 ^ 32) :
    ∃ t ks, Compresses e t b ks := by
  induction b generalizing e with
  | nil => exact he.compresses_nil hfit
  | cons c b ih =>
    rw [List.length_cons] at hfit
    cases hc : e.enc.tbl.has (e.enc.cur ++ [c]) with
    | true =>
      obtain ⟨e', hx, he', ht, hcur, ho⟩ := he.hit hc
      obtain ⟨t, ks, h⟩ := ih he' (by rw [ht]; omega)
      exact ⟨t, ks, h.hit hx he he' hc ht hcur ho⟩
    | false =>
      obtain ⟨k, e', hk, hlt, hx, he', ht, hcur, ho⟩ := he.miss hc (by omega)
      obtain ⟨t, ks, h⟩ := ih he' (by rw [ht, EncTable.append_next]; omega)
      exact ⟨t, k :: ks, h.miss hx he he' hk hlt hc ht hcur ho⟩

/-- `COMPRESS` of a stream whose codes all fit, from the state its start leaves. -/
theorem exec_compress_compresses {s : State} {b : ByteSeq} (hw : s.encPort.writes = []) (hlen : b.length ≤ 2 ^ 32 - 256) :
    ∃ t ks, exec (.compress b) s = .next (t.setOutputs (ks.map .code)) ∧
      Compresses ((encBegin Config.hw s).setOutputs []) t b ks := by
  have he : EncRuns ((encBegin Config.hw s).setOutputs []) := ⟨EncInv.encBegin.setOutputs [], rfl, hw⟩
  obtain ⟨t, ks, h⟩ := he.compresses b (by simp; omega)
  exact ⟨t, ks, (exec_compress_eq s b).trans (h.run []), h⟩

/-- Settles O52: after the start nothing is in `cur`, and what is left to parse is the input. -/
theorem compressIsTheGreedyParse : Obligations.CompressIsTheGreedyParse := by
  intro s b hw hlen
  obtain ⟨t, ks, hx, h⟩ := exec_compress_compresses hw hlen
  have hparse : greedyParse b.length (EncTable.literals Config.hw) b = (ks, t.enc.tbl) := h.parse b.length (Nat.le_refl _)
  exact ⟨_, hx, by rw [hparse]; rfl, by rw [hparse]; rfl⟩

/-- Settles O51: the counts of the stream from its start, and the invariant of `ENC`, which counts the rows. -/
theorem compressEndsInDone : Obligations.CompressEndsInDone := by
  intro s b hw hlen
  obtain ⟨t, ks, hx, h⟩ := exec_compress_compresses hw hlen
  obtain ⟨hfault, hbytes, hcodes, hport⟩ := h.emits
  have hbytesIn : t.enc.bytesIn = b.length := hbytes.trans (Nat.zero_add _)
  have hcodesOut : t.enc.codesOut = ks.length := hcodes.trans (Nat.zero_add _)
  have hnext : t.enc.tbl.next = 256 + (ks.length - 1) := hcodesOut ▸ h.inv.flushed h.done
  have hmost : ks.length ≤ b.length := h.most
  refine ⟨_, ks, hx, rfl, h.done, hfault, hbytesIn, hcodesOut, ?_, fun hb => ⟨hnext, h.least hb, hmost⟩, hport,
    exec_frame_of_isEncOp rfl hx⟩
  rintro rfl
  obtain rfl : ks = [] := List.length_eq_zero_iff.1 (Nat.le_zero.1 hmost)
  exact ⟨rfl, hnext⟩

end Sys2Proof.Machine
end

section
/-! PROOFS, family 41_encoder: the transfers of control of the two units (O29): what an event, an operation issued directly
and a composite do to the phases. -/

namespace Sys2Proof.Machine

/-! ### A step and the phases (R29) -/

/-- Both units are in the phases they were in. -/
structure PhasesKept (s t : State) : Prop where
  enc : t.enc.phase = s.enc.phase
  dec : t.dec.phase = s.dec.phase

theorem PhasesKept.refl (s : State) : PhasesKept s s := ⟨rfl, rfl⟩

theorem phasesKept_setPort (s : State) (u : UnitId) (p : Port) : PhasesKept s (s.setPort u p) :=
  ⟨by rw [setPort_enc], by rw [setPort_dec]⟩

theorem streaming_enc_iff {s : State} : s.streaming .enc = true ↔ s.enc.phase = .run := decide_eq_true_iff

theorem streaming_dec_iff {s : State} : s.streaming .dec = true ↔ s.dec.phase = .first ∨ s.dec.phase = .run := by
  simp [State.streaming]

/-- Statements that keep the phases make a step that keeps them, or that takes its unit out of a stream by a fault. -/
theorem finish_phases {u : UnitId} {s t : State} {r : Res (List Output)} (hr : ∀ o v, r = .ok o v → PhasesKept s v)
    (h : finish u s r = .next t) : PhasesKept s t ∨ (s.streaming u = true ∧ t.faulted u = true) := by
  obtain ⟨o, v, hv, rfl⟩ | ⟨c, v, -, hs, rfl⟩ := finish_cases h
  · obtain ⟨he, hd⟩ := hr o v hv
    exact .inl ⟨he, hd⟩
  · exact .inr ⟨hs, enterFault_faulted c s v u⟩

/-! ### The events (R130, R157) -/

section
variable {s t : State}

theorem eByte_phases {c : Byte} (h : exec (.eByte c) s = .next t) :
    s.enc.phase = .run ∧ (t.enc.phase = .run ∨ t.enc.phase = .fault) := by
  obtain ⟨o, v, hv, rfl⟩ | ⟨e, v, -, hs, rfl⟩ := finish_cases h
  · obtain ⟨hp, hrun⟩ := encByte_ok_phase hv
    exact ⟨hp, .inl hrun⟩
  · exact ⟨streaming_enc_iff.1 hs, .inr rfl⟩

theorem eEos_phases (h : exec .eEos s = .next t) :
    s.enc.phase = .run ∧ (t.enc.phase = .done ∨ t.enc.phase = .fault) := by
  obtain ⟨o, v, hv, rfl⟩ | ⟨e, v, -, hs, rfl⟩ := finish_cases h
  · obtain ⟨hp, hdone⟩ := encEos_ok_phase hv
    exact ⟨hp, .inl hdone⟩
  · exact ⟨streaming_enc_iff.1 hs, .inr rfl⟩

/-- A code that completes leads to `RUN` and leaves the input to the cursor. -/
theorem decCode_ok_phase {k : Nat} {v : State} {o : List Output} (h : decCode Config.hw k s = .ok o v) :
    (s.dec.phase = .first ∨ s.dec.phase = .run) ∧ v.dec.phase = .run ∧ v.decPort.input = s.decPort.input := by
  obtain ⟨-, ⟨hp, hf⟩ | ⟨hp, hr⟩⟩ := decCode_ok h
  · obtain ⟨_, -, -, -, rfl⟩ := decFirst_ok hf
    exact ⟨.inl hp, rfl, rfl⟩
  · obtain ⟨_, _, -, -, -, -, -, -, rfl⟩ := decRun_ok lookahead_hw hr
    exact ⟨.inr hp, hp, rfl⟩

theorem dCode_phases {k : Nat} (h : exec (.dCode k) s = .next t) :
    (s.dec.phase = .first ∨ s.dec.phase = .run) ∧ (t.dec.phase = .run ∨ t.dec.phase = .fault) := by
  obtain ⟨o, v, hv, rfl⟩ | ⟨e, v, -, hs, rfl⟩ := finish_cases h
  · obtain ⟨hp, hrun, -⟩ := decCode_ok_phase hv
    exact ⟨hp, .inl hrun⟩
  · exact ⟨streaming_dec_iff.1 hs, .inr rfl⟩

theorem dEos_phases (h : exec .dEos s = .next t) : (s.dec.phase = .first ∧ t.dec.phase = .done) ∨
    (s.dec.phase = .run ∧ (t.dec.phase = .done ∨ t.dec.phase = .fault)) := by
  obtain ⟨o, v, hv, rfl⟩ | ⟨e, v, hv, -, rfl⟩ := finish_cases h
  · obtain ⟨hp, -, rfl⟩ | ⟨hp, -, -, rfl⟩ := decEos_ok hv
    · exact .inl ⟨hp, rfl⟩
    · exact .inr ⟨hp, .inl rfl⟩
  · exact .inr ⟨decEos_raise hv, .inr rfl⟩

/-- A fragment that is taken is the end of the stream (R148). -/
theorem dEos_of_dShort {n : Nat} (h : exec (.dShort n) s = .next t) : exec .dEos s = .next t := by
  refine finish_next_of_or_refuse ?_ h
  unfold decShort
  split_ifs <;> simp

/-- The rows of `RUN` are taken in `RUN` alone (R84, R89). -/
theorem run_of_decRunCase {cl : CodeClass} {k : Nat} (h : finish .dec s (decRunCase Config.hw cl k s) = .next t) :
    s.dec.phase = .run := by
  cases hs : s.dec.phase with
  | run => rfl
  | idle | first | done | fault =>
    simp only [decRunCase, withWireCode, decAccept, hs] at h
    split_ifs at h <;> cases h

end

/-! ### The operations issued directly (R100 to R108, R170 to R175) -/

/-- The operations that are neither an event of a unit nor a composite. -/
def isDirect : Instr → Bool
  | .tInit _ | .tContains _ | .tLookupW _ | .tLookupC _ | .tAddW _ | .tAddC _ => true
  | .pack _ | .unpack _ | .readByte _ | .writeBytes _ _ | .readCode => true
  | _ => false

/-! An operation that carries its unit belongs to it (assumption 5). -/

theorem unitOf_tInit (u : UnitId) : unitOf (.tInit u) = u := by cases u <;> rfl

theorem unitOf_readByte (u : UnitId) : unitOf (.readByte u) = u := by cases u <;> rfl

theorem unitOf_writeBytes (u : UnitId) (bs : ByteSeq) : unitOf (.writeBytes u bs) = u := by cases u <;> rfl

/-- A directly issued table operation that reads, or makes one addition. -/
theorem tableOp_phases {u : UnitId} {α : Type} {s t : State} {r : Res α} {o : α → List Output}
    (hr : ∀ a v, r = .ok a v → PhasesKept s v)
    (h : finish u s (withTable u s (r.bind fun a v => .ok (o a) v)) = .next t) :
    PhasesKept s t ∨ (s.streaming u = true ∧ t.faulted u = true) := by
  refine finish_phases (fun _ v hv => ?_) h
  obtain ⟨a, v', ha, he⟩ := bind_eq_ok (withTable_ok hv).2
  cases he
  exact hr a v ha

/-- None of them changes a phase, but by a fault of its unit that ends a stream (R29, R130, R157). -/
theorem exec_direct_phases {i : Instr} {s t : State} (hi : isDirect i = true) (h : exec i s = .next t) :
    PhasesKept s t ∨ (s.streaming (unitOf i) = true ∧ t.faulted (unitOf i) = true) := by
  cases i with
  | tInit u =>
    rw [unitOf_tInit]
    refine finish_phases (fun o v hv => ?_) h
    cases (betweenStreams_ok hv).2.2
    cases u <;> exact ⟨rfl, rfl⟩
  | tContains w =>
    refine finish_phases (fun o v hv => ?_) h
    cases (withTable_ok hv).2
    exact .refl s
  | tLookupW w => exact tableOp_phases (fun _ _ ha => (tblLookupW_ok ha).2 ▸ .refl s) h
  | tLookupC k => exact tableOp_phases (fun _ _ ha => (tblLookupC_ok ha).2.2 ▸ .refl s) h
  | tAddW w =>
    refine tableOp_phases (fun _ v ha => ?_) h
    obtain ⟨-, -, -, rfl⟩ := tblAddW_ok ha
    exact ⟨rfl, rfl⟩
  | tAddC w =>
    refine tableOp_phases (fun _ v ha => ?_) h
    obtain ⟨-, -, rfl⟩ := tblAddC_ok ha
    exact ⟨rfl, rfl⟩
  | pack k =>
    refine finish_phases (fun o v hv => ?_) h
    split at hv <;> cases hv
    exact .refl s
  | unpack f =>
    refine finish_phases (fun o v hv => ?_) h
    split_ifs at hv
    cases hv
    exact .refl s
  | readByte u =>
    rw [unitOf_readByte]
    refine finish_phases (fun o v hv => ?_) h
    obtain ⟨a, v', ha, he⟩ := bind_eq_ok (withStream_ok hv).2
    obtain ⟨-, p, rfl, -⟩ := callReadByte_ok ha
    cases a <;> cases he <;> exact phasesKept_setPort s u p
  | writeBytes u bs =>
    rw [unitOf_writeBytes]
    refine finish_phases (fun o v hv => ?_) h
    obtain ⟨a, v', ha, he⟩ := bind_eq_ok (withStream_ok hv).2
    obtain ⟨-, rfl⟩ := callWriteBytes_ok ha
    cases he
    exact phasesKept_setPort s u _
  | readCode =>
    refine finish_phases (fun o v hv => ?_) h
    obtain ⟨a, v', ha, he⟩ := bind_eq_ok (withStream_ok hv).2
    obtain ⟨p, rfl, -⟩ := readField_ok ha
    cases a <;> cases he <;> exact phasesKept_setPort s .dec p
  | _ => cases hi

/-! ### The composites (R91) -/

/-- A composite ends as its last step does, or at a fault before it. -/
theorem runSteps_ends {u : UnitId} {P : State → Prop} (ho : ∀ v o, P v → P (v.setOutputs o))
    (hfault : ∀ v, v.faulted u = true → P v) {f : State → Out} (hlast : ∀ v w, f v = .next w → P w)
    {l : List (State → Out)} {acc : List Output} {s t : State} (h : runSteps u (l ++ [f]) acc s = .next t) : P t := by
  induction l generalizing acc s with
  | nil =>
    simp only [List.nil_append, runSteps] at h
    split at h
    · next v hv =>
      split_ifs at h with hf
      · obtain rfl := Host.Outcome.next.inj h
        exact hfault _ hf
      · obtain rfl := Host.Outcome.next.inj h
        exact ho _ _ (hlast _ _ hv)
    · cases h
    · cases h
  | cons g l ih =>
    simp only [List.cons_append, runSteps] at h
    split at h
    · next v hv =>
      split_ifs at h with hf
      · obtain rfl := Host.Outcome.next.inj h
        exact hfault _ hf
      · exact ih h
    · cases h
    · cases h

/-- The run of `ENC` is over (R41). -/
def EncOver (t : State) : Prop := t.enc.phase = .done ∨ t.enc.phase = .fault

/-- The run of `DEC` is over (R41). -/
def DecOver (t : State) : Prop := t.dec.phase = .done ∨ t.dec.phase = .fault

section
variable {s t : State} {b bs : ByteSeq} {ks : CodeSeq}

theorem EncOver.of_faulted (h : t.faulted .enc = true) : EncOver t := .inr (of_decide_eq_true h)

theorem DecOver.of_faulted (h : t.faulted .dec = true) : DecOver t := .inr (of_decide_eq_true h)

theorem decOver_of_dEos (h : exec .dEos s = .next t) : DecOver t := by
  obtain ⟨-, hdone⟩ | ⟨-, hover⟩ := dEos_phases h
  · exact .inl hdone
  · exact hover

theorem compress_over (h : exec (.compress b) s = .next t) : EncOver t :=
  runSteps_ends (P := EncOver) (fun _ _ => id) (fun _ => .of_faulted) (fun _ _ hx => (eEos_phases hx).2)
    (l := eStartStep Config.hw :: b.map (eByteStep Config.hw)) h

theorem compressBytes_over (h : exec (.compressBytes b) s = .next t) : EncOver t := by
  obtain ⟨v, hv, ht⟩ := compressBytes_cases h
  have hover : EncOver v := compress_over hv
  obtain rfl | ⟨o, rfl⟩ := ht <;> exact hover

theorem decompress_over (h : exec (.decompress ks) s = .next t) : DecOver t :=
  runSteps_ends (P := DecOver) (fun _ _ => id) (fun _ => .of_faulted) (fun _ _ => decOver_of_dEos)
    (l := dStartStep Config.hw :: ks.map (dCodeStep Config.hw)) h

/-! A stream of `DEC` that is read from its cursor ends within one step for each byte, and one for the end: every code it
reads shortens the input. -/

/-- A byte that is read was the first of the input (R172). -/
theorem callReadByte_byte {u : UnitId} {c : Byte} (h : callReadByte u s = .ok (.byte c) t) :
    (s.port u).input = c :: (t.port u).input := by
  unfold callReadByte at h
  split_ifs at h
  split at h
  · cases h
  · cases h
  · split at h <;> cases h
    next hi => rw [hi, setPort_port]

/-- A code that is read takes as many bytes from the input as were missing (R175). -/
theorem readField_code_input {cfg : Config} {m k : Nat} {f : ByteSeq} (h : readField cfg m f s = .ok (.code k) t) :
    t.decPort.input.length + m = s.decPort.input.length := by
  induction m generalizing f s with
  | zero => cases h; rfl
  | succ m ih =>
    obtain ⟨a, v, ha, hk⟩ := bind_eq_ok h
    cases a with
    | endOfStream => by_cases hf : f = [] <;> simp [hf] at hk
    | byte c =>
      have hbyte : s.decPort.input = c :: v.decPort.input := callReadByte_byte ha
      rw [hbyte, List.length_cons, ← ih hk, Nat.add_assoc]

/-- The event `DEC` takes from its cursor: a code, which shortens the input, or the end of the stream. -/
theorem fetchDec_ok_input {i : Instr} (h : fetchDec Config.hw s = .ok i t) :
    (∃ k, i = .dCode k ∧ t.decPort.input.length < s.decPort.input.length) ∨ i = .dEos ∨ ∃ n, i = .dShort n := by
  obtain ⟨a, v, ha, hi⟩ := bind_eq_ok h
  cases a with
  | code k =>
    cases hi
    have hlen := readField_code_input ha
    exact .inl ⟨k, rfl, hlen ▸ Nat.lt_add_of_pos_right (by decide)⟩
  | endOfStream => cases hi; exact .inr (.inl rfl)
  | short n => cases hi; exact .inr (.inr ⟨n, rfl⟩)

theorem pumpDec_over_or_shorter (h : pumpDec Config.hw s = .next t) :
    DecOver t ∨ t.decPort.input.length < s.decPort.input.length := by
  obtain ⟨i, v, hi, -, hx⟩ | ⟨c, v, -, rfl⟩ := pumpDec_next h
  · obtain ⟨k, rfl, hlen⟩ | rfl | ⟨n, rfl⟩ := fetchDec_ok_input hi
    · obtain ⟨o, w, hw, rfl⟩ | ⟨c, w, -, -, rfl⟩ := finish_cases hx
      · right
        rwa [setOutputs_decPort, (decCode_ok_phase hw).2.2]
      · exact .inl (.inr rfl)
    · exact .inl (decOver_of_dEos hx)
    · exact .inl (decOver_of_dEos (dEos_of_dShort hx))
  · exact .inl (.inr rfl)

theorem pumpDecAll_over {n : Nat} {acc : List Output} (hn : s.decPort.input.length < n)
    (h : pumpDecAll Config.hw n acc s = .next t) : DecOver t := by
  induction n generalizing acc s with
  | zero => exact absurd hn (Nat.not_lt_zero _)
  | succ n ih =>
    simp only [pumpDecAll] at h
    split at h
    · next v hv =>
      split_ifs at h with hf hdone
      · obtain rfl := Host.Outcome.next.inj h
        exact .of_faulted hf
      · obtain rfl := Host.Outcome.next.inj h
        exact .inl hdone
      · obtain hover | hlen := pumpDec_over_or_shorter hv
        · exact absurd hover (not_or.2 ⟨hdone, fun hp => hf (decide_eq_true hp)⟩)
        · exact ih (by omega) h
    · cases h
    · cases h

theorem decompressBytes_over (h : exec (.decompressBytes bs) s = .next t) : DecOver t :=
  pumpDecAll_over (Nat.lt_succ_self _) h

end

/-! ### Every operation -/

/-- How an operation changes the phase of its unit `ENC`, if it does (R130). -/
def EncTransfer (i : Instr) (s t : State) : Prop :=
  t.enc.phase = s.enc.phase ∨ (i = .eStart ∧ t.enc.phase = .run) ∨
  (i = .eEos ∧ s.enc.phase = .run ∧ t.enc.phase = .done) ∨ ((∃ b, i = .compress b ∨ i = .compressBytes b) ∧ EncOver t) ∨
  (isEncOp i = true ∧ s.enc.phase = .run ∧ t.enc.phase = .fault)

/-- How an operation changes the phase of its unit `DEC`, if it does (R157). -/
def DecTransfer (i : Instr) (s t : State) : Prop :=
  t.dec.phase = s.dec.phase ∨ (i = .dStart ∧ t.dec.phase = .first) ∨
  ((∃ k, i = .dCode k ∨ i = .dCodeFirst k) ∧ s.dec.phase = .first ∧ t.dec.phase = .run) ∨
  ((i = .dEos ∨ ∃ n, i = .dShort n) ∧ s.streaming .dec = true ∧ t.dec.phase = .done) ∨
  (((∃ ks, i = .decompress ks) ∨ ∃ bs, i = .decompressBytes bs) ∧ DecOver t) ∨
  (isDecOp i = true ∧ s.streaming .dec = true ∧ t.dec.phase = .fault)

section
variable {i : Instr} {s t : State}

theorem EncTransfer.kept (h : t.enc.phase = s.enc.phase) : EncTransfer i s t := .inl h

theorem EncTransfer.fault (hi : isEncOp i = true) (hs : s.enc.phase = .run) (ht : t.enc.phase = .fault) :
    EncTransfer i s t :=
  .inr (.inr (.inr (.inr ⟨hi, hs, ht⟩)))

theorem EncTransfer.composite (hi : ∃ b, i = .compress b ∨ i = .compressBytes b) (h : EncOver t) : EncTransfer i s t :=
  .inr (.inr (.inr (.inl ⟨hi, h⟩)))

theorem DecTransfer.kept (h : t.dec.phase = s.dec.phase) : DecTransfer i s t := .inl h

theorem DecTransfer.fault (hi : isDecOp i = true) (hs : s.streaming .dec = true) (ht : t.dec.phase = .fault) :
    DecTransfer i s t :=
  .inr (.inr (.inr (.inr (.inr ⟨hi, hs, ht⟩))))

theorem DecTransfer.composite (hi : (∃ ks, i = .decompress ks) ∨ ∃ bs, i = .decompressBytes bs) (h : DecOver t) :
    DecTransfer i s t :=
  .inr (.inr (.inr (.inr (.inl ⟨hi, h⟩))))

theorem encTransfer_of_direct (hi : isEncOp i = true) (hd : isDirect i = true) (h : exec i s = .next t) :
    EncTransfer i s t := by
  obtain hkept | ⟨hs, ht⟩ := exec_direct_phases hd h
  · exact .kept hkept.enc
  · rw [unitOf_of_isEncOp hi] at hs ht
    exact .fault hi (streaming_enc_iff.1 hs) (of_decide_eq_true ht)

theorem decTransfer_of_direct (hi : isDecOp i = true) (hd : isDirect i = true) (h : exec i s = .next t) :
    DecTransfer i s t := by
  obtain hkept | ⟨hs, ht⟩ := exec_direct_phases hd h
  · exact .kept hkept.dec
  · rw [unitOf_of_isDecOp hi] at hs ht
    exact .fault hi hs (of_decide_eq_true ht)

theorem encTransfer_of_eByte {c : Byte} (hi : isEncOp i = true) (h : exec (.eByte c) s = .next t) :
    EncTransfer i s t := by
  obtain ⟨hs, hrun | hfault⟩ := eByte_phases h
  · exact .kept (hrun.trans hs.symm)
  · exact .fault hi hs hfault

/-- In `RUN` a code stays in `RUN` or faults. -/
theorem decTransfer_of_dCode_run {k : Nat} (hi : isDecOp i = true) (hs : s.dec.phase = .run)
    (h : exec (.dCode k) s = .next t) : DecTransfer i s t := by
  obtain ⟨-, hrun | hfault⟩ := dCode_phases h
  · exact .kept (hrun.trans hs.symm)
  · exact .fault hi (streaming_dec_iff.2 (.inr hs)) hfault

/-- In `FIRST` the event, and its row of that phase, lead to `RUN` or fault. -/
theorem decTransfer_of_dCode {k : Nat} (hi : i = .dCode k ∨ i = .dCodeFirst k) (h : exec (.dCode k) s = .next t) :
    DecTransfer i s t := by
  have hop : isDecOp i = true := by obtain rfl | rfl := hi <;> rfl
  obtain ⟨hs | hs, ht⟩ := dCode_phases h
  · obtain hrun | hfault := ht
    · exact .inr (.inr (.inl ⟨⟨k, hi⟩, hs, hrun⟩))
    · exact .fault hop (streaming_dec_iff.2 (.inl hs)) hfault
  · exact decTransfer_of_dCode_run hop hs h

theorem decTransfer_of_dEos (hi : i = .dEos ∨ ∃ n, i = .dShort n) (h : exec .dEos s = .next t) :
    DecTransfer i s t := by
  have hop : isDecOp i = true := by obtain rfl | ⟨n, rfl⟩ := hi <;> rfl
  obtain ⟨hs, hdone⟩ | ⟨hs, hdone | hfault⟩ := dEos_phases h
  · exact .inr (.inr (.inr (.inl ⟨hi, streaming_dec_iff.2 (.inl hs), hdone⟩)))
  · exact .inr (.inr (.inr (.inl ⟨hi, streaming_dec_iff.2 (.inr hs), hdone⟩)))
  · exact .fault hop (streaming_dec_iff.2 (.inr hs)) hfault

/-- Every operation of `ENC` transfers control as R130 says. -/
theorem encOp_transfer (hi : isEncOp i = true) (h : exec i s = .next t) : EncTransfer i s t := by
  cases i with
  | tInit | tContains | tLookupW | tAddW | pack | readByte | writeBytes => exact encTransfer_of_direct hi rfl h
  | eStart => cases h; exact .inr (.inl ⟨rfl, rfl⟩)
  | eByte c | eByteHit c | eByteMiss c => exact encTransfer_of_eByte hi (exec_event h)
  | eEos =>
    obtain ⟨hs, hdone | hfault⟩ := eEos_phases h
    · exact .inr (.inr (.inl ⟨rfl, hs, hdone⟩))
    · exact .fault rfl hs hfault
  | compress b => exact .composite ⟨b, .inl rfl⟩ (compress_over h)
  | compressBytes b => exact .composite ⟨b, .inr rfl⟩ (compressBytes_over h)
  | _ => cases hi

/-- Every operation of `DEC` transfers control as R157 says. -/
theorem decOp_transfer (hi : isDecOp i = true) (h : exec i s = .next t) : DecTransfer i s t := by
  cases i with
  | tInit | tLookupC | tAddC | unpack | readByte | writeBytes | readCode => exact decTransfer_of_direct hi rfl h
  | dStart => cases h; exact .inr (.inl ⟨rfl, rfl⟩)
  | dCode k => exact decTransfer_of_dCode (.inl rfl) h
  | dCodeFirst k => exact decTransfer_of_dCode (.inr rfl) (exec_event h)
  | dCodeRes k | dCodeKwk k | dCodeBad k => exact decTransfer_of_dCode_run rfl (run_of_decRunCase h) (exec_event h)
  | dEos => exact decTransfer_of_dEos (.inl rfl) h
  | dShort n => exact decTransfer_of_dEos (.inr ⟨n, rfl⟩) (dEos_of_dShort h)
  | decompress ks => exact .composite (.inl ⟨ks, rfl⟩) (decompress_over h)
  | decompressBytes bs => exact .composite (.inr ⟨bs, rfl⟩) (decompressBytes_over h)
  | _ => cases hi

/-- An operation transfers control of its own unit and leaves the other one in its phase (R20). -/
theorem exec_transfer (h : exec i s = .next t) : EncTransfer i s t ∧ DecTransfer i s t := by
  obtain hi | hi := isEncOp_or_isDecOp i
  · obtain ⟨hdec, -⟩ := exec_frame_of_isEncOp hi h
    exact ⟨encOp_transfer hi h, .kept (by rw [hdec])⟩
  · obtain ⟨henc, -⟩ := exec_frame_of_isDecOp hi h
    exact ⟨.kept (by rw [henc]), decOp_transfer hi h⟩

end

/-- Settles O29: the events one by one, and every operation by the unit it belongs to. -/
theorem theOnlyTransfersOfControl : Obligations.TheOnlyTransfersOfControl := by
  intro s t
  refine ⟨?eStart, fun _ => eByte_phases, eEos_phases, ?dStart, fun _ => dCode_phases, fun n => ?ends,
    fun _ => exec_transfer⟩
  case eStart => rintro ⟨⟩; rfl
  case dStart => rintro ⟨⟩; rfl
  case ends =>
    simp only [List.forall_mem_cons]
    exact ⟨dEos_phases, fun h => dEos_phases (dEos_of_dShort h), by simp⟩

end Sys2Proof.Machine
end

section
/-! PROOFS, family 42_decoder: the events of `DEC` one by one (O19 to O27), and the step that reads `DEC`'s cursor (O43). One
equation for each way an event goes, and the fault where it goes none. -/

namespace Sys2Proof.Machine

/-! ### The start (R140) -/

/-- Settles O19: the start writes every register of `DEC` that a stream reads, so that a second one finds what it would
leave. -/
theorem dStartDiscardsAllEarlierState : Obligations.DStartDiscardsAllEarlierState := by
  intro s
  refine ⟨(decBegin Config.hw s).setOutputs [], rfl, fun k w => DecTable.literals_get_iff w k, rfl, rfl,
    DecTable.literals_length, rfl, rfl, rfl, rfl, rfl, ?_⟩
  exact congrArg Host.Outcome.next (by rw [decBegin_setOutputs, decBegin_decBegin, setOutputs_setOutputs])

/-! ### The emission of a word (R149) -/

section
variable {s : State} {w : Word} {e : ErrVal}

/-- `emit_word`, when the write returns. -/
theorem emitWord_eq_ok (hne : w ≠ []) (hw : s.decPort.writeReturns) : emitWord w s =
    .ok () ((s.setPort .dec (s.decPort.wrote w)).setDec { s.dec with bytesOut := s.dec.bytesOut + w.length }) := by
  have hwrite : callWriteBytes .dec w s = .ok () (s.setPort .dec (s.decPort.wrote w)) := callWriteBytes_returns hne hw
  simp only [emitWord, hwrite, bind_ok, setPort_dec]

/-- `emit_word`, when the write fails: only the oracle has moved (R176). -/
theorem emitWord_eq_raise (hne : w ≠ []) (hw : (nextAnswer s.decPort.writes).1 = .fails e) : emitWord w s =
    .raise (.ioError e) (s.setPort .dec { s.decPort with writes := (nextAnswer s.decPort.writes).2 }) := by
  have hwrite : callWriteBytes .dec w s = _ := callWriteBytes_fails hne hw
  simp only [emitWord, hwrite, bind_raise, port_dec]

end

/-! ### A cause raised by an event of `DEC` (R202) -/

/-- A raise of an event that has left the earlier output and the input alone is the fault of R202. -/
theorem dec_event_fault {s v : State} (c : Cause) (hs : s.streaming .dec = true) (hpast : v.decPort.past = s.decPort.past)
    (hinput : v.decPort.input = s.decPort.input) :
    ∃ t, finish .dec s (.raise c v) = .next t ∧ DecFaulted c s t ∧ t.decPort.input = s.decPort.input :=
  ⟨_, finish_raise v .dec c hs, ⟨rfl, by simp, by simp, by simp, by simp, hpast⟩, hinput⟩

theorem streaming_of_first {s : State} (hp : s.dec.phase = .first) : s.streaming .dec = true :=
  streaming_dec_iff.2 (.inl hp)

theorem streaming_of_decRun {s : State} (hp : s.dec.phase = .run) : s.streaming .dec = true :=
  streaming_dec_iff.2 (.inr hp)

/-! ### The first code (R142) -/

section
variable {s : State} {k : Nat} {w : Word} (hp : s.dec.phase = .first) (hfit : k < 2 ^ 32)
include hp hfit

/-- In `FIRST` a present code becomes `cw`, and nothing is emitted or added. -/
theorem exec_dCode_of_firstLegal (hk : k < s.dec.tbl.next) (hw : s.dec.tbl.get k = some w) :
    exec (.dCode k) s = .next { s with
      dec := { s.dec with cw := w, phase := .run, codesIn := s.dec.codesIn + 1 }, outputs := [] } := by
  obtain ⟨o, v, hv⟩ := decFirst_completes hk hw
  rw [exec_dCode_of_first hp hfit, hv, finish_ok]
  obtain ⟨w', -, hw', rfl, rfl⟩ := decFirst_ok hv
  obtain rfl : w = w' := Option.some.inj (hw.symm.trans hw')
  rfl

/-- In `FIRST` any other code is a fault, before anything is written. -/
theorem exec_dCode_of_firstIllegal (hk : s.dec.tbl.next ≤ k) :
    ∃ t, exec (.dCode k) s = .next t ∧ DecFaulted (.decodeError (.code k)) s t ∧ t.decPort.input = s.decPort.input := by
  have hraise : decFirst k s = .raise (.decodeError (.code k)) s := if_neg (by simpa [firstLegal] using hk)
  rw [exec_dCode_of_first hp hfit, hraise]
  exact dec_event_fault _ (streaming_of_first hp) rfl rfl

end

/-- Settles O20: below 256 the code is that of a literal, and from 256 on no first code is legal; the row is its event in
`FIRST`. -/
theorem dCodeFirstTakesALiteralOnly : Obligations.DCodeFirstTakesALiteralOnly := by
  intro s k hp ht i hi
  have hevent (hfit : k < 2 ^ 32) : exec i s = exec (.dCode k) s := by
    obtain rfl | rfl := List.mem_pair.1 hi
    · rfl
    · exact exec_dCodeFirst_of_first hp hfit
  refine ⟨fun hk => ?_, fun hk hfit => ?_⟩
  · have hget : s.dec.tbl.get k = some [BitVec.ofNat 8 k] := by
      rw [ht, DecTable.literals_get_iff]
      exact ⟨_, rfl, by rw [BitVec.toNat_ofNat, Nat.mod_eq_of_lt (by omega)]⟩
    rw [hevent (by omega)]
    exact exec_dCode_of_firstLegal hp (by omega) (by rw [ht, DecTable.literals_next]; omega) hget
  · obtain ⟨t, hx, hfault, -⟩ := exec_dCode_of_firstIllegal hp hfit (by rwa [ht])
    exact ⟨t, (hevent hfit).trans hx, hfault⟩

/-! ### A later code (R143 to R146) -/

/-- `s` once `DEC` has read `k` and holds it ahead of the code being resolved (R143, `la <- k`). -/
def State.readAhead (s : State) (k : Nat) : State :=
  s.setDec { s.dec with la := some k, codesIn := s.dec.codesIn + 1 }

/-- `D.CODE` in `RUN` first emits `cw` (step 3a), then resolves the code it has read (3b to 3d). -/
theorem decRun_eq (s : State) (k : Nat) : decRun Config.hw k s =
    (emitWord s.dec.cw (s.readAhead k)).bind fun _ v =>
      (resolveLookahead Config.hw v).bind fun _ v' => .ok (wordOutput s.dec.cw) v' := rfl

/-- `s` once step 3a of `D.CODE k` has written `cw` (R143). -/
def State.wroteHeld (s : State) (k : Nat) : State :=
  ((s.readAhead k).setPort .dec (s.decPort.wrote s.dec.cw)).setDec
    { (s.readAhead k).dec with bytesOut := s.dec.bytesOut + s.dec.cw.length }

/-- Where the write returns, `D.CODE` in `RUN` is steps 3b to 3d. -/
theorem decRun_of_writeReturns {s : State} {k : Nat} (hcw : s.dec.cw ≠ []) (hw : s.decPort.writeReturns) :
    decRun Config.hw k s =
      (resolveLookahead Config.hw (s.wroteHeld k)).bind fun _ v => .ok (wordOutput s.dec.cw) v := by
  have hemit : emitWord s.dec.cw (s.readAhead k) = .ok () (s.wroteHeld k) :=
    emitWord_eq_ok (s := s.readAhead k) hcw hw
  rw [decRun_eq, hemit, bind_ok]

/-- Step 3b raises for a code above the counter (R146). -/
theorem resolveLookahead_of_bad {s : State} {k : Nat} (hla : s.dec.la = some k) (hk : s.dec.tbl.next < k) :
    resolveLookahead Config.hw s = .raise (.decodeError (.code k)) s := by
  simp only [resolveLookahead, hla, lookaheadByte, codeClass_eq_bad.2 hk, bind_raise]

section
variable {s : State} {k : Nat} {w : Word} {f : Byte} {e : ErrVal} (hp : s.dec.phase = .run) (hfit : k < 2 ^ 32)
  (hcw : s.dec.cw ≠ [])
include hp hfit hcw

/-- In `RUN` a code that resolves emits `cw`, adds `cw` and the first byte of the code's word, and makes that word `cw`. -/
theorem exec_dCode_of_resolves (hw : s.decPort.writeReturns) (hwf : s.dec.tbl.wf)
    (hf : Resolves s.dec.tbl s.dec.cw k f) (hget : (s.dec.tbl.append (s.dec.cw ++ [f])).get k = some w) :
    exec (.dCode k) s = .next { s with
      dec := { s.dec with tbl := s.dec.tbl.append (s.dec.cw ++ [f]), cw := w, la := none,
                          codesIn := s.dec.codesIn + 1, bytesOut := s.dec.bytesOut + s.dec.cw.length },
      decPort := s.decPort.wrote s.dec.cw, outputs := s.dec.cw.map .byte } := by
  obtain ⟨v, hres⟩ := resolveLookahead_completes (s := s.wroteHeld k) (k := k) rfl hf hwf
  have hv : decRun Config.hw k s = .ok (wordOutput s.dec.cw) v := by
    rw [decRun_of_writeReturns hcw hw, hres, bind_ok]
  rw [exec_dCode_of_run hp hfit, hv, finish_ok]
  obtain ⟨f', w', -, -, -, -, hf', hget', rfl⟩ := decRun_ok lookahead_hw hv
  obtain rfl : f = f' := Resolves.unique hf hf'
  obtain rfl : w = w' := Option.some.inj (hget.symm.trans hget')
  rfl

/-- In `RUN` a code above the counter is a fault, once `cw` is written (R146). -/
theorem exec_dCode_of_bad (hw : s.decPort.writeReturns) (hk : s.dec.tbl.next < k) :
    ∃ t, exec (.dCode k) s = .next t ∧ DecFaulted (.decodeError (.code k)) s t ∧ t.decPort.input = s.decPort.input := by
  rw [exec_dCode_of_run hp hfit, decRun_of_writeReturns hcw hw, resolveLookahead_of_bad (s := s.wroteHeld k) rfl hk,
    bind_raise]
  exact dec_event_fault _ (streaming_of_decRun hp) rfl rfl

/-- In `RUN` a write that fails is a fault, whatever the code (R201). -/
theorem exec_dCode_of_writeFails (hw : (nextAnswer s.decPort.writes).1 = .fails e) :
    ∃ t, exec (.dCode k) s = .next t ∧ DecFaulted (.ioError e) s t ∧ t.decPort.input = s.decPort.input := by
  have hraise : emitWord s.dec.cw (s.readAhead k) = _ := emitWord_eq_raise (s := s.readAhead k) hcw hw
  rw [exec_dCode_of_run hp hfit, decRun_eq, hraise, bind_raise]
  exact dec_event_fault _ (streaming_of_decRun hp) rfl rfl

end

/-- Settles O21: a present code resolves, and reads as before once the row is added; the row `RES` is its event. -/
theorem dCodeResolvesAPresentCode : Obligations.DCodeResolvesAPresentCode := by
  intro s k w f hwf hp hla hcw hfit hget hhead hw
  obtain ⟨r, rfl⟩ : ∃ r, w = f :: r := ⟨w.tail, (List.cons_head?_tail hhead).symm⟩
  obtain ⟨hlt, -⟩ := DecTable.get_of_mem hwf (mem_of_assocGet hget)
  have hevent := exec_dCode_of_resolves hp hfit hcw hw hwf (.inl ⟨hlt, r, hget⟩)
    ((DecTable.get_append_ne hlt.ne).trans hget)
  rw [← hla] at hevent
  have hrow : exec (.dCodeRes k) s = exec (.dCode k) s :=
    (finish_decRunCase_of_run hp hfit .res).trans (if_pos (codeClass_eq_res.2 hlt))
  simp only [List.forall_mem_cons]
  exact ⟨hevent, hrow.trans hevent, by simp⟩

/-- Settles O22: the counter's code resolves to `cw` and its first byte, the row just added; the row `KWK` is its event. -/
theorem dCodeResolvesTheSelfReferentialCode : Obligations.DCodeResolvesTheSelfReferentialCode := by
  intro s f hwf hp hla hhead hfit hw
  obtain ⟨r, hcw⟩ : ∃ r, s.dec.cw = f :: r := ⟨s.dec.cw.tail, (List.cons_head?_tail hhead).symm⟩
  have hevent := exec_dCode_of_resolves hp hfit (by simp [hcw]) hw hwf (.inr ⟨rfl, r, hcw⟩)
    (DecTable.get_append_self hwf _)
  rw [← hla] at hevent
  have hrow : exec (.dCodeKwk s.dec.tbl.next) s = exec (.dCode s.dec.tbl.next) s :=
    (finish_decRunCase_of_run hp hfit .kwk).trans (if_pos (codeClass_eq_kwk.2 rfl))
  simp only [List.forall_mem_cons]
  exact ⟨hevent, hrow.trans hevent, by simp⟩

/-- Settles O23: the event by its fault for a code above the counter; the row `BAD` is its event. -/
theorem dCodeAboveTheCounterFaults : Obligations.DCodeAboveTheCounterFaults := by
  intro s k hp hcw hk hfit hw
  obtain ⟨t, hevent, hfault, -⟩ := exec_dCode_of_bad hp hfit hcw hw hk
  have hrow : exec (.dCodeBad k) s = exec (.dCode k) s :=
    (finish_decRunCase_of_run hp hfit .bad).trans (if_pos (codeClass_eq_bad.2 hk))
  simp only [List.forall_mem_cons]
  exact ⟨⟨t, hevent, hfault⟩, ⟨t, hrow.trans hevent, hfault⟩, by simp⟩

/-! ### The end of the stream (R147, R148) -/

section
variable {s : State} {n : Nat} {e : ErrVal}

theorem exec_dEos_of_first (hp : s.dec.phase = .first) :
    exec .dEos s = .next { s with dec := { s.dec with phase := .done }, outputs := [] } :=
  congrArg (finish .dec s) (decAccept_of_first hp)

theorem exec_dEos_of_run (hp : s.dec.phase = .run) : exec .dEos s = finish .dec s ((emitWord s.dec.cw s).bind fun _ v =>
    .ok (wordOutput s.dec.cw) (v.setDec { v.dec with phase := .done })) :=
  congrArg (finish .dec s) (decAccept_of_run hp)

/-- The end emits the word held back (R147). -/
theorem exec_dEos_of_writeReturns (hp : s.dec.phase = .run) (hcw : s.dec.cw ≠ []) (hw : s.decPort.writeReturns) :
    exec .dEos s = .next { s with
      dec := { s.dec with phase := .done, bytesOut := s.dec.bytesOut + s.dec.cw.length },
      decPort := s.decPort.wrote s.dec.cw, outputs := s.dec.cw.map .byte } := by
  rw [exec_dEos_of_run hp, emitWord_eq_ok hcw hw, bind_ok]; rfl

theorem exec_dEos_of_writeFails (hp : s.dec.phase = .run) (hcw : s.dec.cw ≠ [])
    (hw : (nextAnswer s.decPort.writes).1 = .fails e) :
    ∃ t, exec .dEos s = .next t ∧ DecFaulted (.ioError e) s t ∧ t.decPort.input = s.decPort.input := by
  rw [exec_dEos_of_run hp, emitWord_eq_raise hcw hw, bind_raise]
  exact dec_event_fault _ (streaming_of_decRun hp) rfl rfl

/-- A fragment of 1 to 3 bytes is the end of the stream, in every state (R148). -/
theorem exec_dShort_eq (h1 : 1 ≤ n) (h3 : n ≤ 3) : exec (.dShort n) s = exec .dEos s :=
  congrArg (finish .dec s) (if_pos ⟨h1, Nat.lt_succ_of_le h3⟩)

/-- No other number of bytes is a fragment (assumption 13). -/
theorem exec_dShort_refused (hn : n = 0 ∨ 4 ≤ n) : exec (.dShort n) s = .refused .operandDomain := by
  have hdomain : ¬ (1 ≤ n ∧ n < Config.hw.codeBytes) := by
    rintro ⟨h1, h3⟩
    have : n < 4 := h3
    omega
  exact congrArg (finish .dec s) (if_neg hdomain)

end

/-- Settles O24: the two equations of the end of a stream. -/
theorem dEosEmitsTheHeldBackWord : Obligations.DEosEmitsTheHeldBackWord :=
  fun _ => ⟨exec_dEos_of_first, exec_dEos_of_writeReturns⟩

/-- Settles O25: a fragment is the event `D.EOS`, whose equations say the rest. -/
theorem dShortIsDEos : Obligations.DShortIsDEos := by
  intro s n
  refine ⟨fun h1 h3 => ?_, exec_dShort_refused⟩
  have heq : exec (.dShort n) s = exec .dEos s := exec_dShort_eq h1 h3
  exact ⟨heq, fun hp => heq.trans (exec_dEos_of_first hp),
    fun hp hcw hw => ⟨_, heq.trans (exec_dEos_of_writeReturns hp hcw hw), rfl, rfl, rfl⟩⟩

/-- Settles O26: all three events emit `cw` before they do anything else. -/
theorem decWriteFailureComesBeforeClassification : Obligations.DecWriteFailureComesBeforeClassification := by
  intro s k n e hp hcw hfit h1 h3 hw
  have heos := exec_dEos_of_writeFails hp hcw hw
  simp only [List.forall_mem_cons, exec_dShort_eq h1 h3]
  exact ⟨exec_dCode_of_writeFails hp hfit hcw hw, heos, heos, by simp⟩

/-! ### The bound on a legal code (R154) -/

/-- In a table as R37 says it is, every code up to the counter resolves, to a non-empty word. -/
theorem DecTable.Sound.resolves {t : DecTable} (h : t.Sound) {cw : Word} (hcw : cw ≠ []) {k : Nat} (hk : k ≤ t.next) :
    ∃ f r, Resolves t cw k f ∧ (t.append (cw ++ [f])).get k = some (f :: r) := by
  obtain hlt | rfl := Nat.lt_or_eq_of_le hk
  · obtain ⟨w, hw, hne⟩ := h.get_of_lt hlt
    obtain ⟨f, r, rfl⟩ := List.exists_cons_of_ne_nil hne
    exact ⟨f, r, .inl ⟨hlt, r, hw⟩, (DecTable.get_append_ne hlt.ne).trans hw⟩
  · obtain ⟨f, r, rfl⟩ := List.exists_cons_of_ne_nil hcw
    exact ⟨f, r ++ [f], .inr ⟨rfl, r, rfl⟩, DecTable.get_append_self h.wf _⟩

/-- Settles O27: the counter is 255 and the number of codes consumed, so that the bound is the counter itself. -/
theorem theBoundOnALegalCode : Obligations.TheBoundOnALegalCode := by
  intro s k hinv hp hfit hw
  have hlive := tableLive_of_decRun hp
  obtain ⟨-, hsound⟩ := hinv.table hlive
  obtain ⟨hpos, hcw, -⟩ := hinv.run hp
  have hnext : s.dec.tbl.next = 254 + (s.dec.codesIn + 1) := by rw [hinv.count hlive]; omega
  rw [← hnext]
  refine ⟨fun hk => ?_, fun hk => ?_⟩
  · obtain ⟨f, r, hf, hget⟩ := hsound.resolves hcw hk
    exact ⟨_, exec_dCode_of_resolves hp hfit hcw hw hsound.wf hf hget, hp, hget, rfl⟩
  · obtain ⟨t, hx, hfault, -⟩ := exec_dCode_of_bad hp hfit hcw hw hk
    exact ⟨t, hx, hfault⟩

/-! ### The step that reads the cursor of `DEC` (R150, R175) -/

section
variable {s : State} {f g more : ByteSeq} (hopen : s.decPort.inOpen = true) (he : s.decPort.ended = false)
  (hr : s.decPort.reads = [])
include hopen he hr

/-- Where the input ends within a field, `ReadCode` reads what is left and answers how much it was. -/
theorem readField_of_short {m : Nat} (hi : s.decPort.input = g) (hm : g.length < m) :
    readField Config.hw m f s = .ok (if f ++ g = [] then .endOfStream else .short (f ++ g).length)
      (s.setPort .dec { s.decPort with input := [], ended := true }) := by
  induction g generalizing f m s with
  | nil =>
    obtain ⟨m, rfl⟩ := Nat.exists_eq_add_one.2 hm
    have hread : callReadByte .dec s =
        .ok .endOfStream (s.setPort .dec { s.decPort with input := [], ended := true }) := by
      rw [callReadByte_nil (u := .dec) hopen he hr hi, ← hr, ← hi, port_dec]
    simp only [readField, hread, bind_ok, List.append_nil]
    split <;> rfl
  | cons c g ih =>
    obtain ⟨m, rfl⟩ := Nat.exists_eq_add_one.2 (Nat.zero_lt_of_lt hm)
    have hrest := ih (s := s.setPort .dec { s.decPort with input := g }) (f := f ++ [c]) hopen he hr rfl
      (Nat.lt_of_succ_lt_succ hm)
    rw [readField, callReadByte_moves_cursor (u := .dec) hopen he hr hi, bind_ok]
    simpa using hrest

/-- The event of a whole field is `D.CODE` of the code it holds. -/
theorem fetchDec_field (hi : s.decPort.input = g ++ more) (hlen : g.length = 4) :
    fetchDec Config.hw s =
      .ok (.dCode (unpackField Config.hw g)) (s.setPort .dec { s.decPort with input := more }) := by
  have hread : callReadCode Config.hw s = _ := hlen ▸ readField_append [] hopen he hr hi
  rw [fetchDec, hread, List.nil_append, bind_ok]

/-- The event of the end of the input is `D.EOS`. -/
theorem fetchDec_end (hi : s.decPort.input = []) :
    fetchDec Config.hw s = .ok .dEos (s.setPort .dec { s.decPort with ended := true }) := by
  have hread : callReadCode Config.hw s = _ := readField_of_short (f := []) hopen he hr hi (by decide)
  rw [fetchDec, hread, List.append_nil, if_pos rfl, bind_ok, ← hi]

/-- The event of a fragment is `D.SHORT` of its length. -/
theorem fetchDec_short (h1 : 1 ≤ s.decPort.input.length) (h3 : s.decPort.input.length ≤ 3) :
    fetchDec Config.hw s =
      .ok (.dShort s.decPort.input.length) (s.setPort .dec { s.decPort with input := [], ended := true }) := by
  have hread : callReadCode Config.hw s = _ := readField_of_short (f := []) hopen he hr rfl (Nat.lt_succ_of_le h3)
  rw [fetchDec, hread, List.nil_append, if_neg (List.ne_nil_of_length_pos h1), bind_ok]

end

/-- `DEC` runs the event that its cursor gives. -/
theorem pollStep_of_fetchDec {s v : State} {i : Instr} (hs : s.streaming .dec = true)
    (h : fetchDec Config.hw s = .ok i v) : pollStep .dec s = exec i v := by
  simp only [pollStep, fetch, hs, if_true, h]

/-- With no move of the host, a stream of `DEC` that is read from its cursor goes on where none of `ENC` does
(assumption 4). -/
theorem step_decFed {s : State} (hm : s.moves = []) (he : s.fed .enc = false) (hd : s.fed .dec = true) :
    step s = pollStep .dec s := by
  simp [step, hm, he, hd]

/-- Settles O43: the three events that a cursor gives, each run by the step. -/
theorem aStepOfDecRunsTheDecodedField : Obligations.AStepOfDecRunsTheDecodedField := by
  intro s hm hfe hfd he hr
  obtain ⟨hs, hopen⟩ := fed_iff.1 hfd
  rw [step_decFed hm hfe hfd]
  refine ⟨fun f more i hi hlen hd => ?_, fun hi => ?_, fun h1 h3 => ?_⟩
  · obtain rfl : Instr.dCode (unpackField Config.hw f) = i := Except.ok.inj ((decodeFor_code hlen).symm.trans hd)
    exact pollStep_of_fetchDec hs (fetchDec_field hopen he hr hi hlen)
  · exact pollStep_of_fetchDec hs (fetchDec_end hopen he hr hi)
  · exact pollStep_of_fetchDec hs (fetchDec_short hopen he hr h1 h3)

end Sys2Proof.Machine
end

section
/-! PROOFS, family 42_decoder: `DECOMPRESS` as the previous-token decoder (O54). What a stream does is followed on the
registers of `DEC` alone, since no event reads anything else. -/

namespace Sys2Proof.Machine

/-! ### Events by the registers of `DEC` -/

/-- `s` after an event of `DEC` that leaves registers `d'` and emits `x`. -/
def State.decEmitted (s : State) (d' : Dec) (x : ByteSeq) : State :=
  { s with dec := d', decPort := { s.decPort with sent := s.decPort.sent ++ x }, outputs := x.map .byte }

/-- From registers `d`, where no write will fail, event `i` leads to registers `d'` and emits `x`, and changes nothing else:
it reads neither the input nor what was written before. -/
def DecEmits (i : Instr) (d d' : Dec) (x : ByteSeq) : Prop :=
  ∀ s : State, s.dec = d → s.decPort.writes = [] → exec i s = .next (s.decEmitted d' x)

/-- From registers `d`, where no write will fail, event `i` is the fault `c`. -/
def DecFails (i : Instr) (d : Dec) (c : Cause) : Prop :=
  ∀ s : State, s.dec = d → s.decPort.writes = [] →
    ∃ t, exec i s = .next t ∧ DecFaulted c s t ∧ t.decPort.input = s.decPort.input

/-- The registers `d` of a stream that holds back `prev`: nothing before the first code, then the word of a code (R27,
R152). -/
inductive HoldsBack (d : Dec) : Option Word → Prop
  | nothing (hp : d.phase = .first) (hs : d.tbl.Sound) : HoldsBack d none
  | word {p : Nat} (hp : d.phase = .run) (hs : d.tbl.Sound) (hw : d.tbl.get p = some d.cw) : HoldsBack d (some d.cw)

/-! ### One code of the previous-token decoder (R152) -/

theorem previousToken_nil (t : DecTable) (prev : Option Word) (out : ByteSeq) :
    previousToken t prev out [] = .ok (t, out) := by
  cases prev <;> rfl

section
variable {t : DecTable} {prev w : Word} {f : Byte} {k : Nat} (out : ByteSeq) (ks : CodeSeq)

theorem previousToken_first (hk : k < t.next) (hw : t.get k = some w) :
    previousToken t none out (k :: ks) = previousToken t (some w) (out ++ w) ks := by
  simp only [previousToken, hk, if_true, hw]

theorem previousToken_firstIllegal (hk : t.next ≤ k) : previousToken t none out (k :: ks) = .error k := by
  simp only [previousToken, Nat.not_lt.2 hk, if_false]

/-- A code that resolves, to the word it has once the row is added. -/
theorem previousToken_resolves (hwf : t.wf) (hf : Resolves t prev k f)
    (hw : (t.append (prev ++ [f])).get k = some w) :
    previousToken t (some prev) out (k :: ks) = previousToken (t.append (prev ++ [f])) (some w) (out ++ w) ks := by
  obtain ⟨hk, r, hr⟩ | ⟨rfl, r, rfl⟩ := hf
  · obtain rfl : f :: r = w := Option.some.inj (hr.symm.trans ((DecTable.get_append_ne hk.ne).symm.trans hw))
    simp only [previousToken, hk, if_true, hr, List.take_succ_cons, List.take_zero]
  · obtain rfl : f :: r ++ [f] = w := Option.some.inj ((DecTable.get_append_self hwf _).symm.trans hw)
    simp only [previousToken, lt_irrefl, if_false, if_true, List.take_succ_cons, List.take_zero, List.cons_append]

theorem previousToken_bad (hk : t.next < k) : previousToken t (some prev) out (k :: ks) = .error k := by
  simp only [previousToken, Nat.not_lt.2 hk.le, hk.ne', if_false]

end

/-! ### One code of the machine -/

section
variable {d : Dec} {prev : Option Word} {k : Nat}

/-- A code that a field holds, in any stream: it emits the word held back and holds back its own, or is a fault; and so does
the previous-token decoder. -/
theorem HoldsBack.code (h : HoldsBack d prev) (hfit : k < 2 ^ 32) :
    (∃ d' w, DecEmits (.dCode k) d d' (prev.getD []) ∧ HoldsBack d' (some w) ∧ d'.phase = .run ∧ d'.fault = d.fault ∧
      d'.codesIn = d.codesIn + 1 ∧
      ∀ out ks, previousToken d.tbl prev out (k :: ks) = previousToken d'.tbl (some w) (out ++ w) ks) ∨
    (DecFails (.dCode k) d (.decodeError (.code k)) ∧ ∀ out ks, previousToken d.tbl prev out (k :: ks) = .error k) := by
  cases h with
  | nothing hp hs =>
    by_cases hk : k < d.tbl.next
    · obtain ⟨w, hw, -⟩ := hs.get_of_lt hk
      refine .inl ⟨{ d with cw := w, phase := .run, codesIn := d.codesIn + 1 }, w, ?_, .word rfl hs hw, rfl, rfl, rfl,
        fun out ks => previousToken_first out ks hk hw⟩
      rintro s rfl -
      simpa [State.decEmitted] using exec_dCode_of_firstLegal hp hfit hk hw
    · have hge := Nat.not_lt.1 hk
      refine .inr ⟨?_, fun out ks => previousToken_firstIllegal out ks hge⟩
      rintro s rfl -
      exact exec_dCode_of_firstIllegal hp hfit hge
  | @word p hp hs hcw =>
    have hne := hs.ne_nil hcw
    by_cases hk : k ≤ d.tbl.next
    · obtain ⟨f, r, hf, hget⟩ := hs.resolves hne hk
      refine .inl ⟨{ d with tbl := d.tbl.append (d.cw ++ [f]), cw := f :: r, la := none, codesIn := d.codesIn + 1,
                            bytesOut := d.bytesOut + d.cw.length }, f :: r, ?_, .word hp (hs.append hcw hne) hget, hp, rfl,
        rfl, fun out ks => previousToken_resolves out ks hs.wf hf hget⟩
      rintro s rfl hw
      rw [exec_dCode_of_resolves hp hfit hne (writeReturns_of_writes_nil hw) hs.wf hf hget, wrote_of_writes_nil hw]
      rfl
    · have hgt := Nat.not_le.1 hk
      refine .inr ⟨?_, fun out ks => previousToken_bad out ks hgt⟩
      rintro s rfl hw
      exact exec_dCode_of_bad hp hfit hne (writeReturns_of_writes_nil hw) hgt

/-- The end emits the word held back. -/
theorem HoldsBack.eos (h : HoldsBack d prev) : ∃ d', DecEmits .dEos d d' (prev.getD []) ∧ d'.phase = .done ∧
    d'.fault = d.fault ∧ d'.codesIn = d.codesIn ∧ d'.tbl = d.tbl := by
  cases h with
  | nothing hp hs =>
    refine ⟨{ d with phase := .done }, ?_, rfl, rfl, rfl, rfl⟩
    rintro s rfl -
    simpa [State.decEmitted] using exec_dEos_of_first hp
  | word hp hs hcw =>
    refine ⟨{ d with phase := .done, bytesOut := d.bytesOut + d.cw.length }, ?_, rfl, rfl, rfl, rfl⟩
    rintro s rfl hw
    rw [exec_dEos_of_writeReturns hp (hs.ne_nil hcw) (writeReturns_of_writes_nil hw), wrote_of_writes_nil hw]
    rfl

end

/-! ### A whole stream, whoever drives it -/

/-- The codes `ks`, then the end of the stream, take registers `d` to registers `e`, with the output `x`, or, with none, to
a fault. -/
inductive Decoding : Dec → CodeSeq → Dec → Option ByteSeq → Prop
  | eos {d e x} (h : DecEmits .dEos d e x) (hdone : e.phase = .done) : Decoding d [] e (some x)
  | code {d d' e k ks x y} (h : DecEmits (.dCode k) d d' x) (hrun : d'.phase = .run) (hrest : Decoding d' ks e y) :
      Decoding d (k :: ks) e (y.map (x ++ ·))
  | bad {d k ks c} (h : DecFails (.dCode k) d c) : Decoding d (k :: ks) { d with phase := .fault, fault := c } none

/-- A run begun in `s` that ended in `t` with registers `e`: in `DONE` with `x` written and answered, after what was answered
before, or with no answer in `FAULT`. -/
structure DecEnds (s : State) (acc : List Output) (e : Dec) (x : Option ByteSeq) (t : State) : Prop where
  dec : t.dec = e
  past : t.decPort.past = s.decPort.past
  done : ∀ y, x = some y → e.phase = .done ∧ t.decPort.sent = s.decPort.sent ++ y ∧ t.outputs = acc ++ y.map .byte
  fault : x = none → e.phase = .fault ∧ t.outputs = []

/-- What a stream ends in is what the previous-token decoder ends in, from the output `out` on. -/
def Matches (d : Dec) (n : Nat) (out : ByteSeq) (e : Dec) (x : Option ByteSeq) :
    Except Nat (DecTable × ByteSeq) → Prop
  | .ok (tbl, all) => (∃ y, x = some y ∧ all = out ++ y) ∧ e.phase = .done ∧ e.fault = d.fault ∧ e.tbl = tbl ∧
      e.codesIn = d.codesIn + n
  | .error k => x = none ∧ e.phase = .fault ∧ e.fault = .decodeError (.code k)

theorem Matches.cons {d d' e : Dec} {n : Nat} {out x : ByteSeq} {y : Option ByteSeq}
    {r : Except Nat (DecTable × ByteSeq)} (h : Matches d' n (out ++ x) e y r) (hfault : d'.fault = d.fault)
    (hin : d'.codesIn = d.codesIn + 1) : Matches d (n + 1) out e (y.map (x ++ ·)) r := by
  cases r with
  | ok p =>
    obtain ⟨⟨y', rfl, hall⟩, hdone, hf, ht, hc⟩ := h
    exact ⟨⟨x ++ y', rfl, by rw [hall, List.append_assoc]⟩, hdone, hf.trans hfault, ht, by rw [hc, hin]; omega⟩
  | error k =>
    obtain ⟨rfl, hend⟩ := h
    exact ⟨rfl, hend⟩

/-- Every stream of codes that a field holds ends as the previous-token decoder does. By induction on the codes. -/
theorem HoldsBack.decodes {d : Dec} {prev : Option Word} (h : HoldsBack d prev) {ks : CodeSeq}
    (hfit : ∀ k ∈ ks, k < 2 ^ 32) (out : ByteSeq) : ∃ e x, Decoding d ks e x ∧
      Matches d ks.length out e x (previousToken d.tbl prev (out ++ prev.getD []) ks) := by
  induction ks generalizing d prev out with
  | nil =>
    obtain ⟨e, hx, hdone, hfault, hin, ht⟩ := h.eos
    refine ⟨e, _, .eos hx hdone, ?_⟩
    rw [previousToken_nil]
    exact ⟨⟨_, rfl, rfl⟩, hdone, hfault, ht, hin⟩
  | cons k ks ih =>
    rw [List.forall_mem_cons] at hfit
    obtain ⟨d', w, hx, hd', hrun, hfault, hin, hprev⟩ | ⟨hx, hprev⟩ := h.code hfit.1
    · obtain ⟨e, y, hrest, hm⟩ := ih hd' hfit.2 (out ++ prev.getD [])
      rw [hprev]
      exact ⟨e, _, .code hx hrun hrest, hm.cons hfault hin⟩
    · rw [hprev]
      exact ⟨_, none, .bad hx, rfl, rfl, rfl⟩

section
variable {s s' t : State} {acc : List Output} {d' e : Dec} {c : Cause} {x : ByteSeq} {y : Option ByteSeq}

/-- An event first: what it emits comes first. -/
theorem DecEnds.cons (h : DecEnds (s.decEmitted d' x) (acc ++ x.map .byte) e y t) :
    DecEnds s acc e (y.map (x ++ ·)) t := by
  refine ⟨h.dec, h.past, ?_, fun hy => h.fault (Option.map_eq_none_iff.1 hy)⟩
  rintro _ hy
  obtain ⟨y', hy', rfl⟩ := Option.map_eq_some_iff.1 hy
  obtain ⟨hdone, hsent, hout⟩ := h.done y' hy'
  exact ⟨hdone, by rw [hsent]; exact List.append_assoc .., by rw [hout, List.map_append, List.append_assoc]⟩

/-- The end of the stream, which completes (R147). -/
theorem DecEnds.of_eos (hdone : e.phase = .done) :
    DecEnds s acc e (some x) ((s.decEmitted e x).setOutputs (acc ++ x.map .byte)) :=
  ⟨rfl, rfl, by rintro _ ⟨⟩; exact ⟨hdone, rfl, rfl⟩, nofun⟩

/-- A fault of the stream (R202). -/
theorem DecEnds.of_fault (h : DecFaulted c s t) : DecEnds s acc { s.dec with phase := .fault, fault := c } none t := by
  obtain ⟨hdec, -, -, -, hout, hpast⟩ := h
  exact ⟨hdec, hpast, nofun, fun _ => ⟨rfl, hout⟩⟩

/-- Two runs that end with one and the same registers and output show the same. -/
theorem DecEnds.agree {u : State} (h : DecEnds s acc e y t) (h' : DecEnds s' acc e y u)
    (hsent : s.decPort.sent = s'.decPort.sent) :
    t.dec = u.dec ∧ t.outputs = u.outputs ∧ observe t .dec = observe u .dec := by
  refine ⟨h.dec.trans h'.dec.symm, ?_⟩
  cases y with
  | some x =>
    obtain ⟨hdone, hs, ho⟩ := h.done x rfl
    obtain ⟨-, hs', ho'⟩ := h'.done x rfl
    exact ⟨ho.trans ho'.symm, by simp only [observe, h.dec, h'.dec, hdone, hs, hs', hsent]⟩
  | none =>
    obtain ⟨hfault, ho⟩ := h.fault rfl
    obtain ⟨-, ho'⟩ := h'.fault rfl
    exact ⟨ho.trans ho'.symm, by simp only [observe, h.dec, h'.dec, hfault]⟩

end

/-- The expansion of `DECOMPRESS` runs the stream (R91, R150). -/
theorem Decoding.run_steps {d e : Dec} {ks : CodeSeq} {x : Option ByteSeq} (h : Decoding d ks e x) {s : State}
    (hs : s.dec = d) (hw : s.decPort.writes = []) (acc : List Output) :
    ∃ t, runSteps .dec (ks.map (dCodeStep Config.hw) ++ [dEosStep]) acc s = .next t ∧ DecEnds s acc e x t ∧
      t.decPort.input = s.decPort.input := by
  induction h generalizing s acc with
  | eos h hdone => exact ⟨_, runSteps_dEos (h s hs hw) hdone acc, .of_eos hdone, rfl⟩
  | @code d d' e k ks x y h hrun hrest ih =>
    obtain ⟨t, ht, hends, hin⟩ := ih (s := s.decEmitted d' x) rfl hw (acc ++ x.map .byte)
    exact ⟨t, (runSteps_dCode (h s hs hw) hrun _ acc).trans ht, hends.cons, hin⟩
  | bad h =>
    obtain ⟨t, hx, hfault, hin⟩ := h s hs hw
    have hends : DecEnds s acc _ none t := .of_fault hfault
    exact ⟨t, runSteps_fault (f := dCodeStep Config.hw _) hx (by simp [State.faulted, hends.dec]), hs ▸ hends, hin⟩

/-! ### The start of a stream of `DEC` (R140) -/

/-- The registers that a start leaves. -/
def Dec.started (d : Dec) : Dec :=
  { d with tbl := DecTable.literals Config.hw, ready := true, phase := .first, fault := .none, codesIn := 0, bytesOut := 0 }

theorem decBegin_dec_eq_started (s : State) : (decBegin Config.hw s).dec = s.dec.started := rfl

theorem Dec.started_holdsBack (d : Dec) : HoldsBack d.started none := .nothing rfl DecTable.sound_literals

/-- `DECOMPRESS` ends as its stream does from the registers a start leaves. -/
theorem Decoding.exec_decompress {s : State} {ks : CodeSeq} {e : Dec} {x : Option ByteSeq}
    (h : Decoding s.dec.started ks e x) (hw : s.decPort.writes = []) :
    ∃ t, exec (.decompress ks) s = .next t ∧ DecEnds ((decBegin Config.hw s).setOutputs []) [] e x t ∧
      t.decPort.input = s.decPort.input := by
  rw [exec_decompress_eq]
  exact h.run_steps (s := (decBegin Config.hw s).setOutputs []) (decBegin_dec_eq_started s) hw []

/-- Settles O54: the stream from the registers a start leaves, run as `DECOMPRESS` runs it. -/
theorem decompressIsThePreviousTokenDecoder : Obligations.DecompressIsThePreviousTokenDecoder := by
  intro s ks hw hfit
  obtain ⟨e, x, hdec, hm⟩ := s.dec.started_holdsBack.decodes hfit []
  obtain ⟨t, hx, hends, hin⟩ := hdec.exec_decompress hw
  obtain ⟨henc, hport, hmoves⟩ := exec_frame_of_isDecOp rfl hx
  refine ⟨t, hx, henc, hport, hmoves, hends.past, hin, ?_⟩
  obtain rfl := hends.dec
  cases hr : previousToken (DecTable.literals Config.hw) none [] ks with
  | ok p =>
    have hm : Matches s.dec.started ks.length [] t.dec x (.ok p) := hr ▸ hm
    obtain ⟨⟨y, rfl, hall⟩, hdone, hfault, htbl, hin⟩ := hm
    obtain ⟨-, hsent, hout⟩ := hends.done y rfl
    rw [show y = p.2 from hall.symm] at hsent hout
    exact ⟨hdone, hfault, hout, htbl, hsent, hin.trans (Nat.zero_add _)⟩
  | error k =>
    have hm : Matches s.dec.started ks.length [] t.dec x (.error k) := hr ▸ hm
    obtain ⟨rfl, hfault, hcause⟩ := hm
    exact ⟨hfault, hcause, (hends.fault rfl).2⟩

end Sys2Proof.Machine
end

section
/-! PROOFS, family 42_decoder: `DECOMPRESS` as the inverse of `COMPRESS` (O57): the previous-token decoder gives back what
the greedy parse has cut into phrases. -/

namespace Sys2Proof.Machine

/-! ### The previous-token decoder undoes the greedy parse (R38 (a), R155) -/

/-- From a phrase that is known on, the parse finds the longest one: it is all that is left, or its next byte makes it
unknown. -/
theorem exists_longest_known {t : EncTable} {w : Word} (hw : t.has w = true) (b : ByteSeq) :
    ∃ v, t.has (w ++ v) = true ∧ (b = v ∨ ∃ c r, b = v ++ c :: r ∧ t.has (w ++ v ++ [c]) = false) := by
  induction b generalizing w with
  | nil => exact ⟨[], by rwa [List.append_nil], .inl rfl⟩
  | cons c b ih =>
    cases hc : t.has (w ++ [c]) with
    | false => exact ⟨[], by rwa [List.append_nil], .inr ⟨c, b, rfl, by rwa [List.append_nil]⟩⟩
    | true =>
      obtain ⟨v, hv, hrest⟩ := ih hc
      rw [List.append_assoc, List.singleton_append] at hv hrest
      refine ⟨c :: v, hv, hrest.imp (congrArg _) ?_⟩
      rintro ⟨c', r, rfl, hn⟩
      exact ⟨c', r, rfl, hn⟩

/-- From table `d` and previous word `prev`, the decoder turns the code of every word of `t` that begins with `c` into that
word, and comes to the table `t`, inverted. -/
def DecodesWordsFrom (c : Byte) (d : DecTable) (prev : Option Word) (t : EncTable) : Prop :=
  ∀ k r, t.get (c :: r) = some k → ∀ out ks,
    previousToken d prev out (k :: ks) = previousToken t.mirror (some (c :: r)) (out ++ c :: r) ks

/-- Before the first code the tables agree. -/
theorem EncTable.Sound.decodesWords_first {t : EncTable} (hs : t.Sound) (c : Byte) : DecodesWordsFrom c t.mirror none t :=
  fun _ _ hk out ks => previousToken_first out ks (hs.code_lt hk) (hs.mirror_get.2 hk)

/-- After it the decode table lacks the row of `prev` and `c`; the code of that row alone is read from `prev` (R143 to
R145). -/
theorem EncTable.Sound.decodesWords_append {t : EncTable} (hs : t.Sound) {prev : Word} {c : Byte}
    (hprev : t.has prev = true) (hn : t.has (prev ++ [c]) = false) :
    DecodesWordsFrom c t.mirror (some prev) (t.append (prev ++ [c])) := by
  intro k r hk out ks
  have hres : Resolves t.mirror prev k c := by
    by_cases hword : c :: r = prev ++ [c]
    · have hnew : (t.append (prev ++ [c])).get (c :: r) = some t.next := by
        rw [hword]; exact EncTable.get_append_self hn
      obtain ⟨b, q, rfl⟩ := List.exists_cons_of_ne_nil fun h0 : prev = [] => by simp [h0, hs.not_has_nil] at hprev
      exact .inr ⟨Option.some.inj (hk.symm.trans hnew), q, by rw [(List.cons.inj hword).1]⟩
    · have hold : t.get (c :: r) = some k := (EncTable.get_append_ne hword).symm.trans hk
      exact .inl ⟨hs.code_lt hold, r, hs.mirror_get.2 hold⟩
  have hword : (t.mirror.append (prev ++ [c])).get k = some (c :: r) := by
    rw [← EncTable.mirror_append]; exact (hs.append hn hprev).mirror_get.2 hk
  rw [EncTable.mirror_append]
  exact previousToken_resolves out ks hs.mirror_wf hres hword

/-- The decoder gives back what was parsed, and its table is that of the parse, inverted. By induction on the number of
phrases. -/
theorem DecodesWordsFrom.parse {n : Nat} {c : Byte} {b : ByteSeq} {d : DecTable} {prev : Option Word} {t : EncTable}
    (h : DecodesWordsFrom c d prev t) (hs : t.Sound) (hlen : (c :: b).length ≤ n) (out : ByteSeq) :
    previousToken d prev out (greedyParse n t (c :: b)).1 =
      .ok ((greedyParse n t (c :: b)).2.mirror, out ++ c :: b) := by
  induction n generalizing c b d prev t out with
  | zero => cases hlen
  | succ n ih =>
    obtain ⟨v, hv, hrest⟩ := exists_longest_known (hs.has_single c) b
    simp only [List.cons_append, List.nil_append] at hv hrest
    obtain ⟨k, hk⟩ := EncTable.has_iff_get.1 hv
    obtain rfl | ⟨c', r, rfl, hn⟩ := hrest
    · rw [greedyParse_last hs hk hlen, h k b hk, previousToken_nil]
    · have hcut := greedyParse_cut hs (n := n) (b := r) hk hn rfl
      have hlen' : (c' :: r).length ≤ n := by
        simp only [List.length_cons, List.length_append] at hlen ⊢; omega
      have hnext := ih (hs.decodesWords_append hv hn) (hs.append hn hv) hlen' (out ++ c :: v)
      rw [← List.cons_append, hcut, h k v hk, hnext, List.append_assoc]

/-- The previous-token decoder undoes the greedy parse. -/
theorem previousToken_greedyParse (b : ByteSeq) :
    previousToken (DecTable.literals Config.hw) none [] (greedyParse b.length (EncTable.literals Config.hw) b).1 =
      .ok ((greedyParse b.length (EncTable.literals Config.hw) b).2.mirror, b) := by
  rw [← EncTable.mirror_literals]
  cases b with
  | nil => rfl
  | cons c b =>
    have hs := EncTable.sound_literals
    exact (hs.decodesWords_first c).parse hs (Nat.le_refl _) []

/-- A code that the previous-token decoder consumes lies below the counter it ends with. -/
theorem lt_next_of_previousToken {t tbl : DecTable} {prev : Option Word} {out all : ByteSeq} {ks : CodeSeq}
    (h : previousToken t prev out ks = .ok (tbl, all)) : t.next ≤ tbl.next ∧ ∀ k ∈ ks, k < tbl.next := by
  induction ks generalizing t prev out with
  | nil =>
    rw [previousToken_nil] at h
    cases h
    exact ⟨Nat.le_refl _, nofun⟩
  | cons k ks ih =>
    rw [List.forall_mem_cons]
    cases prev with
    | none =>
      simp only [previousToken] at h
      split_ifs at h with hk
      split at h
      · obtain ⟨hle, hall⟩ := ih h
        exact ⟨hle, hk.trans_le hle, hall⟩
      · cases h
    | some prev =>
      simp only [previousToken] at h
      split at h
      · next hw =>
        obtain ⟨hle, hall⟩ := ih h
        have hk : k ≤ t.next := by
          split_ifs at hw with hlt heq
          · exact hlt.le
          · exact heq.le
        exact ⟨Nat.le_of_succ_le hle, Nat.lt_of_le_of_lt hk hle, hall⟩
      · cases h

/-! ### The round trip in codes -/

/-- The codes that `COMPRESS b` emits fit their fields, are what it wrote, and decode to `b`. -/
theorem exec_compress_decodable {s : State} {b : ByteSeq} (hw : s.encPort.writes = []) (hlen : b.length ≤ 2 ^ 32 - 256) :
    ∃ t ks tbl, exec (.compress b) s = .next t ∧ t.outputs = ks.map .code ∧ t.encPort.sent = ks.flatMap leBytes ∧
      (∀ k ∈ ks, k < 2 ^ 32) ∧ previousToken (DecTable.literals Config.hw) none [] ks = .ok (tbl, b) := by
  obtain ⟨t, ks, hx, h⟩ := exec_compress_compresses hw hlen
  have hparse : greedyParse b.length (EncTable.literals Config.hw) b = (ks, t.enc.tbl) := h.parse b.length (Nat.le_refl _)
  have hdec := previousToken_greedyParse b
  rw [hparse] at hdec
  have hnext : t.enc.tbl.next ≤ 2 ^ 32 := by
    have hcodes : t.enc.codesOut = ks.length := h.emits.codesOut.trans (Nat.zero_add _)
    have hmost : ks.length ≤ b.length := h.most
    rw [h.inv.flushed h.done, hcodes]
    omega
  refine ⟨_, ks, _, hx, rfl, by rw [setOutputs_encPort, h.emits.port]; rfl, fun k hk => ?_, hdec⟩
  exact ((lt_next_of_previousToken hdec).2 k hk).trans_le hnext

/-- Codes that decode without a fault end the stream in `DONE`, without a fault, with what they decode to. -/
theorem Dec.started_decodes {d : Dec} {ks : CodeSeq} {tbl : DecTable} {b : ByteSeq}
    (hfit : ∀ k ∈ ks, k < 2 ^ 32) (hok : previousToken (DecTable.literals Config.hw) none [] ks = .ok (tbl, b)) :
    ∃ e, Decoding d.started ks e (some b) ∧ e.fault = .none := by
  obtain ⟨e, x, h, hm⟩ := d.started_holdsBack.decodes hfit []
  have hm : Matches d.started ks.length [] e x (.ok (tbl, b)) := hok ▸ hm
  obtain ⟨⟨y, rfl, rfl⟩, -, hfault, -⟩ := hm
  exact ⟨e, h, hfault⟩

/-- Settles O57: the codes are those of the greedy parse, which the previous-token decoder undoes. -/
theorem decompressUndoesCompress : Obligations.DecompressUndoesCompress := by
  intro s b hwe hwd hlen
  obtain ⟨t, ks, tbl, hx, hout, -, hfit, hok⟩ := exec_compress_decodable hwe hlen
  obtain ⟨e, h, hfault⟩ := Dec.started_decodes (d := t.dec) hfit hok
  have hwt : t.decPort.writes = [] := by rw [(exec_frame_of_isEncOp rfl hx).2.1, hwd]
  obtain ⟨u, hu, hends, -⟩ := h.exec_decompress hwt
  obtain ⟨hdone, hsent, hanswer⟩ := hends.done b rfl
  obtain rfl := hends.dec
  exact ⟨t, ks, u, hx, hout, hu, hdone, hfault, hanswer, hsent⟩

end Sys2Proof.Machine
end

section
/-! PROOFS, family 42_decoder: a stream of `DEC` that is read from its cursor (O56), and the round trip from bytes to bytes
(O59). -/

namespace Sys2Proof.Machine

/-! ### The codes of a byte stream (R175) -/

theorem unpackField_hw (f0 f1 f2 f3 : Byte) : unpackField Config.hw [f0, f1, f2, f3] = leCode f0 f1 f2 f3 := by
  simp only [unpackField, Config.hw, Config.ordered, ofLanes_cons, ofLanes_nil, leCode]
  omega

/-- Where codes are framed, the first is that of the first four bytes. -/
theorem framedCodes_cons {bs : ByteSeq} {k : Nat} {ks : CodeSeq} (h : framedCodes bs = k :: ks) :
    ∃ f more, bs = f ++ more ∧ f.length = 4 ∧ unpackField Config.hw f = k ∧ framedCodes more = ks := by
  match bs, h with
  | f0 :: f1 :: f2 :: f3 :: more, h =>
    obtain ⟨hk, hks⟩ := List.cons.inj h
    exact ⟨[f0, f1, f2, f3], more, rfl, rfl, (unpackField_hw ..).trans hk, hks⟩

/-- Where none is, at most a fragment is left. -/
theorem length_of_framedCodes_nil {bs : ByteSeq} (h : framedCodes bs = []) : bs.length ≤ 3 := by
  match bs, h with
  | [], _ | [_], _ | [_, _], _ | [_, _, _], _ => simp

/-- A field in front is a code in front. -/
theorem framedCodes_append {f : ByteSeq} (hf : f.length = 4) (more : ByteSeq) :
    framedCodes (f ++ more) = unpackField Config.hw f :: framedCodes more := by
  match f, hf with
  | [f0, f1, f2, f3], _ => rw [unpackField_hw]; rfl

/-- Every framed code is one that a field holds. -/
theorem framedCodes_fit (bs : ByteSeq) : ∀ k ∈ framedCodes bs, k < 2 ^ 32 := by
  induction bs using framedCodes.induct with
  | case1 f0 f1 f2 f3 rest ih =>
    rw [framedCodes, List.forall_mem_cons, ← unpackField_hw]
    exact ⟨codeLimit_hw ▸ unpackField_lt rfl, ih⟩
  | case2 bs h => rw [framedCodes]; exact nofun; exact h

/-- Packed codes are framed as they were (R170, R171). -/
theorem framedCodes_flatMap_leBytes {ks : CodeSeq} (hfit : ∀ k ∈ ks, k < 2 ^ 32) :
    framedCodes (ks.flatMap leBytes) = ks := by
  induction ks with
  | nil => rfl
  | cons k ks ih =>
    rw [List.forall_mem_cons] at hfit
    rw [List.flatMap_cons, framedCodes_append (leBytes_length k), ih hfit.2, leBytes_eq,
      unpackField_ordered_lanes (codeLimit_hw ▸ hfit.1)]

/-- A stream cut down to whole codes frames the same codes. -/
theorem framedCodes_take (bs : ByteSeq) : framedCodes (bs.take (4 * (bs.length / 4))) = framedCodes bs := by
  induction bs using framedCodes.induct with
  | case1 f0 f1 f2 f3 rest ih =>
    have hlen : 4 * ((f0 :: f1 :: f2 :: f3 :: rest).length / 4) = 4 * (rest.length / 4) + 1 + 1 + 1 + 1 := by
      simp only [List.length_cons]; omega
    simp only [hlen, List.take_succ_cons, framedCodes, ih]
  | case2 bs h =>
    have hnil : framedCodes bs = [] := by rw [framedCodes]; exact h
    have hshort := length_of_framedCodes_nil hnil
    rw [hnil, Nat.div_eq_of_lt (Nat.lt_succ_of_le hshort)]
    rfl

theorem framedCodes_length (bs : ByteSeq) : (framedCodes bs).length ≤ bs.length := by
  induction bs using framedCodes.induct with
  | case1 f0 f1 f2 f3 rest ih => simp only [framedCodes, List.length_cons]; omega
  | case2 bs h => rw [framedCodes]; exact Nat.zero_le _; exact h

/-! ### A stream of `DEC` read from its cursor (R150, R175) -/

/-- `DEC` is about to read `bs` from its cursor, and no call of it will fail. -/
structure DecReads (s : State) (bs : ByteSeq) : Prop where
  opened : s.decPort.inOpen = true
  ended : s.decPort.ended = false
  reads : s.decPort.reads = []
  writes : s.decPort.writes = []
  input : s.decPort.input = bs

section
variable {s t : State} {bs f more : ByteSeq} {e : Dec} {acc : List Output} {n : Nat}

theorem DecReads.pumpDec_field (h : DecReads s (f ++ more)) (hf : f.length = 4) : pumpDec Config.hw s =
    exec (.dCode (unpackField Config.hw f)) (s.setPort .dec { s.decPort with input := more }) := by
  simp only [pumpDec, fetchDec_field h.opened h.ended h.reads h.input hf]
  rfl

/-- What is left within a field, or nothing, is the end of the stream. -/
theorem DecReads.pumpDec_end (h : DecReads s bs) (hbs : bs.length ≤ 3) : pumpDec Config.hw s =
    exec .dEos (s.setPort .dec { s.decPort with input := [], ended := true }) := by
  obtain ⟨hopen, he, hr, -, rfl⟩ := h
  by_cases hi : s.decPort.input = []
  · simp only [pumpDec, fetchDec_end hopen he hr hi]
    rw [← hi]
    rfl
  · have h1 := List.length_pos_iff.2 hi
    simp only [pumpDec, fetchDec_short hopen he hr h1 hbs]
    exact exec_dShort_eq h1 hbs

/-! One cursor-driven step of a stream. -/

theorem pumpDecAll_run (h : pumpDec Config.hw s = .next t) (hrun : t.dec.phase = .run) :
    pumpDecAll Config.hw (n + 1) acc s = pumpDecAll Config.hw n (acc ++ t.outputs) t := by
  simp [pumpDecAll, h, State.faulted, hrun]

theorem pumpDecAll_done (h : pumpDec Config.hw s = .next t) (hdone : t.dec.phase = .done) :
    pumpDecAll Config.hw (n + 1) acc s = .next (t.setOutputs (acc ++ t.outputs)) := by
  simp [pumpDecAll, h, State.faulted, hdone]

theorem pumpDecAll_fault (h : pumpDec Config.hw s = .next t) (hfault : t.dec.phase = .fault) :
    pumpDecAll Config.hw (n + 1) acc s = .next t := by
  simp [pumpDecAll, h, State.faulted, hfault]

/-- A read does not touch the sink. -/
theorem DecEnds.of_read {y : Option ByteSeq} {b : Bool}
    (h : DecEnds (s.setPort .dec { s.decPort with input := more, ended := b }) acc e y t) : DecEnds s acc e y t :=
  ⟨h.dec, h.past, h.done, h.fault⟩

end

/-- A stream that is read from its cursor is that of the codes framed there. -/
theorem Decoding.run_cursor {d e : Dec} {ks : CodeSeq} {x : Option ByteSeq} (h : Decoding d ks e x) {s : State}
    {bs : ByteSeq} (hs : s.dec = d) (hr : DecReads s bs) (hks : framedCodes bs = ks) {n : Nat} (hn : ks.length ≤ n)
    (acc : List Output) : ∃ t, pumpDecAll Config.hw (n + 1) acc s = .next t ∧ DecEnds s acc e x t := by
  induction h generalizing s bs n acc with
  | @eos d e x h hdone =>
    have hx := (hr.pumpDec_end (length_of_framedCodes_nil hks)).trans (h _ hs hr.writes)
    exact ⟨_, pumpDecAll_done hx hdone, (DecEnds.of_eos hdone).of_read⟩
  | @code d d' e k ks x y h hrun hrest ih =>
    obtain ⟨f, more, rfl, hf, rfl, hmore⟩ := framedCodes_cons hks
    obtain ⟨n, rfl⟩ := Nat.exists_eq_add_one.2 (Nat.zero_lt_of_lt hn)
    have hx := (hr.pumpDec_field hf).trans (h _ hs hr.writes)
    have hr' : DecReads ((s.setPort .dec { s.decPort with input := more }).decEmitted d' x) more :=
      ⟨hr.opened, hr.ended, hr.reads, hr.writes, rfl⟩
    obtain ⟨t, ht, hends⟩ := ih rfl hr' hmore (Nat.le_of_succ_le_succ hn) (acc ++ x.map .byte)
    exact ⟨t, (pumpDecAll_run hx hrun).trans ht, hends.cons.of_read (b := s.decPort.ended)⟩
  | @bad d k ks c h =>
    obtain ⟨f, more, rfl, hf, rfl, hmore⟩ := framedCodes_cons hks
    obtain ⟨t, hx, hfault, -⟩ := h (s.setPort .dec { s.decPort with input := more }) hs hr.writes
    have hends : DecEnds s acc { d with phase := .fault, fault := c } none t :=
      hs ▸ (DecEnds.of_fault hfault).of_read (b := s.decPort.ended)
    exact ⟨t, pumpDecAll_fault ((hr.pumpDec_field hf).trans hx) (by rw [hends.dec]), hends⟩

/-- `DECOMPRESSBYTES` ends as the stream of the codes that its operand frames does from the registers a start leaves. -/
theorem Decoding.exec_decompressBytes {s : State} {bs : ByteSeq} {e : Dec} {x : Option ByteSeq}
    (h : Decoding s.dec.started (framedCodes bs) e x) (hr : s.decPort.reads = []) (hw : s.decPort.writes = []) :
    ∃ t, exec (.decompressBytes bs) s = .next t ∧
      DecEnds ((decBegin Config.hw (openStream .dec bs s)).setOutputs []) [] e x t :=
  h.run_cursor (s := (decBegin Config.hw (openStream .dec bs s)).setOutputs []) rfl ⟨rfl, rfl, hr, hw, rfl⟩ rfl
    (framedCodes_length bs) []

/-- Settles O56: the stream and the stream cut to whole codes frame the same codes. -/
theorem aTruncatedStreamDecodesAsItsWholeCodes : Obligations.ATruncatedStreamDecodesAsItsWholeCodes := by
  intro s bs hr hw
  obtain ⟨e, x, h, -⟩ := s.dec.started_holdsBack.decodes (framedCodes_fit bs) []
  obtain ⟨t, ht, hends⟩ := h.exec_decompressBytes hr hw
  rw [← framedCodes_take] at h
  obtain ⟨u, hu, hends'⟩ := h.exec_decompressBytes hr hw
  exact ⟨t, u, ht, hu, hends.agree hends' rfl⟩

/-! ### The round trip in bytes (R155, R177) -/

theorem noFailures_iff {s : State} {u : UnitId} :
    s.noFailures u = true ↔ (s.port u).reads = [] ∧ (s.port u).writes = [] := by
  simp [State.noFailures]

/-- Settles O59: the packed codes are framed as the codes they were, which decode to the input. -/
theorem decompressBytesUndoesCompressBytes : Obligations.DecompressBytesUndoesCompressBytes := by
  intro s b hfe hfd hlen
  obtain ⟨-, hwe⟩ := noFailures_iff.1 hfe
  obtain ⟨hrd, hwd⟩ := noFailures_iff.1 hfd
  obtain ⟨t, ks, tbl, hx, hout, hsent, hfit, hok⟩ := exec_compress_decodable hwe hlen
  obtain ⟨t', ks', hx', hout', hbytes, -⟩ := compressBytesPacksTheCodes s b hwe hlen
  obtain rfl : t = t' := Host.Outcome.next.inj (hx.symm.trans hx')
  obtain rfl : ks = ks' := List.map_injective_iff.2 (fun _ _ => Output.code.inj) (hout.symm.trans hout')
  obtain ⟨-, hport, -⟩ := exec_frame_of_isEncOp rfl hx
  obtain ⟨e, h, hfault⟩ := Dec.started_decodes (d := t.dec) hfit hok
  rw [← framedCodes_flatMap_leBytes hfit] at h
  obtain ⟨u, hu, hends⟩ := h.exec_decompressBytes (s := { t with outputs := (ks.flatMap leBytes).map .byte })
    (hport ▸ hrd) (hport ▸ hwd)
  obtain ⟨hdone, hsentu, hanswer⟩ := hends.done b rfl
  obtain rfl := hends.dec
  have hobs : observe u .dec = .finished b := by simp only [observe, hdone, hsentu]; rfl
  exact ⟨_, _, u, hbytes, rfl, hsent, hu, hdone, hfault, hanswer, hobs⟩

end Sys2Proof.Machine
end

section
/-! PROOFS, family 43_codec_and_io: `DECOMPRESSBYTES` as `DECOMPRESS` of the codes framed in its operand (O55). -/

namespace Sys2Proof.Machine

/-! ### A stream of `DEC` that ends in `DONE` has come to the end of its input (R150, R172, R175) -/

section
variable {s t : State} {bs : ByteSeq}

/-- The cursor answers that the input has ended where no byte is left, and remembers that it has (R172). -/
theorem callReadByte_endOfStream {u : UnitId} (h : callReadByte u s = .ok .endOfStream t) :
    (t.port u).input = [] ∧ (t.port u).ended = true := by
  unfold callReadByte at h
  split_ifs at h
  split at h
  · cases h
  · cases h
  · split at h <;> cases h
    next hi => rw [setPort_port]; exact ⟨hi, rfl⟩

/-- Where `ReadCode` answers no code, it has come to the end of the input (R175). -/
theorem readField_ended {cfg : Config} {m : Nat} {f : ByteSeq} {r : CodeResult} (h : readField cfg m f s = .ok r t)
    (hr : ∀ k, r ≠ .code k) : t.decPort.input = [] ∧ t.decPort.ended = true := by
  induction m generalizing f s with
  | zero => cases h; exact absurd rfl (hr _)
  | succ m ih =>
    obtain ⟨a, v, ha, hk⟩ := bind_eq_ok h
    cases a with
    | byte c => exact ih hk
    | endOfStream =>
      have hv : v = t := by
        by_cases hf : f = [] <;> simp [hf] at hk <;> exact hk.2
      exact hv ▸ callReadByte_endOfStream ha

/-- The event that `DEC` takes from its cursor is a code, or the end of the stream at the end of the input. -/
theorem fetchDec_code_or_ended {i : Instr} (h : fetchDec Config.hw s = .ok i t) : (∃ k, i = .dCode k) ∨
    ((i = .dEos ∨ ∃ n, i = .dShort n) ∧ t.decPort.input = [] ∧ t.decPort.ended = true) := by
  obtain ⟨r, v, hr, hi⟩ := bind_eq_ok h
  cases r with
  | code k => cases hi; exact .inl ⟨k, rfl⟩
  | endOfStream => cases hi; exact .inr ⟨.inl rfl, readField_ended hr nofun⟩
  | short n => cases hi; exact .inr ⟨.inr ⟨n, rfl⟩, readField_ended hr nofun⟩

/-- A `D.EOS` that completes leaves the cursor where it is (R147). -/
theorem dEos_done_cursor (h : exec .dEos s = .next t) (hdone : t.dec.phase = .done) :
    t.decPort.input = s.decPort.input ∧ t.decPort.ended = s.decPort.ended := by
  obtain ⟨o, v, hv, rfl⟩ | ⟨c, v, -, -, rfl⟩ := finish_cases h
  · obtain ⟨-, -, rfl⟩ | ⟨-, -, -, rfl⟩ := decEos_ok hv <;> exact ⟨rfl, rfl⟩
  · cases hdone

/-- If the stream of `DEC` has ended in `DONE`, all of its input has been read. -/
def EndedIfDone (t : State) : Prop := t.dec.phase = .done → t.decPort.input = [] ∧ t.decPort.ended = true

/-- A cursor-driven step of `DEC` leads to `DONE` only at the end of the input: a code leads to `RUN` or to `FAULT`. -/
theorem pumpDec_endedIfDone (h : pumpDec Config.hw s = .next t) : EndedIfDone t := by
  intro hdone
  obtain ⟨i, v, hi, -, hx⟩ | ⟨c, v, -, rfl⟩ := pumpDec_next h
  · obtain ⟨k, rfl⟩ | ⟨hend, hin, hended⟩ := fetchDec_code_or_ended hi
    · obtain ⟨-, hp | hp⟩ := dCode_phases hx <;> cases hp.symm.trans hdone
    · have hx : exec .dEos v = .next t := by
        obtain rfl | ⟨n, rfl⟩ := hend
        · exact hx
        · exact dEos_of_dShort hx
      obtain ⟨hin', hended'⟩ := dEos_done_cursor hx hdone
      exact ⟨hin'.trans hin, hended'.trans hended⟩
  · cases hdone

/-- `DECOMPRESSBYTES` begins in `FIRST`, and runs cursor-driven steps. -/
theorem decompressBytes_endedIfDone (h : exec (.decompressBytes bs) s = .next t) : EndedIfDone t :=
  pumpDecAll_inv (P := EndedIfDone) (fun _ _ hv => hv) (fun _ _ _ hx => pumpDec_endedIfDone hx)
    (fun hp => by cases hp) h

end

/-- Settles O55: both run the stream of the framed codes from the registers a start leaves, `DECOMPRESSBYTES` by its cursor
and `DECOMPRESS` by its operand. -/
theorem decompressBytesDecodesTheFramedCodes : Obligations.DecompressBytesDecodesTheFramedCodes := by
  intro s bs hr hw
  obtain ⟨e, x, h, -⟩ := s.dec.started_holdsBack.decodes (framedCodes_fit bs) []
  obtain ⟨t, ht, hends⟩ := h.exec_decompressBytes hr hw
  obtain ⟨u, hu, hends', -⟩ := h.exec_decompress hw
  obtain ⟨hdec, hout, hobs⟩ := hends.agree hends' rfl
  exact ⟨t, u, ht, hu, hdec, hout, hobs, decompressBytes_endedIfDone ht, decompressBytes_over ht, exec_frame_of_isDecOp rfl ht⟩

end Sys2Proof.Machine
end

section
/-! PROOFS, family 43_codec_and_io: the token codec (O31 to O33), and a code that fits no field (O16). -/

namespace Sys2Proof.Machine

/-! ### Pack and Unpack (R170, R171) -/

/-- A code that does not fit has no field (R170). -/
theorem packField_of_not_fits {cfg : Config} {k : Nat} (hk : cfg.codeLimit ≤ k) : packField cfg k = none :=
  if_neg (Nat.not_lt.2 hk)

/-- Settles O33: a field holds the lanes of its code in the order of the wire, and ordering twice is not ordering at all. -/
theorem packAndUnpackAreInverse : Obligations.PackAndUnpackAreInverse := by
  intro cfg _
  refine ⟨fun k hk => ?_, fun f hf => ⟨unpackField_lt hf, packField_unpackField hf⟩, fun k => packField_of_not_fits⟩
  have hfield := packField_of_fits hk
  exact ⟨_, hfield, packField_length hfield, unpackField_ordered_lanes hk⟩

/-- `PACK` of a code that has a field answers its bytes, in every phase (R170; assumption 7). -/
theorem exec_pack_of_field {s : State} {k : Nat} {f : ByteSeq} (h : packField Config.hw k = some f) :
    exec (.pack k) s = .next (s.setOutputs (wordOutput f)) := by
  simp only [exec, execPack, packFor, h, finish_ok]

/-- `PACK` of a code that has none raises `CodeRange` (R170). -/
theorem exec_pack_of_no_field {s : State} {k : Nat} (h : packField Config.hw k = none) :
    exec (.pack k) s = finish .enc s (.raise (.codeRange k) s) := by
  simp only [exec, execPack, packFor, h]

/-- Settles O31: the field of the code is its four bytes. -/
theorem packGivesTheFourBytes : Obligations.PackGivesTheFourBytes :=
  fun _ _ hk => exec_pack_of_field (packField_eq_leBytes hk)

/-- `UNPACK` of a field answers its code, in every phase (R171; assumption 7). -/
theorem exec_unpack_of_field {s : State} {f : ByteSeq} (hf : f.length = Config.hw.codeBytes) :
    exec (.unpack f) s = .next (s.setOutputs [.code (unpackField Config.hw f)]) := by
  simp only [exec, execUnpack, unpackFor, hf, if_true, finish_ok]

/-- Settles O32: four bytes are a field of this hardware, and no other number of bytes is. -/
theorem unpackGivesTheCode : Obligations.UnpackGivesTheCode := by
  intro s
  refine ⟨fun f0 f1 f2 f3 => ?_, fun f hf => congrArg (finish .dec s) (if_neg hf)⟩
  rw [← unpackField_hw]
  exact ⟨codeLimit_hw ▸ unpackField_lt rfl, exec_unpack_of_field rfl⟩

/-! ### A code that fits no field (R170, R194) -/

section
variable {s : State} {k : Nat} (hk : 2 ^ 32 ≤ k)
include hk

theorem packField_eq_none : packField Config.hw k = none := packField_of_not_fits (codeLimit_hw.trans_le hk)

/-- `emit_code` packs before it writes: the sink has not been asked (R125). -/
theorem emitCode_eq_raise_codeRange : emitCode Config.hw k s = .raise (.codeRange k) s := by
  simp only [emitCode, packField_eq_none hk]

end

/-- A cause that a step of `ENC` raises before it calls a collaborator: the fault, with no write asked for. -/
theorem enc_fault_before_write {s v : State} (c : Cause) (hp : s.enc.phase = .run) (hport : v.encPort = s.encPort) :
    ∃ t, finish .enc s (.raise c v) = .next t ∧ EncFaulted c s t ∧ t.encPort.writes = s.encPort.writes :=
  ⟨_, finish_raise v .enc c (streaming_enc_iff.2 hp), encFaulted_enterFault (by rw [hport]),
    by show v.encPort.writes = s.encPort.writes; rw [hport]⟩

/-- Settles O16: the miss and the flush emit by `emit_code`, which packs first, and `PACK` does nothing else. -/
theorem aCodeTooLargeFaultsBeforeItIsWritten : Obligations.ACodeTooLargeFaultsBeforeItIsWritten := by
  intro s c k hk
  refine ⟨fun hp hcur hget => ⟨fun hn => ?_, ?_⟩, fun hp => ?_, fun hp => ?_⟩
  · rw [exec_eByte_of_not_has hp (EncTable.get_eq_none.1 hn), encMiss, tblLookupW_eq_ok (s := countByte s) hget, bind_ok,
      emitCode_eq_raise_codeRange hk, bind_raise]
    exact enc_fault_before_write _ hp rfl
  · rw [exec_eEos_of_code hp hcur hget, emitCode_eq_raise_codeRange hk, bind_raise]
    exact enc_fault_before_write _ hp rfl
  · rw [exec_pack_of_no_field (packField_eq_none hk)]
    exact (finish_enc_raise _).1 hp
  · rw [exec_pack_of_no_field (packField_eq_none hk)]
    exact finish_raise_refused s .enc _ (decide_eq_false hp)

end Sys2Proof.Machine
end

section
/-! PROOFS, family 43_codec_and_io: the host primitives issued directly (O35 to O37). -/

namespace Sys2Proof.Machine

/-! ### One call, by the collaborator's answer (R172, R173, R176, R181; assumption 17) -/

theorem exists_rest_of_nextAnswer {l : List CallAnswer} {a : CallAnswer} (h : (nextAnswer l).1 = a) :
    ∃ rest, nextAnswer l = (a, rest) :=
  ⟨_, Prod.ext h rfl⟩

section
variable {u : UnitId} {s : State} {bs more : ByteSeq} {c : Byte} {e : ErrVal}

theorem callReadByte_of_closed (hopen : (s.port u).inOpen = false) : callReadByte u s = .refuse (.notOpened u) :=
  if_pos hopen

theorem callReadByte_of_ended (hopen : (s.port u).inOpen = true) (he : (s.port u).ended = true) :
    callReadByte u s = .refuse (.readAfterEnd u) := by
  simp [callReadByte, hopen, he]

section
variable (hopen : (s.port u).inOpen = true) (he : (s.port u).ended = false)
include hopen he

/-- A read that returns takes the byte at the cursor, whatever becomes of the reads after it. -/
theorem callReadByte_of_returns (ha : (nextAnswer (s.port u).reads).1 = .returns) (hi : (s.port u).input = c :: more) :
    callReadByte u s =
      .ok (.byte c) (s.setPort u { s.port u with reads := (nextAnswer (s.port u).reads).2, input := more }) := by
  obtain ⟨rest, hn⟩ := exists_rest_of_nextAnswer ha
  simp [callReadByte, hopen, he, hn, hi]

/-- A read that fails raises `IOError`, and takes no byte. -/
theorem callReadByte_of_fails (ha : (nextAnswer (s.port u).reads).1 = .fails e) : callReadByte u s =
    .raise (.ioError e) (s.setPort u { s.port u with reads := (nextAnswer (s.port u).reads).2 }) := by
  obtain ⟨rest, hn⟩ := exists_rest_of_nextAnswer ha
  simp [callReadByte, hopen, he, hn]

theorem callReadByte_of_blocks (ha : (nextAnswer (s.port u).reads).1 = .blocks) :
    callReadByte u s = .stuck (.blocked u) := by
  obtain ⟨rest, hn⟩ := exists_rest_of_nextAnswer ha
  simp [callReadByte, hopen, he, hn]

end

theorem callWriteBytes_of_blocks (hb : bs ≠ []) (ha : (nextAnswer (s.port u).writes).1 = .blocks) :
    callWriteBytes u bs s = .stuck (.blocked u) := by
  obtain ⟨rest, hn⟩ := exists_rest_of_nextAnswer ha
  simp [callWriteBytes, hb, hn]

end

/-! ### The primitives in a stream: one call, and its answer (R172, R173, R175) -/

/-- The output symbols of a primitive that reads a byte. -/
def ReadResult.answer : ReadResult → List Output
  | .byte c => [.byte c]
  | .endOfStream => [.endOfStream]

/-- The output symbols of a primitive that reads a code. -/
def CodeResult.answer : CodeResult → List Output
  | .code k => [.code k]
  | .endOfStream => [.endOfStream]
  | .short n => [.short n]

section
variable {u : UnitId} {s : State} {bs : ByteSeq}

theorem exec_readByte_of_streaming (hs : s.streaming u = true) :
    exec (.readByte u) s = finish u s ((callReadByte u s).bind fun r v => .ok r.answer v) := by
  refine congrArg (finish u s) ((if_pos hs).trans (congrArg _ ?_))
  funext r v
  cases r <;> rfl

theorem exec_writeBytes_of_streaming (hs : s.streaming u = true) :
    exec (.writeBytes u bs) s = finish u s ((callWriteBytes u bs s).bind fun _ v => .ok [.success] v) :=
  congrArg (finish u s) (if_pos hs)

theorem exec_readCode_of_streaming (hs : s.streaming .dec = true) :
    exec .readCode s = finish .dec s ((callReadCode Config.hw s).bind fun r v => .ok r.answer v) := by
  refine congrArg (finish .dec s) ((if_pos hs).trans (congrArg _ ?_))
  funext r v
  cases r <;> rfl

theorem exec_readCode_of_ok {r : CodeResult} {v : State} (hs : s.streaming .dec = true)
    (h : callReadCode Config.hw s = .ok r v) : exec .readCode s = .next (v.setOutputs r.answer) := by
  rw [exec_readCode_of_streaming hs, h, bind_ok, finish_ok]

/-- `ReadCode` begins with a read: where that is refused, so is it. -/
theorem callReadCode_of_refuse {q : Refusal} (h : callReadByte .dec s = .refuse q) :
    callReadCode Config.hw s = .refuse q := by
  have hfirst : callReadCode Config.hw s = (callReadByte .dec s).bind _ := rfl
  rw [hfirst, h, bind_refuse]

/-- Outside a stream no primitive is called (R172; assumption 11). -/
theorem withStream_of_not_streaming {r : Res (List Output)} (hs : s.streaming u = false) :
    withStream u s r = .refuse (.wrongPhase u) :=
  if_neg (by simp [hs])

end

/-! ### The fault of a call (R176, R202) -/

/-- A raise of `DEC` whose step has left the earlier output alone is the fault of R202. -/
theorem decFaulted_enterFault {c : Cause} {s v : State} (hpast : v.decPort.past = s.decPort.past) :
    DecFaulted c s (enterFault .dec c s v) :=
  ⟨rfl, by simp, by simp, by simp, by simp, hpast⟩

/-- `t` is `s` after unit `u` took fault `c` (R202). -/
def UnitFaulted (u : UnitId) (c : Cause) (s t : State) : Prop :=
  match u with
  | .enc => EncFaulted c s t
  | .dec => DecFaulted c s t

/-- A raise that has changed no more than the port of its unit, and there not the earlier output, is the fault of R202. -/
theorem finish_raise_setPort {u : UnitId} {s : State} {p : Port} (c : Cause) (hs : s.streaming u = true)
    (hpast : p.past = (s.port u).past) :
    ∃ t, finish u s (.raise c (s.setPort u p)) = .next t ∧ UnitFaulted u c s t := by
  refine ⟨_, finish_raise _ u c hs, ?_⟩
  cases u
  · exact encFaulted_enterFault hpast
  · exact decFaulted_enterFault hpast

/-! ### The statements -/

/-- Settles O35: the primitive is one read, by what the cursor answers. -/
theorem readByteMovesTheCursor : Obligations.ReadByteMovesTheCursor := by
  intro s u
  refine ⟨fun hf hr => ?returns, fun hf he e ha => ?fails, fun hs hopen => ?closed,
    fun hs => congrArg (finish u s) (withStream_of_not_streaming hs)⟩
  case returns =>
    obtain ⟨hs, hopen⟩ := fed_iff.1 hf
    rw [exec_readByte_of_streaming hs]
    refine ⟨fun he c more hi => ?_, fun he hi => ?_, fun he => ?_⟩
    · rw [callReadByte_moves_cursor hopen he hr hi, bind_ok, finish_ok, ReadResult.answer]
    · rw [callReadByte_nil hopen he hr hi, ← hr, bind_ok, finish_ok, ReadResult.answer]
    · rw [callReadByte_of_ended hopen he, bind_refuse, finish_refuse]
  case fails =>
    obtain ⟨hs, hopen⟩ := fed_iff.1 hf
    rw [exec_readByte_of_streaming hs, callReadByte_of_fails hopen he ha, bind_raise]
    exact finish_raise_setPort _ hs rfl
  case closed => rw [exec_readByte_of_streaming hs, callReadByte_of_closed hopen, bind_refuse, finish_refuse]

/-- Settles O36: the primitive is one write, by what the sink answers. -/
theorem writeBytesAppendsToTheSink : Obligations.WriteBytesAppendsToTheSink := by
  intro s u bs
  refine ⟨fun hs hb hw => ?returns, fun hs hb e ha => ?fails, fun hs => ?empty,
    fun hs => congrArg (finish u s) (withStream_of_not_streaming hs)⟩
  case returns => rw [exec_writeBytes_of_streaming hs, callWriteBytes_returns hb hw, bind_ok, finish_ok, Port.wrote]
  case fails =>
    rw [exec_writeBytes_of_streaming hs, callWriteBytes_fails hb ha, bind_raise]
    exact finish_raise_setPort _ hs rfl
  case empty => exact exec_writeBytes_of_streaming hs

/-- Settles O37: the primitive is one `ReadCode`, which reads a whole field, or what is left of the input. -/
theorem readCodeFramesTheStream : Obligations.ReadCodeFramesTheStream := by
  intro s
  refine ⟨fun hf hr he => ?returns, fun hf he => ?ended, fun hs hopen => ?closed,
    fun hs => congrArg (finish .dec s) (withStream_of_not_streaming hs)⟩
  case returns =>
    obtain ⟨hs, hopen⟩ := fed_iff.1 hf
    refine ⟨fun f0 f1 f2 f3 more hi => ?_, fun hi => ?_, fun h1 h3 => ?_⟩
    · have hread : callReadCode Config.hw s = _ := readField_append (g := [f0, f1, f2, f3]) [] hopen he hr hi
      rw [List.nil_append, unpackField_hw] at hread
      exact exec_readCode_of_ok hs hread
    · have hread : callReadCode Config.hw s = _ := readField_of_short (f := []) hopen he hr hi (by decide)
      rw [List.append_nil, if_pos rfl, ← hi] at hread
      exact exec_readCode_of_ok hs hread
    · have hread : callReadCode Config.hw s = _ := readField_of_short (f := []) hopen he hr rfl (Nat.lt_succ_of_le h3)
      rw [List.nil_append, if_neg (List.ne_nil_of_length_pos h1)] at hread
      exact exec_readCode_of_ok hs hread
  case ended =>
    obtain ⟨hs, hopen⟩ := fed_iff.1 hf
    rw [exec_readCode_of_streaming hs, callReadCode_of_refuse (callReadByte_of_ended (u := .dec) hopen he), bind_refuse,
      finish_refuse]
  case closed =>
    rw [exec_readCode_of_streaming hs, callReadCode_of_refuse (callReadByte_of_closed (u := .dec) hopen), bind_refuse,
      finish_refuse]

end Sys2Proof.Machine
end

section
/-! PROOFS, family 43_codec_and_io: a call that fails, before an event (O45), and a call that never returns (O38). -/

namespace Sys2Proof.Machine

/-! ### A read at any byte of a code (R175, R201) -/

/-- `s` after `m` reads of `DEC` that returned a byte each, with the answers `rs` still to come. -/
def State.afterReads (s : State) (m : Nat) (rs : List CallAnswer) : State :=
  s.setPort .dec { s.decPort with reads := rs, input := s.decPort.input.drop m }

theorem afterReads_afterReads (s : State) (m n : Nat) (rs rs' : List CallAnswer) :
    (s.afterReads n rs).afterReads m rs' = s.afterReads (m + n) rs' := by
  simp [State.afterReads, Nat.add_comm]

section
variable {s : State} {m : Nat} {rs more : List CallAnswer} {e : ErrVal} (hopen : s.decPort.inOpen = true)
  (he : s.decPort.ended = false)
include hopen he

/-- The loop of `ReadCode` takes the bytes whose reads return, and goes on with the answers after them. -/
theorem readField_of_returns {cfg : Config} {j : Nat} (f : ByteSeq)
    (hr : s.decPort.reads = List.replicate m .returns ++ rs) (hi : m ≤ s.decPort.input.length) :
    readField cfg (m + j) f s = readField cfg j (f ++ s.decPort.input.take m) (s.afterReads m rs) := by
  induction m generalizing f s with
  | zero =>
    have hs : s.afterReads 0 rs = s := by rw [State.afterReads, ← show s.decPort.reads = rs from hr]; rfl
    rw [hs, Nat.zero_add, List.take_zero, List.append_nil]
  | succ m ih =>
    obtain ⟨c, g, hg⟩ := List.exists_cons_of_length_pos (Nat.zero_lt_of_lt hi)
    have hread : callReadByte .dec s = .ok (.byte c) (s.afterReads 1 (List.replicate m .returns ++ rs)) := by
      rw [callReadByte_of_returns (u := .dec) hopen he (by rw [port_dec, hr]; rfl) hg, State.afterReads, hg, port_dec, hr]
      rfl
    have hinput : (s.afterReads 1 (List.replicate m .returns ++ rs)).decPort.input = g := congrArg (List.drop 1) hg
    have hrest := ih (s := s.afterReads 1 (List.replicate m .returns ++ rs)) hopen he (f ++ [c]) rfl
      (by rw [hg] at hi; rw [hinput]; exact Nat.le_of_succ_le_succ hi)
    rw [hinput, afterReads_afterReads] at hrest
    rw [Nat.add_right_comm, readField, hread, bind_ok, hg, List.take_succ_cons, List.append_cons]
    exact hrest

variable (hm : m ≤ 3) (hi : m ≤ s.decPort.input.length)
include hm hi

/-- After `m` bytes, which are no whole code, `ReadCode` reads again. -/
theorem callReadCode_of_returns (hr : s.decPort.reads = List.replicate m .returns ++ rs) : callReadCode Config.hw s =
    readField Config.hw (3 - m + 1) (s.decPort.input.take m) (s.afterReads m rs) := by
  have hlen : Config.hw.codeBytes = m + (3 - m + 1) := by show 4 = _; omega
  rw [callReadCode, hlen, readField_of_returns hopen he [] hr hi, List.nil_append]

/-- A read that fails is the fault of the code; the bytes read before it stay read (assumption 12). -/
theorem callReadCode_of_fails (hr : s.decPort.reads = List.replicate m .returns ++ .fails e :: more) :
    callReadCode Config.hw s = .raise (.ioError e) (s.afterReads m more) := by
  have hread : callReadByte .dec (s.afterReads m (.fails e :: more)) = _ := callReadByte_of_fails hopen he rfl
  rw [callReadCode_of_returns hopen he hm hi hr, readField, hread, bind_raise]
  rfl

theorem callReadCode_of_blocks (hr : s.decPort.reads = List.replicate m .returns ++ .blocks :: more) :
    callReadCode Config.hw s = .stuck (.blocked .dec) := by
  have hread : callReadByte .dec (s.afterReads m (.blocks :: more)) = _ := callReadByte_of_blocks hopen he rfl
  rw [callReadCode_of_returns hopen he hm hi hr, readField, hread, bind_stuck]

end

/-! ### A step whose read does not answer (R176, R181, R201) -/

section
variable {s v : State} {c : Cause} {f : Fault}

theorem pollStep_enc_of_raise (hs : s.streaming .enc = true) (h : callReadByte .enc s = .raise c v) :
    pollStep .enc s = .next (enterFault .enc c s v) := by
  simp only [pollStep, fetch, hs, if_true, fetchEnc, h, bind_raise]

theorem pollStep_enc_of_stuck (hs : s.streaming .enc = true) (h : callReadByte .enc s = .stuck f) :
    pollStep .enc s = .fault f := by
  simp only [pollStep, fetch, hs, if_true, fetchEnc, h, bind_stuck]

theorem pollStep_dec_of_raise (hs : s.streaming .dec = true) (h : callReadCode Config.hw s = .raise c v) :
    pollStep .dec s = .next (enterFault .dec c s v) := by
  simp only [pollStep, fetch, hs, if_true, fetchDec, h, bind_raise]

theorem pollStep_dec_of_stuck (hs : s.streaming .dec = true) (h : callReadCode Config.hw s = .stuck f) :
    pollStep .dec s = .fault f := by
  simp only [pollStep, fetch, hs, if_true, fetchDec, h, bind_stuck]

end

section
variable {s : State} {m : Nat} {more : List CallAnswer} {e : ErrVal}

/-- The read of `ENC` before its event fails. -/
theorem pollStep_enc_of_fails (hf : s.fed .enc = true) (he : s.encPort.ended = false)
    (ha : (nextAnswer s.encPort.reads).1 = .fails e) :
    ∃ t, pollStep .enc s = .next t ∧ EncFaulted (.ioError e) s t ∧ t.encPort.input = s.encPort.input := by
  obtain ⟨hs, hopen⟩ := fed_iff.1 hf
  exact ⟨_, pollStep_enc_of_raise hs (callReadByte_of_fails hopen he ha), encFaulted_enterFault rfl, rfl⟩

/-- The read of `ENC` before its event never returns. -/
theorem pollStep_enc_of_blocks (hf : s.fed .enc = true) (he : s.encPort.ended = false)
    (ha : (nextAnswer s.encPort.reads).1 = .blocks) : pollStep .enc s = .fault (.blocked .enc) := by
  obtain ⟨hs, hopen⟩ := fed_iff.1 hf
  exact pollStep_enc_of_stuck hs (callReadByte_of_blocks hopen he ha)

variable (hf : s.fed .dec = true) (he : s.decPort.ended = false) (hm : m ≤ 3) (hi : m ≤ s.decPort.input.length)
include hf he hm hi

/-- A read of `DEC` fails at byte `m` of the code before its event. -/
theorem pollStep_dec_of_fails (hr : s.decPort.reads = List.replicate m .returns ++ .fails e :: more) :
    ∃ t, pollStep .dec s = .next t ∧ DecFaulted (.ioError e) s t ∧ t.decPort.input = s.decPort.input.drop m := by
  obtain ⟨hs, hopen⟩ := fed_iff.1 hf
  exact ⟨_, pollStep_dec_of_raise hs (callReadCode_of_fails hopen he hm hi hr), decFaulted_enterFault rfl, rfl⟩

/-- A read of `DEC` at byte `m` of the code before its event never returns. -/
theorem pollStep_dec_of_blocks (hr : s.decPort.reads = List.replicate m .returns ++ .blocks :: more) :
    pollStep .dec s = .fault (.blocked .dec) := by
  obtain ⟨hs, hopen⟩ := fed_iff.1 hf
  exact pollStep_dec_of_stuck hs (callReadCode_of_blocks hopen he hm hi hr)

theorem exec_readCode_of_fails (hr : s.decPort.reads = List.replicate m .returns ++ .fails e :: more) :
    ∃ t, exec .readCode s = .next t ∧ DecFaulted (.ioError e) s t ∧ t.decPort.input = s.decPort.input.drop m := by
  obtain ⟨hs, hopen⟩ := fed_iff.1 hf
  rw [exec_readCode_of_streaming hs, callReadCode_of_fails hopen he hm hi hr, bind_raise]
  exact ⟨_, finish_raise _ .dec _ hs, decFaulted_enterFault rfl, rfl⟩

theorem exec_readCode_of_blocks (hr : s.decPort.reads = List.replicate m .returns ++ .blocks :: more) :
    exec .readCode s = .fault (.blocked .dec) := by
  obtain ⟨hs, hopen⟩ := fed_iff.1 hf
  rw [exec_readCode_of_streaming hs, callReadCode_of_blocks hopen he hm hi hr, bind_stuck, finish_stuck]

end

/-- Settles O45: with or without a move the step reads before it has an event, and the raise of the read is all it does. -/
theorem aReadFailureComesBeforeTheEvent : Obligations.AReadFailureComesBeforeTheEvent := by
  intro s e more
  refine ⟨fun hf he hr => ?enc, fun m hf he hr hm hi => ⟨exec_readCode_of_fails hf he hm hi hr, fun hmoves hfe => ?noMove,
    fun rest hmoves => ?poll⟩⟩
  case enc =>
    have ha : (nextAnswer s.encPort.reads).1 = .fails e := by rw [hr]; rfl
    refine ⟨fun hmoves => ?_, fun rest hmoves => ?_⟩
    · rw [step_encFed hmoves hf]
      exact pollStep_enc_of_fails hf he ha
    · rw [step_poll hmoves]
      exact pollStep_enc_of_fails (s := s.setMoves rest) ((setMoves_fed ..).trans hf) he ha
  case noMove =>
    rw [step_decFed hmoves hfe hf]
    exact pollStep_dec_of_fails hf he hm hi hr
  case poll =>
    rw [step_poll hmoves]
    exact pollStep_dec_of_fails (s := s.setMoves rest) ((setMoves_fed ..).trans hf) he hm hi hr

/-! ### An event whose write never returns (R181) -/

section
variable {s : State} {c : Byte} {k : Nat} {w : Word}

theorem emitCode_of_blocks (hk : k < 2 ^ 32) (ha : (nextAnswer s.encPort.writes).1 = .blocks) :
    emitCode Config.hw k s = .stuck (.blocked .enc) := by
  have hwrite : callWriteBytes .enc (leBytes k) s = _ := callWriteBytes_of_blocks (List.cons_ne_nil _ _) ha
  simp only [emitCode, packField_eq_leBytes hk, hwrite, bind_stuck]

theorem emitWord_of_blocks (hne : w ≠ []) (ha : (nextAnswer s.decPort.writes).1 = .blocks) :
    emitWord w s = .stuck (.blocked .dec) := by
  have hwrite : callWriteBytes .dec w s = _ := callWriteBytes_of_blocks hne ha
  rw [emitWord, hwrite, bind_stuck]

section
variable (hp : s.enc.phase = .run) (hget : s.enc.tbl.get s.enc.cur = some k) (hk : k < 2 ^ 32)
  (ha : (nextAnswer s.encPort.writes).1 = .blocks)
include hp hget hk ha

theorem exec_eByte_of_blocks (hn : s.enc.tbl.has (s.enc.cur ++ [c]) = false) :
    exec (.eByte c) s = .fault (.blocked .enc) := by
  rw [exec_eByte_of_not_has hp hn, encMiss, tblLookupW_eq_ok (s := countByte s) hget, bind_ok,
    emitCode_of_blocks (s := countByte s) hk ha, bind_stuck, finish_stuck]

theorem exec_eEos_of_blocks (hcur : s.enc.cur ≠ []) : exec .eEos s = .fault (.blocked .enc) := by
  rw [exec_eEos_of_code hp hcur hget, emitCode_of_blocks hk ha, bind_stuck, finish_stuck]

end

section
variable (hp : s.dec.phase = .run) (hcw : s.dec.cw ≠ []) (ha : (nextAnswer s.decPort.writes).1 = .blocks)
include hp hcw ha

theorem exec_dEos_of_blocks : exec .dEos s = .fault (.blocked .dec) := by
  rw [exec_dEos_of_run hp, emitWord_of_blocks hcw ha, bind_stuck, finish_stuck]

theorem exec_dCode_of_blocks (hk : k < 2 ^ 32) : exec (.dCode k) s = .fault (.blocked .dec) := by
  rw [exec_dCode_of_run hp hk, decRun_eq, emitWord_of_blocks (s := s.readAhead k) hcw ha, bind_stuck, finish_stuck]

/-- The row of the class that `k` has is its event (R89). -/
theorem finish_decRunCase_of_blocks (hk : k < 2 ^ 32) {cl : CodeClass} (hcl : codeClass s.dec.tbl.next k = cl) :
    finish .dec s (decRunCase Config.hw cl k s) = .fault (.blocked .dec) := by
  rw [finish_decRunCase_of_run hp hk, if_pos hcl]
  exact exec_dCode_of_blocks hp hcw ha hk

end

end

/-- Settles O38: a call that never returns is all that its primitive, its event, its row and its step do. -/
theorem aBlockedCallHasNoNextState : Obligations.ABlockedCallHasNoNextState := by
  intro s
  refine ⟨fun u bs hs hb ha => ?write, fun u hf he ha => ?read, fun c k hp hcur hget hk ha => ?encEvents,
    fun k n hp hcw hk h1 h3 ha => ?decEvents, fun hf he ha => ?encStep, fun m more hf he hr hm hi => ?decStep⟩
  case write =>
    rw [exec_writeBytes_of_streaming hs, callWriteBytes_of_blocks hb ha, bind_stuck, finish_stuck]
  case read =>
    obtain ⟨hs, hopen⟩ := fed_iff.1 hf
    rw [exec_readByte_of_streaming hs, callReadByte_of_blocks hopen he ha, bind_stuck, finish_stuck]
  case encEvents =>
    refine ⟨fun hn => ?_, exec_eEos_of_blocks hp hget hk ha hcur⟩
    have habsent := EncTable.get_eq_none.1 hn
    have hevent := exec_eByte_of_blocks hp hget hk ha habsent
    exact ⟨hevent, by rw [exec_eByteMiss_of_run hp, if_neg (by simp [habsent]), hevent]⟩
  case decEvents =>
    have heos := exec_dEos_of_blocks hp hcw ha
    have hrow {cl : CodeClass} := finish_decRunCase_of_blocks (cl := cl) hp hcw ha hk
    refine ⟨?_, fun hc => hrow (codeClass_eq_res.2 hc), fun hc => hrow (codeClass_eq_kwk.2 hc),
      fun hc => hrow (codeClass_eq_bad.2 hc)⟩
    simp only [List.forall_mem_cons, exec_dShort_eq h1 h3]
    exact ⟨exec_dCode_of_blocks hp hcw ha hk, heos, heos, by simp⟩
  case encStep =>
    refine ⟨fun hmoves => ?_, fun rest hmoves => ?_⟩
    · rw [step_encFed hmoves hf]
      exact pollStep_enc_of_blocks hf he ha
    · rw [step_poll hmoves]
      exact pollStep_enc_of_blocks (s := s.setMoves rest) ((setMoves_fed ..).trans hf) he ha
  case decStep =>
    refine ⟨exec_readCode_of_blocks hf he hm hi hr, fun hmoves hfe => ?_, fun rest hmoves => ?_⟩
    · rw [step_decFed hmoves hfe hf]
      exact pollStep_dec_of_blocks hf he hm hi hr
    · rw [step_poll hmoves]
      exact pollStep_dec_of_blocks (s := s.setMoves rest) ((setMoves_fed ..).trans hf) he hm hi hr

end Sys2Proof.Machine
end

section
/-! PROOFS, family 70_reset_and_hazards: a stream of codes cut short (O60). The cut is followed on the previous-token decoder,
whose output only grows. -/

namespace Sys2Proof.Machine

/-! ### A stream that ends without a fault has run every code (R91, R141) -/

/-- A composite that does not end in `FAULT` has run each of its steps. -/
theorem runSteps_all_next {u : UnitId} {l : List (State → Out)} {acc : List Output} {s t : State}
    (h : runSteps u l acc s = .next t) (ht : t.faulted u = false) : ∀ f ∈ l, ∃ v w, f v = .next w := by
  induction l generalizing acc s with
  | nil => exact nofun
  | cons g l ih =>
    simp only [runSteps] at h
    split at h
    · next v hv =>
      split_ifs at h with hf
      · obtain rfl := Host.Outcome.next.inj h
        exact absurd (hf.symm.trans ht) nofun
      · exact List.forall_mem_cons.2 ⟨⟨s, v, hv⟩, ih h⟩
    · cases h
    · cases h

/-- The code of an event that has a next state fits a field, whether the event completes or faults. -/
theorem fits_of_exec_dCode {s t : State} {k : Nat} (h : exec (.dCode k) s = .next t) : k < 2 ^ 32 := by
  obtain ⟨o, v, hv, -⟩ | ⟨c, v, hv, -, -⟩ := finish_cases h
  · exact fits_hw.1 (decCode_ok hv).1
  · exact fits_hw.1 (decCode_raise hv).1

/-- A stream that ends in `DONE` is one of codes that a field holds. -/
theorem fits_of_decompress_done {s t : State} {ks : CodeSeq} (h : exec (.decompress ks) s = .next t)
    (hdone : t.dec.phase = .done) : ∀ k ∈ ks, k < 2 ^ 32 := by
  intro k hk
  obtain ⟨v, w, hx⟩ := runSteps_all_next h (not_faulted_of_decDone hdone) (dCodeStep Config.hw k)
    (List.mem_cons_of_mem _ (List.mem_append_left _ (List.mem_map_of_mem hk)))
  exact fits_of_exec_dCode hx

/-! ### The previous-token decoder on a stream cut short (R152) -/

section
variable {t tbl : DecTable} {prev : Option Word} {out all : ByteSeq} {k : Nat} {ks : CodeSeq}

/-- A code that the previous-token decoder consumes, it consumes in the same way whatever follows. -/
theorem previousToken_cons_ok (h : previousToken t prev out (k :: ks) = .ok (tbl, all)) : ∃ t' w, ∀ ls,
    previousToken t prev out (k :: ls) = previousToken t' (some w) (out ++ w) ls := by
  cases prev with
  | none =>
    simp only [previousToken] at h
    split_ifs at h with hk
    split at h
    · next w hw => exact ⟨t, w, fun ls => previousToken_first out ls hk hw⟩
    · cases h
  | some prev =>
    simp only [previousToken] at h
    split at h
    · next w hw => exact ⟨t.append (prev ++ w.take 1), w, fun ls => by simp only [previousToken, hw]⟩
    · cases h

/-- It never takes back what it has put out. -/
theorem previousToken_prefix (h : previousToken t prev out ks = .ok (tbl, all)) : out <+: all := by
  induction ks generalizing t prev out with
  | nil =>
    rw [previousToken_nil] at h
    cases h
    exact List.prefix_rfl
  | cons k ks ih =>
    obtain ⟨t', w, hcons⟩ := previousToken_cons_ok h
    exact (List.prefix_append out w).trans (ih (hcons ks ▸ h))

/-- A stream it decodes, cut after any number of codes, it decodes to a beginning. -/
theorem previousToken_take (h : previousToken t prev out ks = .ok (tbl, all)) (n : Nat) :
    ∃ tbl' x, previousToken t prev out (ks.take n) = .ok (tbl', x) ∧ x <+: all := by
  induction ks generalizing t prev out n with
  | nil => exact ⟨tbl, all, by rwa [List.take_nil], List.prefix_rfl⟩
  | cons k ks ih =>
    cases n with
    | zero => exact ⟨t, out, previousToken_nil t prev out, previousToken_prefix h⟩
    | succ n =>
      obtain ⟨t', w, hcons⟩ := previousToken_cons_ok h
      rw [List.take_succ_cons, hcons]
      exact ih (hcons ks ▸ h) n

end

/-- With writes that succeed, codes that decode without a fault end `DECOMPRESS` in `DONE` with what they decode to (O54). -/
theorem exec_decompress_of_previousToken {s : State} {ks : CodeSeq} {tbl : DecTable} {x : ByteSeq}
    (hw : s.decPort.writes = []) (hfit : ∀ k ∈ ks, k < 2 ^ 32)
    (hok : previousToken (DecTable.literals Config.hw) none [] ks = .ok (tbl, x)) :
    ∃ u, exec (.decompress ks) s = .next u ∧ u.dec.phase = .done ∧ u.outputs = x.map .byte := by
  obtain ⟨u, hu, -, -, -, -, -, hend⟩ := decompressIsThePreviousTokenDecoder s ks hw hfit
  rw [hok] at hend
  obtain ⟨hdone, -, hout, -⟩ := hend
  exact ⟨u, hu, hdone, hout⟩

/-- With writes that succeed, a `DECOMPRESS` that ends in `DONE` answers what the previous-token decoder puts out (O54). -/
theorem previousToken_of_exec_decompress {s t : State} {ks : CodeSeq} (hw : s.decPort.writes = [])
    (hx : exec (.decompress ks) s = .next t) (hdone : t.dec.phase = .done) :
    ∃ tbl all, previousToken (DecTable.literals Config.hw) none [] ks = .ok (tbl, all) ∧ t.outputs = all.map .byte := by
  obtain ⟨t', ht, -, -, -, -, -, hend⟩ :=
    decompressIsThePreviousTokenDecoder s ks hw (fits_of_decompress_done hx hdone)
  obtain rfl : t = t' := Host.Outcome.next.inj (hx.symm.trans ht)
  cases hr : previousToken (DecTable.literals Config.hw) none [] ks with
  | ok p =>
    rw [hr] at hend
    obtain ⟨-, -, hout, -⟩ := hend
    exact ⟨p.1, p.2, rfl, hout⟩
  | error k =>
    rw [hr] at hend
    obtain ⟨hfault, -⟩ := hend
    cases hfault.symm.trans hdone

/-- Settles O60: both runs are those of the previous-token decoder, which decodes the cut stream to a beginning. -/
theorem aCutAtACodeBoundaryIsNotDetected : Obligations.ACutAtACodeBoundaryIsNotDetected := by
  intro s t ks n hw hx hdone
  have hfit := fits_of_decompress_done hx hdone
  obtain ⟨tbl, all, hok, hall⟩ := previousToken_of_exec_decompress hw hx hdone
  obtain ⟨tbl', x, hcut, rest, rfl⟩ := previousToken_take hok n
  obtain ⟨u, hu, hudone, hout⟩ :=
    exec_decompress_of_previousToken hw (fun k hk => hfit k (List.mem_of_mem_take hk)) hcut
  exact ⟨u, rest.map .byte, hu, hudone, by rw [hall, hout, List.map_append]⟩

end Sys2Proof.Machine
end
